-- ==== Sys2Proof/Word.lean ====
section
/-!
DEFINITION. The word types of the block: bit sequences, paths, symbols, bytes, command codes
(spec/00_scope.md R7, R11, R14).
-/

namespace Sys2Proof

/-- A bit sequence in stream order, first bit first (R11). -/
abbrev BitSeq := List Bool

/-- A path in a tree: `false` is the left child, `true` the right child (R14). -/
abbrev Path := List Bool

/-- The 9-bit symbol field of a leaf (R7, R14). -/
abbrev Symbol := BitVec 9

/-- A byte of input or output (R7). -/
abbrev Byte := BitVec 8

/-- The 4-bit command code `op[3:0]` (R90). -/
abbrev OpCode := BitVec 4

/-- The terminator symbol, value 256 (R7, R16). -/
abbrev TERM : Symbol := 256#9

end Sys2Proof
end

