-- ==== Sys2Proof/Config.lean ====
section
/-!
DEFINITION. What an implementation fixes and no step changes (spec/00_scope.md R8, R9; spec/10_state.md R35).
-/

namespace Sys2Proof

/-- `MAGIC_TREE`, the 32-bit magic constant (R8). The spec leaves it open, so it has no body: nothing in Lean can
evaluate it, and what is proved holds for every value. Log 1: DESIGN CHOICE, safe. -/
opaque Config.magicTree : BitVec 32

/-- The width an implementation was built with, one below it so that every value is legal; none is the spec's default.
The spec leaves it open (R9, R35), so it has no body, and what is proved holds for every width. Log 2: DESIGN CHOICE,
safe. -/
opaque Config.widthBuilt : Option Nat

/-- `W`, the width in bits of a count and of a node weight: an integer of at least 1, by default 32 (R9). -/
def Config.countWidth : Nat :=
  match Config.widthBuilt with
  | none => 32
  | some w => w + 1

/-- The longest input, in bytes, that `COUNT` accepts: `2^W − 2` (R111). -/
def Config.maxInput : Nat := 2 ^ Config.countWidth - 2

end Sys2Proof
end

