-- ==== Sys2Proof/Machine/Tree.lean ====
section
/-!
DEFINITION. Trees (spec/00_scope.md R14), the invariant `valid_tree` (spec/10_state.md R24) and what the rules read
off a tree: root weight, leaves, shape, the node at a path.
-/

namespace Sys2Proof.Machine

/-- `Tree ::= Leaf(sym, weight) | Internal(weight, left, right)` (R14). -/
inductive Tree where
  | leaf (sym : Symbol) (weight : Nat)
  | internal (weight : Nat) (left right : Tree)
  deriving DecidableEq, Repr

/-- `weight(t)`: the weight field of the root (R14). -/
def Tree.weight : Tree → Nat
  | .leaf _ w => w
  | .internal w _ _ => w

/-- A singleton tree: a single leaf (R16). -/
def Tree.isLeaf : Tree → Bool
  | .leaf _ _ => true
  | .internal _ _ _ => false

/-- `leaves(t)`: the leaf symbols from left to right (R14). -/
def Tree.leaves : Tree → List Symbol
  | .leaf s _ => [s]
  | .internal _ l r => l.leaves ++ r.leaves

/-- The number of internal nodes (R10). -/
def Tree.internals : Tree → Nat
  | .leaf _ _ => 0
  | .internal _ l r => l.internals + r.internals + 1

/-- The number of edges from the root to the deepest leaf (R10). -/
def Tree.depth : Tree → Nat
  | .leaf _ _ => 0
  | .internal _ l r => max l.depth r.depth + 1

/-- `shape(t)`: every weight erased, here set to 0, which is the weight `HDRRD` gives (R14, R26). -/
def Tree.shape : Tree → Tree
  | .leaf s _ => .leaf s 0
  | .internal _ l r => .internal 0 l.shape r.shape

/-- The child an edge bit leads to: 0 left, 1 right (R14, R193). -/
def Tree.child (b : Bool) (l r : Tree) : Tree :=
  match b with
  | false => l
  | true => r

/-- `node_at(t, p)`: defined only when every proper prefix of `p` reaches an internal node (R14). -/
def Tree.nodeAt : Tree → Path → Option Tree
  | t, [] => some t
  | .leaf _ _, _ :: _ => none
  | .internal _ l _, false :: p => l.nodeAt p
  | .internal _ _ r, true :: p => r.nodeAt p

/-- Some leaf carrying `s` stands at the path `p` (R141). -/
def Tree.leafAt (t : Tree) (p : Path) (s : Symbol) : Prop :=
  ∃ w, t.nodeAt p = some (.leaf s w)

/-- Every internal weight is the sum of its children's weights (R23, R128). -/
def Tree.weightsAdd : Tree → Bool
  | .leaf _ _ => true
  | .internal w l r => w == l.weight + r.weight && l.weightsAdd && r.weightsAdd

/-- Every weight in the tree is below `bound` (R126). -/
def Tree.weightsBelow (bound : Nat) : Tree → Bool
  | .leaf _ w => w < bound
  | .internal w l r => w < bound && l.weightsBelow bound && r.weightsBelow bound

/-- `valid_tree(t)` (R24): one leaf carries the terminator, leaf symbols are pairwise distinct, each is in 0..256.
Strictness is the type's. -/
abbrev Tree.Valid (t : Tree) : Prop :=
  t.leaves.count TERM = 1 ∧ t.leaves.Nodup ∧ ∀ s ∈ t.leaves, s.toNat ≤ 256

end Sys2Proof.Machine
end

