-- ==== Sys2Proof/Machine/State.lean ====
section
/-!
DEFINITION. The state of the block and of its two streams as plain data, and the state after reset (spec/10_state.md
R21 to R37, spec/20_memory.md R50, R51, spec/30_encoding.md R90, R92).
-/

namespace Sys2Proof.Machine

/-- The two error kinds (spec/60_exceptions.md R220). -/
inductive ErrorKind where
  | invalidFormat
  | truncatedInput
  deriving DecidableEq, Repr

/-- A machine stop with a fault. The spec gives the block none: its two error kinds are next states (R224). -/
inductive Fault where
  /-- Raised by a payload token read while `CUR` denotes no internal node of `TREE`, which breaks the precondition of
  `DECSTEP` (spec/45_bitstream_decoder.md R193). No run reaches such a state (log 15). Safe: the model stops. -/
  | decoderLost
  deriving DecidableEq, Repr

/-- No meaning for the operation: the closed list of reasons of spec/60_exceptions.md R230, and two of the model. -/
inductive Refusal where
  /-- Raised by `exec` for an instruction that has no meaning yet. Safe: the model stops. -/
  | notModelled (mnemonic : String)
  /-- Raised by an operation whose validity bit is 0, or while `ERR ≠ 0` (R231). Safe: the model stops. -/
  | needsState
  /-- Raised by `COUNT` and `COMPRESS` on an input longer than `2^W − 2` bytes (R232). Safe: the model stops. -/
  | widthOverflow
  /-- Raised by a reserved command code, and by any command while `BUSY = 1` (R233). Safe: the model stops. -/
  | badCommand
  /-- Raised by `ENCPAY` on a byte with no code (R173, R234). Safe: the model stops. -/
  | noCode
  /-- Raised by a stream token that no operation in progress reads or is due to write (log 6): a token is no command
  (R90). Safe: the model stops. -/
  | strayToken
  deriving DecidableEq, Repr

/-- `SRC = (bits, pos)` (R50). -/
structure Src where
  bits : BitSeq
  pos : Nat
  deriving DecidableEq, Repr

/-- The header reader between two tokens (R155, R160): the internal nodes whose subtrees are being read, innermost
first, each with its left subtree once that is complete; the symbols seen; the internal nodes counted. -/
structure HdrReader where
  frames : List (Option Tree)
  seen : List Symbol
  nint : Nat
  deriving DecidableEq, Repr

/-- The operation in progress while `BUSY = 1`, for the six operations that read or write stream tokens, with the
transient state of R34 that it needs between two tokens. -/
inductive Job where
  /-- `RDMAGIC` waits for the magic. -/
  | rdMagic
  /-- `HDRRD` waits for a header token. -/
  | hdrRd (r : HdrReader)
  /-- `DECPAY` waits for a code. -/
  | decPay
  /-- `WRMAGIC` is due to write the magic. -/
  | wrMagic
  /-- `HDRWR` is due to write these subtrees, the first of them next. -/
  | hdrWr (todo : List Tree)
  /-- `ENCPAY` is due to write a code. -/
  | encPay
  deriving DecidableEq, Repr

/-- `CODE[0..256]`: `some p` is an entry with `present = 1`, `len` the length of `p` and `bits = p`; `none` is an
entry with `present = 0` (R28). -/
abbrev CodeTable := Vector (Option BitSeq) 257

/-- `CNT[0..255]` (R21). -/
abbrev CountTable := Vector Nat 256

/-- The whole state `S` of spec/10_state.md with its environment. -/
structure State where
  /-- `CNT` (R21). -/
  cnt : CountTable
  /-- `CNT_VALID` (R22). -/
  cntValid : Bool
  /-- `TREE`, no value while `TREE_VALID = 0` (R23, R25). -/
  tree : Option Tree
  /-- `CODE` (R28). -/
  code : CodeTable
  /-- `CODE_VALID` (R29). -/
  codeValid : Bool
  /-- `CUR` (R31). -/
  cur : Path
  /-- `ERR`, `none` for 0 (R32). -/
  err : Option ErrorKind
  /-- The operation in progress: `BUSY` is 1 exactly when there is one (R33, R34). -/
  job : Option Job
  /-- `SRC` (R50). -/
  src : Src
  /-- `SNK.bits` (R51). -/
  snk : BitSeq
  /-- The command port: codes the host has presented, in order, the first of them next (R90, R92, R97). -/
  port : List OpCode
  deriving DecidableEq, Repr

/-- What an operation answers. -/
abbrev Result := Host.Outcome State Fault Refusal

/-- A count table of zeros (R37). -/
def CountTable.zero : CountTable := Vector.replicate 256 0

/-- A code table with every entry absent (R37). -/
def CodeTable.absent : CodeTable := Vector.replicate 257 none

/-- The state right after reset (R37, R250), with nothing bound to the streams and nothing presented on the command
port (log 9: DESIGN CHOICE, unsafe). -/
def State.reset : State where
  cnt := CountTable.zero
  cntValid := false
  tree := none
  code := CodeTable.absent
  codeValid := false
  cur := []
  err := none
  job := none
  src := { bits := [], pos := 0 }
  snk := []
  port := []

end Sys2Proof.Machine
end

