-- ==== Sys2Proof/Syntax.lean ====
section
/-!
DEFINITION. The abstract syntax: one constructor for each row of spec/opcode_table.json.
-/

namespace Sys2Proof

/-- The fourteen commands and two reserved codes of the command port (spec/30_encoding.md R90, R94), which have no
operand field (R91), and the five tokens of the stream (R80 to R87), whose operands are their bits. -/
inductive Instr where
  /-- `CLR`, code 0000 (R210). -/
  | clr
  /-- `COUNT`, code 0001 (R110). -/
  | count
  /-- `BUILD`, code 0010 (R120). -/
  | build
  /-- `GENCODE`, code 0011 (R140). -/
  | gencode
  /-- `WRMAGIC`, code 0100 (R170). -/
  | wrmagic
  /-- `HDRWR`, code 0101 (R150). -/
  | hdrwr
  /-- `ENCPAY`, code 0110 (R172). -/
  | encpay
  /-- `RDMAGIC`, code 0111 (R190). -/
  | rdmagic
  /-- `HDRRD`, code 1000 (R155). -/
  | hdrrd
  /-- `DECPAY`, code 1001 (R194). -/
  | decpay
  /-- `ENCODE`, code 1010 (R175). -/
  | encode
  /-- `COMPRESS`, code 1011 (R213). -/
  | compress
  /-- `DECOMPRESS`, code 1100 (R215). -/
  | decompress
  /-- `REWIND`, code 1101 (R211). -/
  | rewind
  /-- The reserved code 1110 (R94). -/
  | reserved1110
  /-- The reserved code 1111 (R94). -/
  | reserved1111
  /-- The token `STREAM_MAGIC`: the 32 bits where the magic stands (R81, R95). -/
  | streamMagic (m : BitVec 32)
  /-- The token `HDR_INTERNAL`: one bit `0` (R84). -/
  | hdrInternal
  /-- The token `HDR_LEAF`: one bit `1` and a 9-bit symbol (R83, R93). -/
  | hdrLeaf (sym : Symbol)
  /-- The token `PAYLOAD_CODE`: the code of one input byte (R86). -/
  | payloadCode (code : BitSeq)
  /-- The token `TERMINATOR_CODE`: the code of symbol 256 (R87). -/
  | terminatorCode (code : BitSeq)
  deriving DecidableEq, Repr

end Sys2Proof
end

