-- ==== Sys2Proof/Machine/Flags.lean ====
section
/-!
DEFINITION. The status bits of the block, and which of them each command needs (spec/10_state.md R22, R25, R29, R32,
R33; spec/46_sequencing_ops.md R212; spec/60_exceptions.md R231).
-/

namespace Sys2Proof.Machine

/-- `BUSY` (R33). -/
def State.busy (s : State) : Bool := s.job.isSome

/-- `TREE_VALID` (R25). -/
def State.treeValid (s : State) : Bool := s.tree.isSome

/-- The number `ERR` holds: 0 None, 1 InvalidFormat, 2 TruncatedInput (R32). -/
def State.errCode (s : State) : BitVec 2 :=
  match s.err with
  | none => 0#2
  | some .invalidFormat => 1#2
  | some .truncatedInput => 2#2

/-- Whether the command is accepted whatever `ERR` holds (R227). -/
def acceptsError : Instr → Bool
  | .clr | .rewind | .compress | .decompress => true
  | .count | .build | .gencode | .wrmagic | .hdrwr | .encpay | .rdmagic | .hdrrd | .decpay | .encode => false
  | .reserved1110 | .reserved1111 => false
  | .streamMagic _ | .hdrInternal | .hdrLeaf _ | .payloadCode _ | .terminatorCode _ => false

/-- The column 'needs' of R212: whether the validity bits the command needs are 1. -/
def State.hasNeeds (s : State) : Instr → Bool
  | .build => s.cntValid
  | .gencode | .hdrwr | .decpay => s.treeValid
  | .encpay | .encode => s.treeValid && s.codeValid
  | .clr | .rewind | .count | .wrmagic | .rdmagic | .hdrrd | .compress | .decompress => true
  | .reserved1110 | .reserved1111 => true
  | .streamMagic _ | .hdrInternal | .hdrLeaf _ | .payloadCode _ | .terminatorCode _ => true

/-- The command's preconditions on `ERR` and on the validity bits (R212, R231). -/
def State.ready (s : State) (i : Instr) : Bool :=
  (acceptsError i || s.err.isNone) && s.hasNeeds i

/-- A command is tested before it reads or writes anything: refused while `BUSY = 1` (R233), refused when its
preconditions do not hold (R231), else performed. -/
def guarded (i : Instr) (s : State) (perform : Result) : Result :=
  if s.busy then .refused .badCommand
  else if s.ready i then perform
  else .refused .needsState

end Sys2Proof.Machine
end

