-- ==== Sys2Proof/WellFormed.lean ====
section
/-!
DEFINITION. Which instructions are well formed: the ranges spec/30_encoding.md and spec/opcode_table.json give the
operands of the stream tokens. A command has no operand, so every command is well formed.
-/

namespace Sys2Proof

/-- A leaf token carries 0..256 (R83, R93); the code of a byte has 1..256 bits, the terminator's 0..256 (R10, R86, R87).
The magic field may hold any 32 bits: a value other than `MAGIC_TREE` is read and fails (R95). -/
def Instr.wf : Instr → Bool
  | .hdrLeaf sym => sym.toNat ≤ 256
  | .payloadCode code => 1 ≤ code.length && code.length ≤ 256
  | .terminatorCode code => code.length ≤ 256
  | .streamMagic _ | .hdrInternal => true
  | .clr | .count | .build | .gencode | .wrmagic | .hdrwr | .encpay | .rdmagic | .hdrrd | .decpay | .encode
  | .compress | .decompress | .rewind | .reserved1110 | .reserved1111 => true

end Sys2Proof
end

