-- ==== Sys2Proof/Decode.lean ====
section
/-!
DEFINITION. The decoder and the encoder, with the bit-order helpers they use (spec/00_scope.md R11,
spec/20_memory.md R57, R58, spec/30_encoding.md R80 to R94).
-/

namespace Sys2Proof

open Sys2Proof.Machine (Tree)

/-- `be_n(v)`: the low `n` bits of `v`, most significant first (R11, R55). -/
def be : Nat → Nat → BitSeq
  | 0, _ => []
  | n + 1, v => v.testBit n :: be n v

/-- `val(x)`: the number a bit sequence writes, first bit most significant (R11). -/
def val : BitSeq → Nat
  | [] => 0
  | b :: x => b.toNat * 2 ^ x.length + val x

/-- Where a word stands, which decides how its bits are read: on the command port, or in one of the stream's fields
(R80, R89). The payload's codes are defined by the header's tree. -/
inductive Format where
  | command
  | magic
  | header
  | payload (t : Tree)
  deriving DecidableEq, Repr

/-- Why bits are not read as an instruction: in each case the bits run out. Safe: nothing is decoded. -/
inductive DecodeError where
  /-- Fewer than 4 bits of a command code (R90). -/
  | shortCommand
  /-- Fewer than 32 bits where the magic stands (R191). -/
  | shortMagic
  /-- No bit where a header flag is expected (R157). -/
  | noFlag
  /-- A leaf flag and then fewer than 9 bits of symbol (R157). -/
  | cutSymbol
  /-- The bits end inside a code, or where one is expected (R197). -/
  | cutCode
  deriving DecidableEq, Repr

/-- The command table (R90, R94). -/
def decodeCommand (op : OpCode) : Instr :=
  match op.toNat with
  | 0 => .clr
  | 1 => .count
  | 2 => .build
  | 3 => .gencode
  | 4 => .wrmagic
  | 5 => .hdrwr
  | 6 => .encpay
  | 7 => .rdmagic
  | 8 => .hdrrd
  | 9 => .decpay
  | 10 => .encode
  | 11 => .compress
  | 12 => .decompress
  | 13 => .rewind
  | 14 => .reserved1110
  | _ => .reserved1111

/-- Walks `bits` from the node reached by `path`: the token ends at the first leaf, and is the terminator's code or a
byte's by that leaf's symbol (R89, R193). -/
def decodeCode : Tree → Path → BitSeq → Except DecodeError (Instr × BitSeq)
  | .leaf s _, path, bits => .ok (if s = TERM then .terminatorCode path else .payloadCode path, bits)
  | .internal _ _ _, _, [] => .error .cutCode
  | .internal _ l _, path, false :: bits => decodeCode l (path ++ [false]) bits
  | .internal _ _ r, path, true :: bits => decodeCode r (path ++ [true]) bits

/-- One payload token. A singleton tree's only code is the terminator's, of zero bits (R174, R195). -/
def decodePayload (t : Tree) (bits : BitSeq) : Except DecodeError (Instr × BitSeq) :=
  match t with
  | .leaf _ _ => .ok (.terminatorCode [], bits)
  | .internal w l r => decodeCode (.internal w l r) [] bits

/-- The decoder: the instruction that stands first in `bits`, and the bits after it. -/
def decode : Format → BitSeq → Except DecodeError (Instr × BitSeq)
  | .command, bits =>
    if 4 ≤ bits.length then .ok (decodeCommand (BitVec.ofNat 4 (val (bits.take 4))), bits.drop 4)
    else .error .shortCommand
  | .magic, bits =>
    if 32 ≤ bits.length then .ok (.streamMagic (BitVec.ofNat 32 (val (bits.take 32))), bits.drop 32)
    else .error .shortMagic
  | .header, [] => .error .noFlag
  | .header, false :: bits => .ok (.hdrInternal, bits)
  | .header, true :: bits =>
    if 9 ≤ bits.length then .ok (.hdrLeaf (BitVec.ofNat 9 (val (bits.take 9))), bits.drop 9)
    else .error .cutSymbol
  | .payload t, bits => decodePayload t bits

/-- The 4-bit code of a command (R90, R94); a stream token has none. -/
def opcodeOf : Instr → Option OpCode
  | .clr => some 0b0000#4
  | .count => some 0b0001#4
  | .build => some 0b0010#4
  | .gencode => some 0b0011#4
  | .wrmagic => some 0b0100#4
  | .hdrwr => some 0b0101#4
  | .encpay => some 0b0110#4
  | .rdmagic => some 0b0111#4
  | .hdrrd => some 0b1000#4
  | .decpay => some 0b1001#4
  | .encode => some 0b1010#4
  | .compress => some 0b1011#4
  | .decompress => some 0b1100#4
  | .rewind => some 0b1101#4
  | .reserved1110 => some 0b1110#4
  | .reserved1111 => some 0b1111#4
  | .streamMagic _ | .hdrInternal | .hdrLeaf _ | .payloadCode _ | .terminatorCode _ => none

/-- The encoder: the bits of an instruction, first bit first (R81, R83, R84, R86, R87, R90). -/
def encode : Instr → BitSeq
  | .streamMagic m => be 32 m.toNat
  | .hdrInternal => [false]
  | .hdrLeaf s => true :: be 9 s.toNat
  | .payloadCode code => code
  | .terminatorCode code => code
  | .clr => be 4 0b0000
  | .count => be 4 0b0001
  | .build => be 4 0b0010
  | .gencode => be 4 0b0011
  | .wrmagic => be 4 0b0100
  | .hdrwr => be 4 0b0101
  | .encpay => be 4 0b0110
  | .rdmagic => be 4 0b0111
  | .hdrrd => be 4 0b1000
  | .decpay => be 4 0b1001
  | .encode => be 4 0b1010
  | .compress => be 4 0b1011
  | .decompress => be 4 0b1100
  | .rewind => be 4 0b1101
  | .reserved1110 => be 4 0b1110
  | .reserved1111 => be 4 0b1111

/-- `H(t)`: the header of a tree, its tokens in pre-order (R82). -/
def headerBits : Tree → BitSeq
  | .leaf s _ => encode (.hdrLeaf s)
  | .internal _ l r => encode .hdrInternal ++ headerBits l ++ headerBits r

/-- How many bits a table row of `nbits` bits has, and where they stand. `nbits` may be the row's own width or that
width in whole bytes. A row of 8 bits is a command: the one-bit token `HDR_INTERNAL` is told apart only by its own
width 1 (log 8). -/
def tableLayout (nbits : Nat) : Option (Format × Nat) :=
  if nbits = 1 then some (.header, 1)
  else if nbits = 4 ∨ nbits = 8 then some (.command, 4)
  else if nbits = 10 ∨ nbits = 16 then some (.header, 10)
  else if nbits = 32 then some (.magic, 32)
  else none

/-- The instruction the decoder reads from the table's numeral `w`, whose bit 0 is the last bit of the word. -/
def decodeTableWord (nbits w : Nat) : Option Instr :=
  match tableLayout nbits with
  | none => none
  | some (f, n) =>
    if w < 2 ^ n then
      match decode f (be n w) with
      | .ok (i, []) => some i
      | _ => none
    else none

end Sys2Proof
end

