-- ==== Sys2Proof/Machine/Ops.lean ====
section
/-!
DEFINITION. The named operations over the streams and the block's state: the stream primitives (spec/20_memory.md R52
to R56), raising an error and clearing the block (spec/60_exceptions.md R224, R225, spec/46_sequencing_ops.md R210),
sequencing (spec/30_encoding.md R98), and the collaborator's byte packing and flush (R59, R61).
-/

namespace Sys2Proof.Machine

/-- The bits of `SRC` not yet read. -/
def Src.rest (r : Src) : BitSeq := r.bits.drop r.pos

/-- `SRC.readBits(n)`: a value and the moved position, or `END` (`none`) with the position unchanged (R52, R53). -/
def Src.readBits (n : Nat) (r : Src) : Option Nat × Src :=
  if n ≤ r.bits.length - r.pos then (some (val (r.rest.take n)), { r with pos := r.pos + n })
  else (none, r)

/-- `SRC.rewind()` (R54). -/
def Src.rewind (r : Src) : Src := { r with pos := 0 }

/-- The position moved past `n` bits already examined. -/
def Src.skip (n : Nat) (r : Src) : Src := { r with pos := r.pos + n }

/-- How many whole bytes can still be read (R110, R111). -/
def Src.bytesLeft (r : Src) : Nat := (r.bits.length - r.pos) / 8

/-- The source set to `r`. -/
def State.setSrc (r : Src) (s : State) : State := { s with src := r }

/-- `CUR` set to `p` (R31). -/
def State.setCur (p : Path) (s : State) : State := { s with cur := p }

/-- `SNK.writeSeq(x)` (R56). -/
def State.writeSeq (x : BitSeq) (s : State) : State := { s with snk := s.snk ++ x }

/-- `SNK.writeBits(n, v)` (R55). -/
def State.writeBits (n v : Nat) (s : State) : State := s.writeSeq (be n v)

/-- The operation in progress set to `j`; `none` is completion, `BUSY <- 0` (R92). -/
def State.setJob (j : Option Job) (s : State) : State := { s with job := j }

/-- `raise K`: taking an error. The operation stops, `ERR` holds the kind, every validity bit is 0, `TREE` and `CODE`
are cleared, `CUR = ε`, `BUSY <- 0`; both streams stay as the reads and writes before it left them (R23, R28, R31,
R224, R225). -/
def State.raise (k : ErrorKind) (s : State) : State :=
  { s with
    cntValid := false, tree := none, code := CodeTable.absent, codeValid := false, cur := [], err := some k,
    job := none }

/-- The block's state at its reset values, the streams and the command port untouched: what `CLR` does, the only way
but reset to leave a failed state, and what 'discard' does (R37, R210, R227, R252). -/
def State.clearBlock (s : State) : State :=
  { s with
    cnt := CountTable.zero, cntValid := false, tree := none, code := CodeTable.absent, codeValid := false,
    cur := [], err := none, job := none }

/-- The reset signal, also while an operation is in progress: the block's state at its reset values, the streams not
reset (R250, R251, R252). No step performs it. -/
def State.resetBlock (s : State) : State := s.clearBlock

/-- The next operation of a sequence: performed unless the one before it failed or was refused (R98, R224). -/
def thenDo (o : Result) (f : State → Result) : Result :=
  match o with
  | .next s => if s.err.isSome then .next s else f s
  | .fault r => .fault r
  | .refused r => .refused r

/-- The bits of a byte sequence on a stream (R50). -/
def bytesToBits (l : List Byte) : BitSeq := l.flatMap fun b => be 8 b.toNat

/-- The collaborator's flush: the final byte padded with zero bits (R61). -/
def flush (x : BitSeq) : BitSeq := x ++ List.replicate ((8 - x.length % 8) % 8) false

/-- The bytes of the medium: stream bit `i` is bit `7 − (i mod 8)` of byte `⌊i/8⌋` (R59). Of a stream that is no whole
number of bytes, that is one not flushed, the last 1 to 7 bits are not on the medium: R256 says only that they may not
have reached it. Log 24: DESIGN CHOICE, unsafe. -/
def packBytes : BitSeq → List Byte
  | a :: b :: c :: d :: e :: f :: g :: h :: x => BitVec.ofNat 8 (val [a, b, c, d, e, f, g, h]) :: packBytes x
  | _ => []

end Sys2Proof.Machine
end

