-- ==== Sys2Proof/Machine/Operands.lean ====
section
/-!
DEFINITION. The operands of the commands, which are the block's indexed state (spec/30_encoding.md R90, R91): `CNT[v]`
and `CODE[s]` (spec/00_scope.md R13, spec/10_state.md R21, R28).
-/

namespace Sys2Proof.Machine

/-- `CNT[v]`. -/
def CountTable.get (cnt : CountTable) (v : Byte) : Nat := cnt[v.toNat]'v.isLt

/-- `CNT[v] <- CNT[v] + 1` (R110). -/
def CountTable.bump (c : CountTable) (v : Byte) : CountTable := c.set v.toNat (c.get v + 1) v.isLt

/-- `CODE[s].bits` if `CODE[s].present = 1`. No entry exists above 256. -/
def CodeTable.get (code : CodeTable) (s : Symbol) : Option BitSeq := (code[s.toNat]?).join

/-- `CODE[s] <- (present = 1, len = |p|, bits = p)` (R140). No entry exists above 256, and none is written (log 13). -/
def CodeTable.record (c : CodeTable) (s : Symbol) (p : Path) : CodeTable := c.setIfInBounds s.toNat (some p)

/-- A byte value as a symbol, zero-extended (R12, R91). -/
def byteSymbol (v : Byte) : Symbol := v.zeroExtend 9

/-- The value `readBits(8)` returns, as a byte (R52). -/
def readByte (r : Src) : Option Byte × Src :=
  let (v, r') := r.readBits 8
  (v.map (BitVec.ofNat 8), r')

end Sys2Proof.Machine
end

