-- ==== Sys2Proof/Machine/Builder.lean ====
section
/-!
DEFINITION. The tree builder: `BUILD` (spec/41_tree_builder.md R120 to R125).
-/

namespace Sys2Proof.Machine

/-- An entry of `PQ`: its key `(weight, seq)` and its node (R122). -/
structure PQEntry where
  weight : Nat
  seq : Nat
  tree : Tree
  deriving DecidableEq, Repr

/-- The priority structure and the counter `SEQ` (R122). -/
structure PQ where
  entries : List PQEntry
  seq : Nat
  deriving DecidableEq, Repr

/-- Lexicographic order of keys: smaller weight first, then the entry inserted earlier (R122). -/
def PQEntry.before (a b : PQEntry) : Bool :=
  a.weight < b.weight || (a.weight == b.weight && a.seq < b.seq)

/-- `insert(PQ, key=(weight, SEQ), node) ; SEQ <- SEQ + 1` (R120). -/
def PQ.insert (t : Tree) (q : PQ) : PQ :=
  { entries := q.entries ++ [{ weight := t.weight, seq := q.seq, tree := t }], seq := q.seq + 1 }

/-- `remove_min(PQ)`: the entry with the smallest key, and what is left (R122). -/
def removeMin : List PQEntry → Option (PQEntry × List PQEntry)
  | [] => none
  | e :: es =>
    match removeMin es with
    | none => some (e, [])
    | some (m, rest) => if e.before m then some (e, es) else some (m, e :: rest)

/-- The leaf of byte value `v`, if its count is not 0 (R121). -/
def PQ.insertCount (c : CountTable) (q : PQ) (v : Byte) : PQ :=
  if c.get v ≠ 0 then q.insert (.leaf (byteSymbol v) (c.get v)) else q

/-- The 256 byte values in ascending order. -/
def byteValues : List Byte := (List.range 256).map (BitVec.ofNat 8)

/-- `PQ` before the first merge: the leaves in ascending byte value, then the terminator (R121). -/
def initialQueue (c : CountTable) : PQ :=
  (byteValues.foldl (PQ.insertCount c) { entries := [], seq := 0 }).insert (.leaf TERM 1)

/-- The merges: the first entry removed is the left child, the second the right, until one entry remains, which is the
root (R123, R124, R125). `fuel` bounds the merges (R265). -/
def mergeLoop : Nat → PQ → Option Tree
  | 0, _ => none
  | fuel + 1, q =>
    match removeMin q.entries with
    | none => none
    | some (a, rest) =>
      match removeMin rest with
      | none => some a.tree
      | some (b, rest') =>
        mergeLoop fuel
          (PQ.insert (.internal (a.tree.weight + b.tree.weight) a.tree b.tree) { entries := rest', seq := q.seq })

/-- The tree of a count table: a function of `CNT` alone (R120, R129). -/
def buildTree (c : CountTable) : Option Tree :=
  let q := initialQueue c
  mergeLoop q.entries.length q

/-- `TREE`, `TREE_VALID <- 1`, `CODE_VALID <- 0` (R120). -/
def State.setBuilt (t : Option Tree) (s : State) : State := { s with tree := t, codeValid := false }

/-- `BUILD` (R120). -/
def execBuild (s : State) : Result := guarded .build s (.next (s.setBuilt (buildTree s.cnt)))

end Sys2Proof.Machine
end

