-- ==== Sys2Proof/Machine/CodeGen.lean ====
section
/-!
DEFINITION. The code-table generator: `GENCODE` (spec/42_code_table_generator.md R140 to R143).
-/

namespace Sys2Proof.Machine

/-- `walk(t, p)`: each leaf's symbol gets the path to it (R140, R141). -/
def walk : Tree → Path → CodeTable → CodeTable
  | .leaf s _, p, c => c.record s p
  | .internal _ l r, p, c => walk r (p ++ [true]) (walk l (p ++ [false]) c)

/-- The code table of a tree: every entry absent but those of its leaves (R140, R143). -/
def codeTable (t : Tree) : CodeTable := walk t [] CodeTable.absent

/-- `CODE`, `CODE_VALID <- 1` (R140). -/
def State.setCodes (c : CodeTable) (s : State) : State := { s with code := c, codeValid := true }

/-- The effect of `GENCODE` once accepted. -/
def performGencode (s : State) : Result :=
  match s.tree with
  | some t => .next (s.setCodes (codeTable t))
  | none => .refused .needsState

/-- `GENCODE` (R140). -/
def execGencode (s : State) : Result := guarded .gencode s (performGencode s)

end Sys2Proof.Machine
end

