-- ==== Sys2Proof/Machine/Counter.lean ====
section
/-!
DEFINITION. The frequency counter: `COUNT` (spec/40_frequency_counter.md R110, R111).
-/

namespace Sys2Proof.Machine

/-- The loop of `COUNT`: read 8 bits, count the value, until `END` (R110). `fuel` bounds the reads (R265). -/
def countLoop : Nat → CountTable → Src → CountTable × Src
  | 0, c, r => (c, r)
  | fuel + 1, c, r =>
    match readByte r with
    | (none, r') => (c, r')
    | (some v, r') => countLoop fuel (c.bump v) r'

/-- `CNT`, `CNT_VALID <- 1`, `TREE_VALID <- 0`, `CODE_VALID <- 0` (R110). -/
def State.setCounts (c : CountTable) (s : State) : State :=
  { s with cnt := c, cntValid := true, tree := none, codeValid := false }

/-- Whether an input of `n` bytes is within `2^W − 2` (R111); the empty input is, whatever `W` is. -/
def withinWidth : Nat → Bool
  | 0 => true
  | n + 1 => n + 1 ≤ Config.maxInput

/-- The effect of `COUNT` once accepted; an input longer than `2^W − 2` bytes is refused (R111, R232). -/
def performCount (s : State) : Result :=
  if withinWidth s.src.bytesLeft then
    let (c, r) := countLoop (s.src.bytesLeft + 1) CountTable.zero s.src
    .next ((s.setSrc r).setCounts c)
  else .refused .widthOverflow

/-- `COUNT` (R110). -/
def execCount (s : State) : Result := guarded .count s (performCount s)

end Sys2Proof.Machine
end

