-- ==== Sys2Proof/Machine/Decoder.lean ====
section
/-!
DEFINITION. The bitstream decoder: `RDMAGIC`, the step `DECSTEP` and `DECPAY` (spec/45_bitstream_decoder.md R190 to
R199).
-/

namespace Sys2Proof.Machine

/-- Whether the 32 bits read are the magic; every other value is malformed (R95, R190). -/
def checkMagic (m : BitVec 32) (s : State) : Result :=
  .next (if m = Config.magicTree then s else s.raise .invalidFormat)

/-- The effect of `RDMAGIC` once accepted (R190, R191). -/
def performRdmagic (s : State) : Result :=
  match s.src.readBits 32 with
  | (none, r) => .next ((s.setSrc r).raise .invalidFormat)
  | (some v, r) => checkMagic (BitVec.ofNat 32 v) (s.setSrc r)

/-- `RDMAGIC` (R190). -/
def execRdmagic (s : State) : Result := guarded .rdmagic s (performRdmagic s)

/-- What a step of the decoder gives (R193), and `lost` where its precondition does not hold. -/
inductive DecResult where
  | goOn (s : State)
  | done (s : State)
  | fail (s : State)
  | lost
  deriving DecidableEq, Repr

/-- The arrival at a node: the terminator ends the walk, another leaf's byte is written, an internal node is walked on
from (R193, R198). -/
def arrive (b : Bool) (n : Tree) (s : State) : DecResult :=
  match n with
  | .leaf sym _ =>
    if sym = TERM then .done (s.setCur []) else .goOn ((s.writeBits 8 sym.toNat).setCur [])
  | .internal _ _ _ => .goOn (s.setCur (s.cur ++ [b]))

/-- The move of the decoder on one bit already read (R193). -/
def decBit (b : Bool) (s : State) : DecResult :=
  match s.tree.bind (fun t => t.nodeAt s.cur) with
  | some (.internal _ l r) => arrive b (Tree.child b l r) s
  | _ => .lost

/-- `DECSTEP` (R193). -/
def decStep (s : State) : DecResult :=
  match s.src.readBits 1 with
  | (none, r) => .fail ((s.setSrc r).raise .truncatedInput)
  | (some v, r) => decBit (v != 0) (s.setSrc r)

/-- The loop of `DECPAY` (R194). `fuel` bounds the steps (R265). -/
def decLoop : Nat → State → Result
  | 0, s => .next s
  | fuel + 1, s =>
    match decStep s with
    | .goOn s' => decLoop fuel s'
    | .done s' => .next s'
    | .fail s' => .next s'
    | .lost => .fault .decoderLost

/-- The effect of `DECPAY` once accepted; a singleton tree completes at once (R194, R195). -/
def performDecpay (s : State) : Result :=
  match s.tree with
  | some (.leaf _ _) => .next s
  | some (.internal _ _ _) => decLoop (s.src.rest.length + 1) (s.setCur [])
  | none => .refused .needsState

/-- `DECPAY` (R194). -/
def execDecpay (s : State) : Result := guarded .decpay s (performDecpay s)

end Sys2Proof.Machine
end

