-- ==== Sys2Proof/Machine/Header.lean ====
section
/-!
DEFINITION. The header codec: `HDRWR` and `HDRRD` (spec/43_header_codec.md R150 to R157), and the two header tokens
`HDR_INTERNAL` and `HDR_LEAF` as the single steps of the reader and of the writer (spec/30_encoding.md R83, R84).
-/

namespace Sys2Proof.Machine

/-- `wr(t)`: a node's own token, then its left subtree, then its right (R150, R151). -/
def wr : Tree → State → State
  | .leaf s _, st => (st.writeBits 1 1).writeBits 9 s.toNat
  | .internal _ l r, st => wr r (wr l (st.writeBits 1 0))

/-- The effect of `HDRWR` once accepted. -/
def performHdrwr (s : State) : Result :=
  match s.tree with
  | some t => .next (wr t s)
  | none => .refused .needsState

/-- `HDRWR` (R150). -/
def execHdrwr (s : State) : Result := guarded .hdrwr s (performHdrwr s)

/-- The most internal nodes a header may have (R155, R156). -/
def maxInternals : Nat := 256

/-- The deepest recursion of `rd` (R160). -/
def maxRecursion : Nat := 257

/-- What `rd` carries along: the source, `SEEN` and `NINT` (R155). -/
structure HdrContext where
  src : Src
  seen : List Symbol
  nint : Nat
  deriving DecidableEq, Repr

/-- The checks on the symbol of a leaf token: not reserved, not a duplicate (R156). -/
def leafAccepted (sym : Symbol) (seen : List Symbol) : Bool := sym.toNat ≤ 256 && !seen.contains sym

/-- `rd()`: one subtree, or the source as the failing check left it; every failure is `InvalidFormat` (R155, R156,
R157). `fuel` bounds the recursion (R160). -/
def rd : Nat → HdrContext → Except Src (Tree × HdrContext)
  | 0, c => .error c.src
  | fuel + 1, c =>
    match c.src.readBits 1 with
    | (none, r) => .error r
    | (some 0, r) =>
      if c.nint = maxInternals then .error r
      else
        match rd fuel { c with src := r, nint := c.nint + 1 } with
        | .error e => .error e
        | .ok (left, c') =>
          match rd fuel c' with
          | .error e => .error e
          | .ok (right, c'') => .ok (.internal 0 left right, c'')
    | (some _, r) =>
      match r.readBits 9 with
      | (none, r') => .error r'
      | (some v, r') =>
        let sym : Symbol := BitVec.ofNat 9 v
        if leafAccepted sym c.seen then .ok (.leaf sym 0, { c with src := r', seen := sym :: c.seen })
        else .error r'

/-- `TREE`, `TREE_VALID <- 1`, `CUR <- ε`, with `CODE_VALID` cleared on entry (R155). -/
def State.setRead (t : Tree) (s : State) : State := { s with tree := some t, codeValid := false, cur := [] }

/-- The end of `HDRRD`: a complete tree is kept if one of its leaves carries 256 (R155, R156). -/
def finishHeader (t : Tree) (seen : List Symbol) (s : State) : Result :=
  if seen.contains TERM then .next (s.setRead t) else .next (s.raise .invalidFormat)

/-- The effect of `HDRRD` once accepted (R155). -/
def performHdrrd (s : State) : Result :=
  match rd maxRecursion { src := s.src, seen := [], nint := 0 } with
  | .error r => .next ((s.setSrc r).raise .invalidFormat)
  | .ok (t, c) => finishHeader t c.seen (s.setSrc c.src)

/-- `HDRRD` (R155). -/
def execHdrrd (s : State) : Result := guarded .hdrrd s (performHdrrd s)

/-- A complete subtree joins the internal node that waits for it: as its left child, whose right is read next, or as
its right child, which completes that node too. The frames left, or the complete tree if no node waits (R155, R160). -/
def plug : Tree → List (Option Tree) → List (Option Tree) ⊕ Tree
  | t, [] => .inr t
  | t, none :: frames => .inl (some t :: frames)
  | t, some left :: frames => plug (.internal 0 left t) frames

/-- The reader takes an internal-node token: the 257th is malformed (R84, R155, R156). -/
def readInternal (r : HdrReader) (s : State) : Result :=
  if r.nint = maxInternals then .next (s.raise .invalidFormat)
  else .next (s.setJob (some (.hdrRd { r with frames := none :: r.frames, nint := r.nint + 1 })))

/-- The reader takes a leaf token (R83, R155, R156). -/
def readLeaf (sym : Symbol) (r : HdrReader) (s : State) : Result :=
  if leafAccepted sym r.seen then
    match plug (.leaf sym 0) r.frames with
    | .inl frames => .next (s.setJob (some (.hdrRd { r with frames := frames, seen := sym :: r.seen })))
    | .inr t => finishHeader t (sym :: r.seen) (s.setJob none)
  else .next (s.raise .invalidFormat)

/-- The writer's traversal after a token: complete when no subtree is left (R150, R92). -/
def writeNext (todo : List Tree) : Option Job :=
  match todo with
  | [] => none
  | _ :: _ => some (.hdrWr todo)

/-- The token `HDR_INTERNAL`: read by `HDRRD` in progress, or written by `HDRWR` in progress when an internal node is
the next in pre-order (R84, R151, R155). -/
def execHdrInternal (s : State) : Result :=
  match s.job with
  | some (.hdrRd r) => readInternal r s
  | some (.hdrWr (.internal _ left right :: todo)) =>
    .next ((s.writeSeq (encode .hdrInternal)).setJob (writeNext (left :: right :: todo)))
  | _ => .refused .strayToken

/-- The token `HDR_LEAF`: read by `HDRRD` in progress, or written by `HDRWR` in progress when the leaf with this
symbol is the next in pre-order (R83, R151, R155). -/
def execHdrLeaf (sym : Symbol) (s : State) : Result :=
  match s.job with
  | some (.hdrRd r) => readLeaf sym r s
  | some (.hdrWr (.leaf sym' _ :: todo)) =>
    if sym = sym' then .next ((s.writeSeq (encode (.hdrLeaf sym))).setJob (writeNext todo))
    else .refused .strayToken
  | _ => .refused .strayToken

end Sys2Proof.Machine
end

