-- ==== Sys2Proof/Machine/Encoder.lean ====
section
/-!
DEFINITION. The bitstream encoder: `WRMAGIC`, `ENCPAY` and `ENCODE` (spec/44_bitstream_encoder.md R170 to R176).
-/

namespace Sys2Proof.Machine

/-- The effect of `WRMAGIC` once accepted. -/
def performWrmagic (s : State) : Result := .next (s.writeBits 32 Config.magicTree.toNat)

/-- `WRMAGIC` (R170). -/
def execWrmagic (s : State) : Result := guarded .wrmagic s (performWrmagic s)

/-- The code that is written for `sym`; an absent entry must never be emitted (R143, R173). -/
def emitCode (sym : Symbol) (s : State) : Result :=
  match s.code.get sym with
  | some code => .next (s.writeSeq code)
  | none => .refused .noCode

/-- The loop of `ENCPAY`: the code of each byte read, at `END` the terminator's code (R172). `fuel` bounds the reads
(R265). -/
def encLoop : Nat → State → Result
  | 0, s => .next s
  | fuel + 1, s =>
    match readByte s.src with
    | (none, r) => emitCode TERM (s.setSrc r)
    | (some v, r) => thenDo (emitCode (byteSymbol v) (s.setSrc r)) (encLoop fuel)

/-- `ENCPAY` with a singleton tree: nothing is written, and a byte found in the source is refused (R174). -/
def encSingleton (s : State) : Result :=
  match readByte s.src with
  | (none, r) => .next (s.setSrc r)
  | (some _, _) => .refused .noCode

/-- The effect of `ENCPAY` once accepted (R172). -/
def performEncpay (s : State) : Result :=
  match s.tree with
  | some (.leaf _ _) => encSingleton s
  | some (.internal _ _ _) => encLoop (s.src.bytesLeft + 1) s
  | none => .refused .needsState

/-- `ENCPAY` (R172). -/
def execEncpay (s : State) : Result := guarded .encpay s (performEncpay s)

/-- The effect of `ENCODE` once accepted: magic, header, payload and terminator (R175). -/
def performEncode (s : State) : Result := thenDo (thenDo (execWrmagic s) execHdrwr) execEncpay

/-- `ENCODE` (R175). -/
def execEncode (s : State) : Result := guarded .encode s (performEncode s)

end Sys2Proof.Machine
end

