-- ==== Sys2Proof/Machine/Sequencing.lean ====
section
/-!
DEFINITION. The sequencing operations `CLR`, `REWIND`, `COMPRESS` and `DECOMPRESS` (spec/46_sequencing_ops.md R210 to
R215), and the reserved command codes (spec/30_encoding.md R94).
-/

namespace Sys2Proof.Machine

/-- `CLR` (R210). -/
def execClr (s : State) : Result := guarded .clr s (.next s.clearBlock)

/-- `REWIND` (R211). -/
def execRewind (s : State) : Result := guarded .rewind s (.next (s.setSrc s.src.rewind))

/-- 'discard' at the end of a composite: every element of the block's state at its reset value (R36, R213, R215). -/
def discardCall (s : State) : Result := .next s.clearBlock

/-- The first pass of `COMPRESS` and what is built from it (R213). -/
def performFirstPass (s : State) : Result :=
  thenDo (thenDo (thenDo (thenDo (execClr s) execCount) execRewind) execBuild) execGencode

/-- The effect of `COMPRESS` once accepted (R213). -/
def performCompress (s : State) : Result := thenDo (thenDo (performFirstPass s) execEncode) discardCall

/-- `COMPRESS` (R213). -/
def execCompress (s : State) : Result := guarded .compress s (performCompress s)

/-- The effect of `DECOMPRESS` once accepted: discarding on success only (R215). -/
def performDecompress (s : State) : Result :=
  thenDo (thenDo (thenDo (thenDo (execClr s) execRdmagic) execHdrrd) execDecpay) discardCall

/-- `DECOMPRESS` (R215). -/
def execDecompress (s : State) : Result := guarded .decompress s (performDecompress s)

/-- The reserved code 1110: refused, no state changes, no `ERR` (R94, R233). -/
def execReserved1110 (_s : State) : Result := .refused .badCommand

/-- The reserved code 1111: refused, no state changes, no `ERR` (R94, R233). -/
def execReserved1111 (_s : State) : Result := .refused .badCommand

end Sys2Proof.Machine
end

