-- ==== Sys2Proof/Machine/Tokens.lean ====
section
/-!
DEFINITION. The stream tokens `STREAM_MAGIC`, `PAYLOAD_CODE` and `TERMINATOR_CODE` as the single steps of the
operation in progress that reads or writes them (spec/30_encoding.md R81, R86, R87). The header tokens are in
Header.lean. A token that no operation in progress reads or is due to write has no meaning (log 6).
-/

namespace Sys2Proof.Machine

/-- The token `STREAM_MAGIC`: read by `RDMAGIC` in progress, where any value but the magic is malformed, or written by
`WRMAGIC` in progress, which writes the magic only (R81, R95, R171, R190). -/
def execStreamMagic (m : BitVec 32) (s : State) : Result :=
  match s.job with
  | some .rdMagic => checkMagic m (s.setJob none)
  | some .wrMagic =>
    if m = Config.magicTree then .next ((s.writeSeq (encode (.streamMagic m))).setJob none)
    else .refused .strayToken
  | _ => .refused .strayToken

/-- The decoder takes the bits of a code one by one (R193). -/
def decWalk : BitSeq → State → DecResult
  | [], s => .goOn s
  | b :: bits, s =>
    match decBit b s with
    | .goOn s' => decWalk bits s'
    | r => r

/-- `DECPAY` in progress takes the bits of a code: it goes on, or is complete at the terminator (R194). With a
singleton tree the only code is the terminator's, of zero bits (R195). -/
def readCode (code : BitSeq) (s : State) : Result :=
  match s.tree with
  | some (.leaf _ _) => if code = [] then .next (s.setJob none) else .refused .strayToken
  | _ =>
    match decWalk code s with
    | .goOn s' => .next s'
    | .done s' => .next (s'.setJob none)
    | .fail s' => .next s'
    | .lost => .fault .decoderLost

/-- The token `PAYLOAD_CODE`: read by `DECPAY` in progress, or written by `ENCPAY` in progress when it is the code of
the next byte of the source (R86, R172, R193). -/
def execPayloadCode (code : BitSeq) (s : State) : Result :=
  match s.job with
  | some .decPay => readCode code s
  | some .encPay =>
    match s.tree, readByte s.src with
    | some (.internal _ _ _), (some v, r) =>
      if s.code.get (byteSymbol v) = some code then .next ((s.setSrc r).writeSeq code) else .refused .strayToken
    | _, _ => .refused .strayToken
  | _ => .refused .strayToken

/-- `ENCPAY` in progress is due to write the terminator: the source is at its end (R87, R172, R174). -/
def terminatorDue (code : BitSeq) (s : State) : Bool :=
  match s.tree, readByte s.src with
  | some (.leaf _ _), (none, _) => code == []
  | some (.internal _ _ _), (none, _) => s.code.get TERM == some code
  | _, _ => false

/-- The token `TERMINATOR_CODE`: read by `DECPAY` in progress, or written by `ENCPAY` in progress, which it completes
(R87, R172, R193). -/
def execTerminatorCode (code : BitSeq) (s : State) : Result :=
  match s.job with
  | some .decPay => readCode code s
  | some .encPay =>
    if terminatorDue code s then .next ((s.writeSeq code).setJob none) else .refused .strayToken
  | _ => .refused .strayToken

end Sys2Proof.Machine
end

