-- ==== Sys2Proof/Machine/Dispatch.lean ====
section
/-!
DEFINITION. The meaning of each instruction, one arm per constructor of Instr.
-/

namespace Sys2Proof.Machine

def exec (i : Instr) (s : State) : Host.Outcome State Fault Refusal :=
  match i with
  | .clr => Sys2Proof.Machine.execClr s
  | .count => Sys2Proof.Machine.execCount s
  | .build => Sys2Proof.Machine.execBuild s
  | .gencode => Sys2Proof.Machine.execGencode s
  | .wrmagic => Sys2Proof.Machine.execWrmagic s
  | .hdrwr => Sys2Proof.Machine.execHdrwr s
  | .encpay => Sys2Proof.Machine.execEncpay s
  | .rdmagic => Sys2Proof.Machine.execRdmagic s
  | .hdrrd => Sys2Proof.Machine.execHdrrd s
  | .decpay => Sys2Proof.Machine.execDecpay s
  | .encode => Sys2Proof.Machine.execEncode s
  | .compress => Sys2Proof.Machine.execCompress s
  | .decompress => Sys2Proof.Machine.execDecompress s
  | .rewind => Sys2Proof.Machine.execRewind s
  | .reserved1110 => Sys2Proof.Machine.execReserved1110 s
  | .reserved1111 => Sys2Proof.Machine.execReserved1111 s
  | .streamMagic m => Sys2Proof.Machine.execStreamMagic m s
  | .hdrInternal => Sys2Proof.Machine.execHdrInternal s
  | .hdrLeaf sym => Sys2Proof.Machine.execHdrLeaf sym s
  | .payloadCode code => Sys2Proof.Machine.execPayloadCode code s
  | .terminatorCode code => Sys2Proof.Machine.execTerminatorCode code s

end Sys2Proof.Machine
end

