-- ==== Sys2Proof/Machine/Fetch.lean ====
section
/-!
DEFINITION. What a step runs next: the command on the port while `BUSY = 0` (spec/30_encoding.md R92), and while
`BUSY = 1` the next token of the operation in progress, which a reader takes from `SRC` (R89) and a writer takes from
the block's state (spec/43_header_codec.md R151, spec/44_bitstream_encoder.md R172).
-/

namespace Sys2Proof.Machine

/-- The instruction fetched with the state it runs in, or what the step answers where there is none. -/
inductive Fetched where
  | run (i : Instr) (s : State)
  | stop (o : Result)

/-- The next token of a field of the stream: the source is moved past its bits. -/
def fetchToken (f : Format) (s : State) (onEnd : DecodeError → Result) : Fetched :=
  match decode f s.src.rest with
  | .ok (i, _) => .run i (s.setSrc (s.src.skip (encode i).length))
  | .error e => .stop (onEnd e)

/-- The source ends inside the magic or the header: the bits of the last complete read stay consumed (R157, R191,
R225). -/
def endInHeader (s : State) (e : DecodeError) : Result :=
  match e with
  | .cutSymbol => .next ((s.setSrc (s.src.skip 1)).raise .invalidFormat)
  | _ => .next (s.raise .invalidFormat)

/-- The source ends inside the payload: every bit was read (R193, R197). -/
def endInPayload (s : State) (_e : DecodeError) : Result :=
  .next ((s.setSrc (s.src.skip s.src.rest.length)).raise .truncatedInput)

/-- `HDRWR` in progress: the token of the next node in pre-order (R151). -/
def fetchHeaderNode (todo : List Tree) (s : State) : Fetched :=
  match todo with
  | [] => .stop (.next (s.setJob none))
  | .leaf sym _ :: _ => .run (.hdrLeaf sym) s
  | .internal _ _ _ :: _ => .run .hdrInternal s

/-- `ENCPAY` in progress: the code of the next byte of the source, at its end the terminator's (R172, R173, R174). -/
def fetchCode (s : State) : Fetched :=
  match s.tree, readByte s.src with
  | some (.leaf _ _), (none, _) => .run (.terminatorCode []) s
  | some (.leaf _ _), (some _, _) => .stop (.refused .noCode)
  | some (.internal _ _ _), (none, _) =>
    match s.code.get TERM with
    | some code => .run (.terminatorCode code) s
    | none => .stop (.refused .noCode)
  | some (.internal _ _ _), (some v, _) =>
    match s.code.get (byteSymbol v) with
    | some code => .run (.payloadCode code) s
    | none => .stop (.refused .noCode)
  | none, _ => .stop (.refused .needsState)

/-- `DECPAY` in progress: the walk starts at the root, except that with a singleton tree nothing is walked (R194,
R195). -/
def fetchPayload (s : State) : Fetched :=
  match s.tree with
  | some (.leaf _ _) => .run (.terminatorCode []) s
  | some (.internal w l r) => fetchToken (.payload (.internal w l r)) (s.setCur []) (endInPayload s)
  | none => .stop (.refused .needsState)

/-- The next token of the operation in progress. -/
def fetchInProgress (j : Job) (s : State) : Fetched :=
  match j with
  | .rdMagic => fetchToken .magic s (endInHeader s)
  | .hdrRd _ => fetchToken .header s (endInHeader s)
  | .decPay => fetchPayload s
  | .wrMagic => .run (.streamMagic Config.magicTree) s
  | .hdrWr todo => fetchHeaderNode todo s
  | .encPay => fetchCode s

/-- What a step runs next. A command presented while `BUSY = 1` is refused (R233). With nothing presented and nothing
in progress the block executes nothing (R253). -/
def fetch (s : State) : Fetched :=
  match s.job, s.port with
  | none, [] => .stop (.next s)
  | none, op :: rest => .run (decodeCommand op) { s with port := rest }
  | some j, [] => fetchInProgress j s
  | some _, _ :: _ => .stop (.refused .badCommand)

/-- `BUSY <- 1`: the state in which the operation has been accepted and has performed nothing but its entry, for the
six commands whose every read or write is a stream token (R92, R155). -/
def State.accept (i : Instr) (s : State) : State :=
  match i with
  | .rdmagic => s.setJob (some .rdMagic)
  | .hdrrd =>
    { s with tree := none, codeValid := false, job := some (.hdrRd { frames := [], seen := [], nint := 0 }) }
  | .decpay => s.setJob (some .decPay)
  | .wrmagic => s.setJob (some .wrMagic)
  | .hdrwr => s.setJob (some (.hdrWr s.tree.toList))
  | .encpay => s.setJob (some .encPay)
  | _ => s

/-- The bits `x` put where the source is read next. -/
def Src.insert (x : BitSeq) (r : Src) : Src := { r with bits := r.bits.take r.pos ++ x ++ r.bits.drop r.pos }

/-- The reader of the field `f` in progress; a header reader already in progress stays. -/
def readerOf (f : Format) (j : Option Job) : Option Job :=
  match f, j with
  | .header, some (.hdrRd r) => some (.hdrRd r)
  | .header, _ => some (.hdrRd { frames := [], seen := [], nint := 0 })
  | .magic, _ => some .rdMagic
  | .payload _, _ => some .decPay
  | .command, j => j

/-- The table word `w` placed where the next step fetches: a command on the port, a stream token in the source at its
position with its reader in progress and no command presented (log 8, log 19). -/
def State.placeWord (s : State) (nbits w : Nat) : State :=
  match tableLayout nbits with
  | none => s
  | some (.command, _) => { s with port := BitVec.ofNat 4 w :: s.port, job := none }
  | some (f, n) => { s with src := s.src.insert (be n w), job := readerOf f s.job, port := [] }

end Sys2Proof.Machine
end

