-- ==== Sys2Proof/Safety.lean ====
section
/-!
DEFINITION. What counts as a safe state and a safe run, in the terms the statements use: the invariant of every state a
run can be in (spec/10_state.md R24, R26, R30, R31, spec/20_memory.md R50, spec/60_exceptions.md R225), and the words
in which the rules describe an input, a payload and a stream.
-/

namespace Sys2Proof.Machine

/-- What the header reader in progress holds: the symbols seen are exactly those of the leaves read, with no repeat,
none above 256, and at most 256 internal nodes were counted (R155, R160). -/
structure HdrReader.Inv (r : HdrReader) : Prop where
  seenRead : (r.frames.flatMap fun f => (f.map Tree.leaves).getD []).Perm r.seen
  seenOnce : r.seen.Nodup
  seenRange : ∀ s ∈ r.seen, s.toNat ≤ 256
  internals : r.nint ≤ maxInternals
  weights : ∀ t, some t ∈ r.frames → t.shape = t

/-- What the state holds while the operation is in progress. -/
def Job.Inv (s : State) : Job → Prop
  | .rdMagic | .wrMagic | .hdrWr _ => True
  | .hdrRd r => s.tree = none ∧ s.codeValid = false ∧ r.Inv
  | .decPay => s.tree.isSome
  | .encPay => s.tree.isSome ∧ s.codeValid

/-- The sum of the 256 counts. -/
def CountTable.total (c : CountTable) : Nat := (byteValues.map c.get).sum

/-- The invariant that every step keeps. -/
structure State.Inv (s : State) : Prop where
  /-- `0 ≤ SRC.pos ≤ SRC.len` (R50). -/
  position : s.src.pos ≤ s.src.bits.length
  /-- No count and no sum of counts exceeds the width (R111). -/
  counts : s.cntValid → s.cnt.total ≤ Config.maxInput
  /-- Every tree held is valid (R24). -/
  tree : ∀ t, s.tree = some t → t.Valid
  /-- An internal weight is the sum of its children's, and every weight fits in `W` bits (R23, R126). -/
  weights : ∀ t, s.tree = some t → t.weightsAdd ∧ t.weightsBelow (2 ^ Config.countWidth)
  /-- A valid code table is that of the tree held (R29, R30). -/
  codes : s.codeValid → ∃ t, s.tree = some t ∧ s.code = codeTable t
  /-- Between operations, and between tokens, `CUR` denotes the root (R31). -/
  cur : s.cur = []
  /-- In a failed state nothing is valid and nothing is in progress (R225). -/
  failed : s.err.isSome → s.cntValid = false ∧ s.tree = none ∧ s.codeValid = false ∧ s.job = none
  /-- The operation in progress has what it needs. -/
  job : ∀ j, s.job = some j → j.Inv s

/-- `SRC` still holds exactly the bytes `l`, and then fewer than 8 bits that no 8-bit read returns (R50, R53, R110). -/
def Src.holdsBytes (r : Src) (l : List Byte) : Prop :=
  ∃ tail, r.rest = bytesToBits l ++ tail ∧ tail.length < 8

/-- The payload of the bytes `l`: their codes, in order (R86). -/
def payloadBits (c : CodeTable) (l : List Byte) : BitSeq := l.flatMap fun b => (c.get (byteSymbol b)).getD []

/-- The terminator field: the code of symbol 256 (R87). -/
def terminatorBits (c : CodeTable) : BitSeq := (c.get TERM).getD []

/-- Every byte of `l` has a code (R172, R173). -/
def allCoded (c : CodeTable) (l : List Byte) : Prop := ∀ b ∈ l, (c.get (byteSymbol b)).isSome

/-- The compressed stream of the bytes `l` under the tree `t`, without padding (R80). -/
def streamBits (t : Tree) (l : List Byte) : BitSeq :=
  be 32 Config.magicTree.toNat ++ headerBits t ++ payloadBits (codeTable t) l ++ terminatorBits (codeTable t)

/-- The counts of the bytes `l` (R110, R112). -/
def countsOf (l : List Byte) : CountTable := Vector.ofFn fun i => l.count (BitVec.ofNat 8 i.val)

/-- Idle and not failed: the preconditions `ERR = 0`, `BUSY = 0` that most commands have (R212). -/
def State.idle (s : State) : Prop := s.job = none ∧ s.err = none

/-- The block's state after a failure of kind `k` (R225). -/
def State.Failed (k : ErrorKind) (s : State) : Prop :=
  s.err = some k ∧ s.cntValid = false ∧ s.tree = none ∧ s.codeValid = false ∧ s.cur = [] ∧ s.job = none

/-- The field a token or command stands in where its bits alone decide it; a code's field is the payload of a tree. -/
def fixedFormat : Instr → Option Format
  | .streamMagic _ => some .magic
  | .hdrInternal | .hdrLeaf _ => some .header
  | .payloadCode _ | .terminatorCode _ => none
  | .clr | .count | .build | .gencode | .wrmagic | .hdrwr | .encpay | .rdmagic | .hdrrd | .decpay | .encode
  | .compress | .decompress | .rewind | .reserved1110 | .reserved1111 => some .command

/-- The token that the code at `p` is, by its leaf's symbol (R89). -/
def codeToken (s : Symbol) (p : Path) : Instr := if s = TERM then .terminatorCode p else .payloadCode p

/-- What a run of the machine answers after `n` steps. -/
def run (n : Nat) (s : State) : Result := Sys2Proof.core.run n s

end Sys2Proof.Machine
end

