-- ==== Sys2Proof/Certificates/Slice0/Obligations.lean ====
section
/-!
DEFINITION. The statements for the provers, each about the machine and none about a program. A docstring names the rule
of spec/ that the statement formalises, or the sections it is derived from.
-/

open Sys2Proof Sys2Proof.Machine

/-! Fetching, decoding, encoding -/

/-- R92, R97: with `BUSY = 0` a step accepts the next command on the port and executes it; with nothing presented the
block executes nothing (R253); a command presented while `BUSY = 1` is refused (R233); otherwise the operation in
progress takes its next token, and a reader's token is executed with the source moved past the token's bits. -/
def Obligations.StepRunsDecodedInstruction : Prop :=
  (∀ (s : State) (op : OpCode) (rest : List OpCode), s.job = none → s.port = op :: rest →
    step s = exec (decodeCommand op) { s with port := rest }) ∧
  (∀ s : State, s.job = none → s.port = [] → step s = .next s) ∧
  (∀ (s : State) (j : Job) (op : OpCode) (rest : List OpCode), s.job = some j → s.port = op :: rest →
    step s = .refused .badCommand) ∧
  (∀ (s : State) (i : Instr) (z : BitSeq), s.port = [] → s.job = some .rdMagic →
    decode .magic s.src.rest = .ok (i, z) → step s = exec i { s with src := s.src.skip 32 }) ∧
  (∀ (s : State) (r : HdrReader) (i : Instr) (z : BitSeq), s.port = [] → s.job = some (.hdrRd r) →
    decode .header s.src.rest = .ok (i, z) → step s = exec i { s with src := s.src.skip (encode i).length }) ∧
  (∀ (s : State) (w : Nat) (l r : Tree) (i : Instr) (z : BitSeq), s.port = [] → s.job = some .decPay →
    s.tree = some (.internal w l r) → decode (.payload (.internal w l r)) s.src.rest = .ok (i, z) →
    step s = exec i { s with src := s.src.skip (encode i).length, cur := [] }) ∧
  (∀ (s : State) (sym : Symbol) (w : Nat), s.port = [] → s.job = some .decPay → s.tree = some (.leaf sym w) →
    step s = exec (.terminatorCode []) s)

/-- R90, R83, R84: words written out from the command table and the stream tokens decode to what they stand for. -/
def Obligations.SpecWordsDecode : Prop :=
  decodeCommand 0b0000#4 = .clr ∧ decodeCommand 0b0011#4 = .gencode ∧ decodeCommand 0b1000#4 = .hdrrd ∧
  decodeCommand 0b1011#4 = .compress ∧ decodeCommand 0b1101#4 = .rewind ∧ decodeCommand 0b1110#4 = .reserved1110 ∧
  decode .header [false, true] = .ok (.hdrInternal, [true]) ∧
  decode .header [true, false, false, true, false, false, false, false, true, false] = .ok (.hdrLeaf 66#9, []) ∧
  decode .header [true, true, false, false, false, false, false, false, false, false] = .ok (.hdrLeaf TERM, [])

/-- R80 to R91: decoding the bits of a well-formed instruction, in the field it stands in, gives it back and leaves the
bits that follow; a code is told to be a byte's or the terminator's by the tree. -/
def Obligations.DecodeInvertsEncode : Prop :=
  (∀ (i : Instr) (f : Format) (z : BitSeq), i.wf = true → fixedFormat i = some f →
    decode f (encode i ++ z) = .ok (i, z)) ∧
  (∀ (w : Nat) (l r : Tree) (s : Symbol) (p : Path) (z : BitSeq), (Tree.internal w l r).leafAt p s →
    decode (.payload (.internal w l r)) (encode (codeToken s p) ++ z) = .ok (codeToken s p, z)) ∧
  (∀ (s : Symbol) (w : Nat) (z : BitSeq),
    decode (.payload (.leaf s w)) (encode (codeToken TERM []) ++ z) = .ok (codeToken TERM [], z))

/-- R57, R89: what is decoded is what stands in the bits: encoding it gives the bits that were taken, in every field,
also for a leaf token with a reserved symbol. -/
def Obligations.EncodeInvertsDecode : Prop :=
  ∀ (f : Format) (x z : BitSeq) (i : Instr), decode f x = .ok (i, z) → encode i ++ z = x

/-- R85, R159: a header is the header of one shape only, and no header is a proper prefix of another. -/
def Obligations.HeaderParseIsUnique : Prop :=
  ∀ (t t' : Tree) (z z' : BitSeq), headerBits t ++ z = headerBits t' ++ z' → t.shape = t'.shape ∧ z = z'

/-- R152: a tree of `k` leaves has a header of `11k − 1` bits, and that is how many `HDRWR` appends. -/
def Obligations.HeaderLengthIsElevenPerLeaf : Prop :=
  (∀ t : Tree, (headerBits t).length = 11 * t.leaves.length - 1) ∧
  (∀ (s s' : State) (t : Tree), s.tree = some t → exec .hdrwr s = .next s' →
    s'.snk.length = s.snk.length + (11 * t.leaves.length - 1))

/-! The streams -/

/-- R52, R53, R55, R57: reading is the mirror of writing; a read gives `END` exactly when too few bits are left, and
then moves nothing. -/
def Obligations.ReadsMirrorWrites : Prop :=
  (∀ (n v : Nat) (s : State), s.writeBits n v = { s with snk := s.snk ++ be n (v % 2 ^ n) }) ∧
  (∀ (n v : Nat) (r : Src) (z : BitSeq), v < 2 ^ n → r.rest = be n v ++ z →
    r.readBits n = (some v, { r with pos := r.pos + n })) ∧
  (∀ (n : Nat) (r : Src), (r.readBits n).1 = none ↔ r.bits.length - r.pos < n) ∧
  (∀ (n : Nat) (r : Src), r.bits.length - r.pos < n → r.readBits n = (none, r))

/-! Reset and the invariant -/

/-- R37, R250, R252: reset and `CLR` leave every element of the block's state at the value of the table; neither touches
the streams. That reset of an idle block also leaves the command port is the model's choice (log 4); nothing is said of
the streams after a reset while an operation is in progress (R251, log 16). -/
def Obligations.ResetAndClrGiveTheTable : Prop :=
  (∀ v : Byte, State.reset.cnt.get v = 0) ∧ State.reset.cntValid = false ∧ State.reset.tree = none ∧
  (∀ s : Symbol, State.reset.code.get s = none) ∧ State.reset.codeValid = false ∧ State.reset.cur = [] ∧
  State.reset.errCode = 0#2 ∧ State.reset.busy = false ∧
  (∀ s : State, ∃ (src : Src) (snk : BitSeq) (port : List OpCode),
    s.resetBlock = { State.reset with src := src, snk := snk, port := port }) ∧
  (∀ s : State, s.job = none → s.resetBlock = { State.reset with src := s.src, snk := s.snk, port := s.port }) ∧
  (∀ s : State, s.job = none →
    exec .clr s = .next { State.reset with src := s.src, snk := s.snk, port := s.port })

/-- R24, R30, R31, R50, R225: the reset state meets the invariant. -/
def Obligations.ResetMeetsInvariant : Prop := State.reset.Inv

/-- R24, R26, R30, R31, R50, R111, R126, R225: every step from a state that meets the invariant gives a state that
meets it. -/
def Obligations.StepKeepsInvariant : Prop :=
  ∀ s s' : State, s.Inv → step s = .next s' → s'.Inv

/-! Whole-machine rules -/

/-- R220, R224, R230: no step faults, since the two error kinds are next states, and the reasons of a refusal are a
closed list. -/
def Obligations.StepsStopOnlyForListedReasons : Prop :=
  ∀ s : State, (∀ r : Fault, step s ≠ .fault r) ∧
    ∀ r : Refusal, step s = .refused r → r = .needsState ∨ r = .widthOverflow ∨ r = .badCommand ∨ r = .noCode

/-- R51, R62: no step changes the source's bits, and the sink only grows. -/
def Obligations.SourceUnchangedSinkGrows : Prop :=
  ∀ s s' : State, step s = .next s' → s'.src.bits = s.src.bits ∧ s.snk <+: s'.snk

/-- R225: a step that fails leaves every validity bit 0, no tree, `CUR = ε`, `BUSY = 0` and the kind in `ERR`; the
counts stay as they were or, in a composite that begins with `CLR`, cleared. -/
def Obligations.FailureStateIsR225 : Prop :=
  ∀ s s' : State, s.err = none → step s = .next s' → s'.err ≠ none →
    ∃ k, s'.Failed k ∧ (s'.cnt = s.cnt ∨ s'.cnt = CountTable.zero)

/-- R220, R221, R222: only `RDMAGIC`, `HDRRD`, `DECPAY` and `DECOMPRESS` can raise an error; `DECPAY` never raises
`InvalidFormat`, and `RDMAGIC` and `HDRRD` never raise `TruncatedInput`. -/
def Obligations.OnlyReadersRaiseErrors : Prop :=
  ∀ (s s' : State) (k : ErrorKind), s.err = none → step s = .next s' → s'.err = some k →
    (∃ (op : OpCode) (rest : List OpCode), s.port = op :: rest ∧
      ((k = .invalidFormat ∧ decodeCommand op ∈ [Instr.rdmagic, .hdrrd, .decompress]) ∨
        (k = .truncatedInput ∧ decodeCommand op ∈ [Instr.decpay, .decompress]))) ∨
    (k = .invalidFormat ∧ (s.job = some .rdMagic ∨ ∃ r : HdrReader, s.job = some (.hdrRd r))) ∨
    (k = .truncatedInput ∧ s.job = some .decPay)

/-- R252: only `REWIND`, and `COMPRESS`, which contains it, moves the source position back. -/
def Obligations.OnlyRewindMovesSourceBack : Prop :=
  ∀ s s' : State, step s = .next s' → s'.src.pos < s.src.pos →
    ∃ (op : OpCode) (rest : List OpCode), s.port = op :: rest ∧
      (decodeCommand op = .rewind ∨ decodeCommand op = .compress)

/-- R227: `ERR` is sticky: in a failed state only `CLR`, `COMPRESS` and `DECOMPRESS` change it. -/
def Obligations.ErrorIsSticky : Prop :=
  ∀ (s s' : State) (k : ErrorKind), s.Inv → s.err = some k → step s = .next s' →
    s'.err = some k ∨ ∃ (op : OpCode) (rest : List OpCode), s.port = op :: rest ∧
      (decodeCommand op = .clr ∨ decodeCommand op = .compress ∨ decodeCommand op = .decompress)

/-- R231: an operation whose validity bit is 0, or one other than `CLR`, `REWIND`, `COMPRESS`, `DECOMPRESS` while
`ERR ≠ 0`, is refused, `NeedsState`. -/
def Obligations.NeedsStateIsRefused : Prop :=
  ∀ s : State, s.job = none →
    (s.err ≠ none → ∀ i ∈ [Instr.count, .build, .gencode, .wrmagic, .hdrwr, .encpay, .rdmagic, .hdrrd, .decpay, .encode],
      exec i s = .refused .needsState) ∧
    (s.cntValid = false → exec .build s = .refused .needsState) ∧
    (s.tree = none → ∀ i ∈ [Instr.gencode, .hdrwr, .encpay, .decpay, .encode], exec i s = .refused .needsState) ∧
    (s.codeValid = false → exec .encpay s = .refused .needsState ∧ exec .encode s = .refused .needsState)

/-- R94, R233: a reserved code is refused, and so is any command while `BUSY = 1`. -/
def Obligations.BadCommandIsRefused : Prop :=
  (∀ s : State, exec .reserved1110 s = .refused .badCommand ∧ exec .reserved1111 s = .refused .badCommand) ∧
  (∀ (s : State) (j : Job) (op : OpCode), s.job = some j → exec (decodeCommand op) s = .refused .badCommand)

/-! COUNT -/

/-- R110: `COUNT` tallies the bytes of the source from its position to its end, moves the position past them, sets
`CNT_VALID`, clears `TREE_VALID` and `CODE_VALID`, and changes nothing else. -/
def Obligations.CountTalliesBytes : Prop :=
  ∀ (s : State) (l : List Byte), s.idle → s.src.holdsBytes l → l.length ≤ Config.maxInput →
    exec .count s = .next
      { s with
        cnt := countsOf l, cntValid := true, tree := none, codeValid := false, src := s.src.skip (8 * l.length) }

/-- R111, R232: `COUNT` and `COMPRESS` refuse a longer input, and no count wraps. -/
def Obligations.CountRefusesLongInput : Prop :=
  (∀ (s : State) (l : List Byte), s.src.holdsBytes l → 2 ^ Config.countWidth - 2 < l.length →
    (s.idle → exec .count s = .refused .widthOverflow) ∧ (s.job = none → exec .compress s = .refused .widthOverflow)) ∧
  (∀ (s s' : State) (v : Byte), exec .count s = .next s' → s'.cnt.get v < 2 ^ Config.countWidth)

/-- R112: the counts sum to the number of bytes, a count is positive exactly for the values that occur, and at most
`min(N, 256)` counts are positive. -/
def Obligations.CountsDescribeInput : Prop :=
  ∀ (s s' : State) (l : List Byte), s.idle → s.src.holdsBytes l → exec .count s = .next s' →
    s'.cnt.total = l.length ∧ (∀ v : Byte, 0 < s'.cnt.get v ↔ v ∈ l) ∧
    (byteValues.filter fun v => s'.cnt.get v ≠ 0).length ≤ min l.length 256

/-! BUILD -/

/-- R121, R128, R26: `BUILD` completes; its leaves are exactly one for each byte value with a nonzero count, with that
weight, and one for the terminator with weight 1; the tree is valid, internal weights are sums, the root weight is the
number of bytes counted plus 1; `CODE_VALID` is cleared and nothing else changes. -/
def Obligations.BuildMakesWeightedTree : Prop :=
  ∀ s : State, s.idle → s.cntValid = true →
    ∃ t : Tree, exec .build s = .next { s with tree := some t, codeValid := false } ∧ t.Valid ∧
      t.weightsAdd = true ∧ t.weight = s.cnt.total + 1 ∧
      ∀ (sym : Symbol) (w : Nat), (∃ p, t.nodeAt p = some (.leaf sym w)) ↔
        (sym = TERM ∧ w = 1) ∨ ∃ v : Byte, sym = byteSymbol v ∧ w = s.cnt.get v ∧ w ≠ 0

/-- R121 to R125: a merge removes the entry with the smallest key and then the next smallest, smaller weight first and
among equal weights the smaller `seq`, and inserts a node with the first as left child, the second as right child, and
the sum of their weights, under the next `seq`; the last entry left is the root; the merges start from the leaves of the
nonzero counts in ascending byte value, with the terminator of weight 1 last and `seq` counted from 0; and the tree they
end with is the one `BUILD` puts in `TREE`. -/
def Obligations.MergeTakesTwoSmallest : Prop :=
  (∀ q : List PQEntry, q ≠ [] → ∃ (a : PQEntry) (rest : List PQEntry), removeMin q = some (a, rest) ∧
    (a :: rest).Perm q ∧ ∀ x ∈ rest, a.weight < x.weight ∨ (a.weight = x.weight ∧ a.seq ≤ x.seq)) ∧
  (∀ (fuel : Nat) (q : PQ) (a b : PQEntry) (rest rest' : List PQEntry), removeMin q.entries = some (a, rest) →
    removeMin rest = some (b, rest') →
    mergeLoop (fuel + 1) q = mergeLoop fuel
      { entries := rest' ++
          [{ weight := a.tree.weight + b.tree.weight, seq := q.seq,
             tree := .internal (a.tree.weight + b.tree.weight) a.tree b.tree }],
        seq := q.seq + 1 }) ∧
  (∀ (fuel : Nat) (q : PQ) (a : PQEntry), removeMin q.entries = some (a, []) →
    mergeLoop (fuel + 1) q = some a.tree) ∧
  (∀ c : CountTable,
    let leaves :=
      (((List.range 256).filter fun v => c.get (BitVec.ofNat 8 v) ≠ 0).map fun v =>
        Tree.leaf (BitVec.ofNat 9 v) (c.get (BitVec.ofNat 8 v))) ++ [.leaf TERM 1]
    initialQueue c =
        { entries := leaves.mapIdx fun i t => { weight := t.weight, seq := i, tree := t }, seq := leaves.length } ∧
      buildTree c = mergeLoop (initialQueue c).entries.length (initialQueue c)) ∧
  (∀ s : State, s.idle → s.cntValid = true →
    ∃ t : Tree, buildTree s.cnt = some t ∧ exec .build s = .next { s with tree := some t, codeValid := false })

/-- R120: with no byte counted the tree is the singleton; with one distinct byte value of count 1 that byte is on the
left and the terminator on the right; with count 2 or more the terminator is on the left. -/
def Obligations.BuildOnAtMostOneByteValue : Prop :=
  ∀ (s : State) (v : Byte), s.idle → s.cntValid = true → (∀ u : Byte, u ≠ v → s.cnt.get u = 0) →
    exec .build s = .next
      { s with
        tree := some
          (if s.cnt.get v = 0 then .leaf TERM 1
           else if s.cnt.get v = 1 then .internal 2 (.leaf (byteSymbol v) 1) (.leaf TERM 1)
           else .internal (s.cnt.get v + 1) (.leaf TERM 1) (.leaf (byteSymbol v) (s.cnt.get v))),
        codeValid := false }

/-- R128, from R121 to R124: in the tree built, a strictly heavier leaf is never deeper than a lighter one. The spec
gives the inequality as general knowledge (G4). -/
def Obligations.HeavierLeafIsNotDeeper : Prop :=
  ∀ (c : CountTable) (t : Tree) (p q : Path) (a b : Symbol) (wa wb : Nat), buildTree c = some t →
    t.nodeAt p = some (.leaf a wa) → t.nodeAt q = some (.leaf b wb) → wb < wa → p.length ≤ q.length

/-! GENCODE -/

/-- R140, R141, R143: `GENCODE` records at each leaf symbol the path to its leaf, every other entry is absent,
`CODE_VALID` is set, and nothing else changes. -/
def Obligations.GencodeRecordsPaths : Prop :=
  ∀ (s : State) (t : Tree), s.idle → s.tree = some t → t.Valid →
    ∃ c : CodeTable, exec .gencode s = .next { s with code := c, codeValid := true } ∧
      ∀ (sym : Symbol) (p : Path), c.get sym = some p ↔ t.leafAt p sym

/-- R142: the code of a singleton tree is the empty path, present, and no other entry is present. -/
def Obligations.SingletonCodeIsEmpty : Prop :=
  ∀ (s : State) (w : Nat), s.idle → s.tree = some (.leaf TERM w) →
    ∃ c : CodeTable, exec .gencode s = .next { s with code := c, codeValid := true } ∧ c.get TERM = some [] ∧
      ∀ sym : Symbol, sym ≠ TERM → c.get sym = none

/-- R144 (b), (c): no code is a prefix of another, and the map from present symbols to codes is injective. -/
def Obligations.CodesArePrefixFree : Prop :=
  ∀ (t : Tree) (a b : Symbol) (p q : Path), t.Valid → (codeTable t).get a = some p → (codeTable t).get b = some q →
    p <+: q → a = b ∧ p = q

/-- R144 (a), (d): exactly one code per leaf; every code has at most `k − 1` bits, at least one when `k ≥ 2`; and the
Kraft sum of the codes is exactly 1, here scaled by `2^256`. -/
def Obligations.CodesFillTheCodeSpace : Prop :=
  ∀ t : Tree, t.Valid →
    let codes := (List.range 257).filterMap fun i => (codeTable t).get (BitVec.ofNat 9 i)
    codes.length = t.leaves.length ∧
    (∀ p ∈ codes, p.length ≤ t.leaves.length - 1 ∧ (2 ≤ t.leaves.length → 1 ≤ p.length)) ∧
    (codes.map fun p => 2 ^ (256 - p.length)).sum = 2 ^ 256

/-! HDRWR and HDRRD -/

/-- R150: `HDRWR` appends the header of the tree and changes nothing else. -/
def Obligations.HdrwrAppendsHeader : Prop :=
  ∀ (s : State) (t : Tree), s.idle → s.tree = some t →
    exec .hdrwr s = .next { s with snk := s.snk ++ headerBits t }

/-- R158: where the source continues with the header of a valid tree, `HDRRD` succeeds, consumes exactly the header and
leaves the tree's shape in `TREE`, `CODE_VALID` cleared, `CUR` at the root, and nothing else changed; conversely, what
it consumed when it succeeds is the header of the tree it leaves, which is valid and has every weight 0. -/
def Obligations.HdrrdReadsHeader : Prop :=
  (∀ (s : State) (t : Tree) (z : BitSeq), s.idle → t.Valid → s.src.rest = headerBits t ++ z →
    exec .hdrrd s = .next
      { s with
        tree := some t.shape, codeValid := false, cur := [], src := s.src.skip (headerBits t).length }) ∧
  (∀ s s' : State, s.idle → exec .hdrrd s = .next s' → s'.err = none →
    ∃ (t : Tree) (z : BitSeq), s'.tree = some t ∧ t.Valid ∧ t.shape = t ∧ s.src.rest = headerBits t ++ z ∧
      s'.src = s.src.skip (headerBits t).length)

/-- R156, R157, R221: a source that does not continue with the header of a valid tree, because it ends, or holds a
reserved or repeated symbol, too many internal nodes or no terminator, makes `HDRRD` fail with `InvalidFormat`, never
`TruncatedInput`, with nothing written. That the counts behind the cleared `CNT_VALID` stay as they were is
the model's choice (log 11). -/
def Obligations.HdrrdRejectsMalformedHeader : Prop :=
  ∀ s : State, s.idle → (¬ ∃ (t : Tree) (z : BitSeq), t.Valid ∧ s.src.rest = headerBits t ++ z) →
    ∃ s' : State, exec .hdrrd s = .next s' ∧ s'.Failed .invalidFormat ∧ s'.snk = s.snk ∧ s'.src.bits = s.src.bits ∧
      s'.cnt = s.cnt ∧ s'.port = s.port

/-- R158, R217: `HDRRD` followed by `HDRWR` copies the header bits from the source to the sink. -/
def Obligations.HeaderCopyIsExact : Prop :=
  ∀ s s' : State, s.idle → exec .hdrrd s = .next s' → s'.err = none →
    ∃ x z : BitSeq, s.src.rest = x ++ z ∧ s'.src.rest = z ∧ exec .hdrwr s' = .next { s' with snk := s.snk ++ x }

/-- R217: `HDRWR` and `GENCODE` commute. -/
def Obligations.HdrwrAndGencodeCommute : Prop :=
  ∀ s : State, thenDo (exec .hdrwr s) (exec .gencode) = thenDo (exec .gencode s) (exec .hdrwr)

/-! WRMAGIC, ENCPAY, ENCODE -/

/-- R170: `WRMAGIC` appends the 32 bits of the magic and changes nothing else. -/
def Obligations.WrmagicAppendsMagic : Prop :=
  ∀ s : State, s.idle → exec .wrmagic s = .next { s with snk := s.snk ++ be 32 Config.magicTree.toNat }

/-- R172: with a tree that is no singleton, `ENCPAY` writes the code of each byte of the source in order and then the
terminator's once, moves the position past the bytes, and changes nothing else. -/
def Obligations.EncpayWritesCodes : Prop :=
  ∀ (s : State) (w : Nat) (l r : Tree) (bytes : List Byte) (e : BitSeq), s.idle → s.codeValid = true →
    s.tree = some (.internal w l r) → s.src.holdsBytes bytes → allCoded s.code bytes → s.code.get TERM = some e →
    exec .encpay s = .next
      { s with snk := s.snk ++ payloadBits s.code bytes ++ e, src := s.src.skip (8 * bytes.length) }

/-- R174: with a singleton tree `ENCPAY` writes nothing when the source is at its end, and refuses a byte. -/
def Obligations.EncpayOnSingletonTree : Prop :=
  ∀ (s : State) (sym : Symbol) (w : Nat) (bytes : List Byte), s.idle → s.codeValid = true →
    s.tree = some (.leaf sym w) → s.src.holdsBytes bytes →
    exec .encpay s = if bytes = [] then .next s else .refused .noCode

/-- R173, R234: with a tree that is no singleton, a byte with no code makes `ENCPAY` refuse, `NoCode`. -/
def Obligations.EncpayRefusesByteWithoutCode : Prop :=
  ∀ (s : State) (w : Nat) (l r : Tree) (bytes : List Byte), s.idle → s.codeValid = true →
    s.tree = some (.internal w l r) → s.src.holdsBytes bytes → ¬ allCoded s.code bytes →
    exec .encpay s = .refused .noCode

/-- R175: `ENCODE` writes the magic, the header, the payload and the terminator, moves the position past the bytes, and
changes nothing else. -/
def Obligations.EncodeWritesWholeStream : Prop :=
  ∀ (s : State) (t : Tree) (bytes : List Byte), s.idle → s.codeValid = true → s.tree = some t → t.Valid →
    s.code = codeTable t → s.src.holdsBytes bytes → allCoded s.code bytes →
    exec .encode s = .next { s with snk := s.snk ++ streamBits t bytes, src := s.src.skip (8 * bytes.length) }

/-! RDMAGIC, DECSTEP, DECPAY -/

/-- R190, R191: `RDMAGIC` consumes 32 bits and changes nothing else when they are the magic; it fails with
`InvalidFormat` when they are not, having consumed them, and when fewer than 32 bits are left, having consumed none. -/
def Obligations.RdmagicChecksLeadingBits : Prop :=
  ∀ s : State, s.idle →
    (∀ z : BitSeq, s.src.rest = be 32 Config.magicTree.toNat ++ z →
      exec .rdmagic s = .next { s with src := s.src.skip 32 }) ∧
    (∀ (m : BitVec 32) (z : BitSeq), s.src.rest = be 32 m.toNat ++ z → m ≠ Config.magicTree →
      exec .rdmagic s = .next (State.raise .invalidFormat { s with src := s.src.skip 32 })) ∧
    (s.src.rest.length < 32 → exec .rdmagic s = .next (s.raise .invalidFormat))

/-- R193: a decode step reads one bit, takes the left child on 0 and the right child on 1, ends at the terminator's
leaf, writes the byte of another leaf and returns to the root, or goes on from an internal node; at the end of the
source it fails with `TruncatedInput` and reads nothing. -/
def Obligations.DecstepWalksOneBit : Prop :=
  ∀ (s : State) (t l r : Tree) (w : Nat), s.tree = some t → t.nodeAt s.cur = some (.internal w l r) →
    (∀ (b : Bool) (z : BitSeq) (sym : Symbol) (w' : Nat), s.src.rest = b :: z →
      (if b then r else l) = .leaf sym w' →
      decStep s =
        if sym = TERM then .done { s with src := s.src.skip 1, cur := [] }
        else .goOn { s with src := s.src.skip 1, cur := [], snk := s.snk ++ be 8 sym.toNat }) ∧
    (∀ (b : Bool) (z : BitSeq) (w' : Nat) (l' r' : Tree), s.src.rest = b :: z →
      (if b then r else l) = .internal w' l' r' →
      decStep s = .goOn { s with src := s.src.skip 1, cur := s.cur ++ [b] }) ∧
    (s.src.rest = [] → decStep s = .fail (s.raise .truncatedInput))

/-- R194: where the source continues with the codes of some bytes and then the terminator's, `DECPAY` writes those
bytes, stops just past the terminator's code with `CUR` at the root, and changes nothing else. -/
def Obligations.DecpayDecodesBytes : Prop :=
  ∀ (s : State) (w : Nat) (l r : Tree) (bytes : List Byte) (e z : BitSeq), s.idle →
    s.tree = some (.internal w l r) → (Tree.internal w l r).Valid → allCoded (codeTable (.internal w l r)) bytes →
    (codeTable (.internal w l r)).get TERM = some e →
    s.src.rest = payloadBits (codeTable (.internal w l r)) bytes ++ e ++ z →
    exec .decpay s = .next
      { s with
        snk := s.snk ++ bytesToBits bytes, cur := [],
        src := s.src.skip (payloadBits (codeTable (.internal w l r)) bytes ++ e).length }

/-- R195: with a singleton tree `DECPAY` completes at once, having read and written nothing. -/
def Obligations.DecpayOnSingletonTree : Prop :=
  ∀ (s : State) (sym : Symbol) (w : Nat), s.idle → s.tree = some (.leaf sym w) → exec .decpay s = .next s

/-- R197, R224, R225: where the source ends after the codes of some bytes, at a code boundary or inside a code, before
the terminator's leaf, `DECPAY` fails with `TruncatedInput`, the bytes decoded so far written and every bit read. Those
bytes are void to the host (R199), and no other statement rests on them. -/
def Obligations.DecpayReportsTruncation : Prop :=
  ∀ (s : State) (w : Nat) (l r : Tree) (bytes : List Byte) (p : Path), s.idle →
    s.tree = some (.internal w l r) → (Tree.internal w l r).Valid → allCoded (codeTable (.internal w l r)) bytes →
    (∃ (w' : Nat) (l' r' : Tree), (Tree.internal w l r).nodeAt p = some (.internal w' l' r')) →
    s.src.rest = payloadBits (codeTable (.internal w l r)) bytes ++ p →
    exec .decpay s = .next
      (State.raise .truncatedInput
        { s with snk := s.snk ++ bytesToBits bytes, src := s.src.skip s.src.rest.length })

/-- R89, R196: bits that follow the terminator's code have no effect on a `DECPAY` that succeeds. -/
def Obligations.DecpayIgnoresTrailingBits : Prop :=
  ∀ (s s' : State) (z : BitSeq), exec .decpay s = .next s' → s'.err = none →
    exec .decpay { s with src := { s.src with bits := s.src.bits ++ z } } =
      .next { s' with src := { s'.src with bits := s.src.bits ++ z } }

/-! REWIND, COMPRESS, DECOMPRESS -/

/-- R211: `REWIND` sets the source position to 0, whatever `ERR` holds, and changes nothing else. -/
def Obligations.RewindReturnsToStart : Prop :=
  ∀ s : State, s.job = none → exec .rewind s = .next { s with src := { s.src with pos := 0 } }

/-- R213: from a source at position 0, `COMPRESS` appends magic, header, payload and terminator for the tree built from
the counts of the input, leaves the position past the last byte and all block state at its reset values. -/
def Obligations.CompressWritesStream : Prop :=
  ∀ (s : State) (l : List Byte), s.job = none → s.src.pos = 0 → s.src.holdsBytes l → l.length ≤ Config.maxInput →
    ∃ t : Tree, buildTree (countsOf l) = some t ∧
      exec .compress s = .next
        { State.reset with
          src := { s.src with pos := 8 * l.length }, snk := s.snk ++ streamBits t l, port := s.port }

/-- R88: the number of bits one compress writes. -/
def Obligations.CompressLengthIsR88 : Prop :=
  ∀ (s s' : State) (l : List Byte), s.src.pos = 0 → s.src.holdsBytes l → exec .compress s = .next s' →
    ∃ t : Tree, buildTree (countsOf l) = some t ∧
      s'.snk.length = s.snk.length + 32 + (11 * t.leaves.length - 1) +
        (byteValues.map fun v =>
          (countsOf l).get v * (((codeTable t).get (byteSymbol v)).getD []).length).sum +
        (terminatorBits (codeTable t)).length

/-- R214: what `COMPRESS` answers depends on the source and the sink only, not on the block's state before it. -/
def Obligations.CompressIgnoresBlockState : Prop :=
  ∀ s u s' : State, s.job = none → u.job = none → s.src = u.src → s.snk = u.snk → exec .compress s = .next s' →
    exec .compress u = .next { s' with port := u.port }

/-- R178: for every byte sequence that `COMPRESS` accepts (R111), what it writes, followed by any bits, is decompressed
to exactly those bytes, with `ERR = 0`, the block's state at its reset values and nothing read past the terminator's
code. The second clause, derived from R127 and R215: the decoder does so for the stream of every valid tree, not only of
one that `BUILD` makes, and for all bytes that have codes in it, wherever the stream stands in the source. -/
def Obligations.CompressThenDecompress : Prop :=
  (∀ (s : State) (l : List Byte), s.job = none → s.src = { bits := bytesToBits l, pos := 0 } → s.snk = [] →
    l.length ≤ Config.maxInput →
    ∃ s' : State, exec .compress s = .next s' ∧
      ∀ (u : State) (z : BitSeq), u.job = none → u.src = { bits := s'.snk ++ z, pos := 0 } → u.snk = [] →
        exec .decompress u = .next
          { State.reset with
            src := { bits := s'.snk ++ z, pos := s'.snk.length }, snk := bytesToBits l, port := u.port }) ∧
  (∀ (u : State) (t : Tree) (l : List Byte) (z : BitSeq), u.job = none → t.Valid → allCoded (codeTable t) l →
    u.src.rest = be 32 Config.magicTree.toNat ++ headerBits t ++ payloadBits (codeTable t) l ++
      terminatorBits (codeTable t) ++ z →
    exec .decompress u = .next
      { State.reset with
        src := u.src.skip (streamBits t l).length, snk := u.snk ++ bytesToBits l, port := u.port })

/-- R157, R191, R197: a compressed stream cut anywhere is reported, never decoded: `InvalidFormat` when the cut falls
in the magic or the header, `TruncatedInput` when it falls after them. -/
def Obligations.CutStreamIsReported : Prop :=
  ∀ (l : List Byte) (t : Tree) (n : Nat) (u : State), l.length ≤ Config.maxInput → buildTree (countsOf l) = some t →
    n < (streamBits t l).length → u.job = none → u.src = { bits := (streamBits t l).take n, pos := 0 } →
    ∃ u' : State, exec .decompress u = .next u' ∧
      u'.Failed (if n < 32 + (headerBits t).length then .invalidFormat else .truncatedInput)

/-- R190, R216: a source whose next 32 bits are not the magic, or that has fewer, makes `DECOMPRESS` fail with
`InvalidFormat` and write nothing. -/
def Obligations.CorruptMagicIsReported : Prop :=
  ∀ s : State, s.job = none → s.src.rest.take 32 ≠ be 32 Config.magicTree.toNat →
    ∃ s' : State, exec .decompress s = .next s' ∧ s'.Failed .invalidFormat ∧ s'.snk = s.snk ∧
      s'.src.bits = s.src.bits ∧ s'.port = s.port

/-- R215, R225: `DECOMPRESS` always completes: in success with all block state at its reset values, or failed. -/
def Obligations.DecompressEndsClearOrFailed : Prop :=
  ∀ s : State, s.job = none → ∃ s' : State, exec .decompress s = .next s' ∧ s'.src.bits = s.src.bits ∧
    s.snk <+: s'.snk ∧ s'.port = s.port ∧
    (s' = { State.reset with src := s'.src, snk := s'.snk, port := s'.port } ∨
      ((s'.Failed .invalidFormat ∧ s'.snk = s.snk) ∨ s'.Failed .truncatedInput) ∧ s'.cnt = CountTable.zero)

/-! The stream tokens -/

/-- R81, R95, R171, R190: read by `RDMAGIC` in progress, the magic completes it and every other value fails with
`InvalidFormat`; `WRMAGIC` in progress writes the magic and is complete. Nothing else changes. -/
def Obligations.MagicTokenIsReadAndWritten : Prop :=
  (∀ s : State, s.job = some .rdMagic → exec (.streamMagic Config.magicTree) s = .next { s with job := none }) ∧
  (∀ (s : State) (m : BitVec 32), s.job = some .rdMagic → m ≠ Config.magicTree →
    exec (.streamMagic m) s = .next (s.raise .invalidFormat)) ∧
  (∀ s : State, s.job = some .wrMagic →
    exec (.streamMagic Config.magicTree) s = .next
      { s with snk := s.snk ++ be 32 Config.magicTree.toNat, job := none })

/-- R84, R155, R156: read by `HDRRD` in progress, an internal-node token opens a node, and the 257th fails with
`InvalidFormat`; written by `HDRWR` in progress, it is one bit 0 and the left and then the right subtree are next. -/
def Obligations.InternalTokenIsReadAndWritten : Prop :=
  (∀ (s : State) (r : HdrReader), s.job = some (.hdrRd r) → r.nint ≠ 256 →
    exec .hdrInternal s = .next
      { s with job := some (.hdrRd { frames := none :: r.frames, seen := r.seen, nint := r.nint + 1 }) }) ∧
  (∀ (s : State) (r : HdrReader), s.job = some (.hdrRd r) → r.nint = 256 →
    exec .hdrInternal s = .next (s.raise .invalidFormat)) ∧
  (∀ (s : State) (w : Nat) (left right : Tree) (todo : List Tree),
    s.job = some (.hdrWr (.internal w left right :: todo)) →
    exec .hdrInternal s = .next
      { s with snk := s.snk ++ [false], job := some (.hdrWr (left :: right :: todo)) })

/-- R83, R93, R155, R156: read by `HDRRD` in progress, a leaf token with a reserved symbol or one seen before fails with
`InvalidFormat`; another completes every innermost open node whose left subtree is read, and what is then complete is
the left subtree of the next open node, or, when no node is open, the tree, which is left in `TREE` if the terminator
was seen and else fails. Written by `HDRWR` in progress, it is one bit 1 and nine bits of symbol. -/
def Obligations.LeafTokenIsReadAndWritten : Prop :=
  (∀ (s : State) (r : HdrReader) (sym : Symbol), s.job = some (.hdrRd r) → (256 < sym.toNat ∨ sym ∈ r.seen) →
    exec (.hdrLeaf sym) s = .next (s.raise .invalidFormat)) ∧
  (∀ (s : State) (r : HdrReader) (sym : Symbol) (lefts : List Tree) (frames : List (Option Tree)),
    s.job = some (.hdrRd r) → sym.toNat ≤ 256 → sym ∉ r.seen → r.frames = lefts.map some ++ none :: frames →
    exec (.hdrLeaf sym) s = .next
      { s with
        job := some (.hdrRd
          { frames := some (lefts.foldl (fun t left => .internal 0 left t) (.leaf sym 0)) :: frames,
            seen := sym :: r.seen, nint := r.nint }) }) ∧
  (∀ (s : State) (r : HdrReader) (sym : Symbol) (lefts : List Tree), s.job = some (.hdrRd r) → sym.toNat ≤ 256 →
    sym ∉ r.seen → r.frames = lefts.map some →
    exec (.hdrLeaf sym) s = .next
      (if sym = TERM ∨ TERM ∈ r.seen then
        { s with
          tree := some (lefts.foldl (fun t left => .internal 0 left t) (.leaf sym 0)), codeValid := false, cur := [],
          job := none }
       else s.raise .invalidFormat)) ∧
  (∀ (s : State) (w : Nat) (sym : Symbol) (todo : List Tree), s.job = some (.hdrWr (.leaf sym w :: todo)) →
    exec (.hdrLeaf sym) s = .next
      { s with
        snk := s.snk ++ true :: be 9 sym.toNat, job := if todo = [] then none else some (.hdrWr todo) })

/-- R86, R172, R193: read by `DECPAY` in progress from the root, the code of a byte's leaf writes that byte and returns
to the root; written by `ENCPAY` in progress, it is the code of the next byte of the source, in full. -/
def Obligations.PayloadTokenIsReadAndWritten : Prop :=
  (∀ (s : State) (t : Tree) (b : Byte) (p : Path), s.job = some .decPay → s.tree = some t → t.isLeaf = false →
    s.cur = [] → t.leafAt p (byteSymbol b) →
    exec (.payloadCode p) s = .next { s with snk := s.snk ++ be 8 b.toNat }) ∧
  (∀ (s : State) (t : Tree) (b : Byte) (p z : BitSeq), s.job = some .encPay → s.tree = some t → t.isLeaf = false →
    s.src.rest = be 8 b.toNat ++ z → s.code.get (byteSymbol b) = some p →
    exec (.payloadCode p) s = .next { s with snk := s.snk ++ p, src := s.src.skip 8 })

/-- R87, R174, R193, R195: read by `DECPAY` in progress from the root, the terminator's code writes nothing and
completes it; written by `ENCPAY` in progress at the end of the source, it completes it. With a singleton tree the code
is empty. -/
def Obligations.TerminatorTokenIsReadAndWritten : Prop :=
  (∀ (s : State) (t : Tree) (p : Path), s.job = some .decPay → s.tree = some t → s.cur = [] → t.leafAt p TERM →
    exec (.terminatorCode p) s = .next { s with job := none }) ∧
  (∀ (s : State) (t : Tree) (p : BitSeq), s.job = some .encPay → s.tree = some t → t.isLeaf = false →
    s.src.rest.length < 8 → s.code.get TERM = some p →
    exec (.terminatorCode p) s = .next { s with snk := s.snk ++ p, job := none }) ∧
  (∀ (s : State) (sym : Symbol) (w : Nat), s.job = some .encPay → s.tree = some (.leaf sym w) →
    s.src.rest.length < 8 → exec (.terminatorCode []) s = .next { s with job := none })

/-- R15, R98, R145, R160: each operation on the stream's tokens is the iteration of its token steps: from the state in
which the command has been accepted, stepping until `BUSY = 0` answers what the one atomic operation answers. -/
def Obligations.TokenStepsPerformOperation : Prop :=
  ∀ (s : State) (i : Instr), i ∈ [Instr.rdmagic, .hdrrd, .decpay, .wrmagic, .hdrwr, .encpay] → s.idle →
    s.hasNeeds i = true → s.port = [] → ∃ n : Nat, run n (s.accept i) = exec i s

/-! The bytes of the medium -/

/-- R59, R61: the collaborator's flush adds 0 to 7 zero bits and ends at a whole byte, and the bytes of the medium hold
exactly those bits. -/
def Obligations.FlushPadsToWholeBytes : Prop :=
  ∀ x : BitSeq, (∃ n, n < 8 ∧ flush x = x ++ List.replicate n false) ∧ (flush x).length % 8 = 0 ∧
    bytesToBits (packBytes (flush x)) = flush x
end

