-- ==== Sys2Proof/Laws/Bits.lean ====
section
/-!
SUPPORT. `be_n` and `val` are inverse to each other (spec/00_scope.md R11, spec/20_memory.md R57).
-/

namespace Sys2Proof

@[simp] theorem be_zero (v : Nat) : be 0 v = [] := rfl

@[simp] theorem be_length (n v : Nat) : (be n v).length = n := by
  induction n with
  | zero => rfl
  | succ n ih => simp [be, ih]

@[simp] theorem val_nil : val [] = 0 := rfl

theorem val_cons (b : Bool) (x : BitSeq) : val (b :: x) = b.toNat * 2 ^ x.length + val x := rfl

theorem val_lt (x : BitSeq) : val x < 2 ^ x.length := by
  induction x with
  | nil => simp
  | cons b x ih =>
    rw [val_cons, List.length_cons, pow_succ]
    cases b <;> simp <;> omega

/-- `be_n(v)` writes `v mod 2^n` (R55). -/
theorem val_be (n v : Nat) : val (be n v) = v % 2 ^ n := by
  induction n with
  | zero => simp [Nat.mod_one]
  | succ n ih =>
    rw [be, val_cons, ih, be_length, Nat.mod_pow_succ, Nat.testBit_eq_decide_div_mod_eq]
    by_cases h : v / 2 ^ n % 2 = 1
    · simp [h]; omega
    · have : v / 2 ^ n % 2 = 0 := by omega
      simp [this]

theorem val_be_of_lt {n v : Nat} (h : v < 2 ^ n) : val (be n v) = v := by
  rw [val_be, Nat.mod_eq_of_lt h]

/-- A bit sequence is what `be` writes for its value. -/
theorem be_val (x : BitSeq) : be x.length (val x) = x := by
  have key : ∀ (n : Nat) (u v : Nat), u % 2 ^ n = v % 2 ^ n → be n u = be n v := by
    intro n
    induction n with
    | zero => intros; rfl
    | succ n ih =>
      intro u v h
      have bit : u.testBit n = v.testBit n := by
        have := congrArg (fun k => Nat.testBit k n) h
        simpa [Nat.testBit_mod_two_pow] using this
      have low : u % 2 ^ n = v % 2 ^ n := by
        have := congrArg (· % 2 ^ n) h
        simpa [Nat.mod_mod_of_dvd _ (pow_dvd_pow 2 (Nat.le_succ n))] using this
      rw [be, be, bit, ih u v low]
  induction x with
  | nil => rfl
  | cons b x ih =>
    have hx := val_lt x
    rw [List.length_cons, be, val_cons]
    congr 1
    · rw [Nat.testBit_eq_decide_div_mod_eq, mul_comm, Nat.mul_add_div (by positivity), Nat.div_eq_of_lt hx]
      cases b <;> simp
    · rw [key x.length _ (val x) (by rw [mul_comm, Nat.mul_add_mod]), ih]

/-- `be_n` is determined by the value. -/
theorem be_injective {n u v : Nat} (hu : u < 2 ^ n) (hv : v < 2 ^ n) (h : be n u = be n v) : u = v := by
  rw [← val_be_of_lt hu, h, val_be_of_lt hv]

theorem ofNat_val_be {n : Nat} (v : BitVec n) : BitVec.ofNat n (val (be n v.toNat)) = v := by
  rw [val_be_of_lt v.isLt, BitVec.ofNat_toNat, BitVec.setWidth_eq]

/-- The inverse reading: the value of `n` bits, as a word, writes those bits again. -/
theorem be_toNat_ofNat_val {n : Nat} (x : BitSeq) (h : x.length = n) : be n (BitVec.ofNat n (val x)).toNat = x := by
  subst h
  rw [BitVec.toNat_ofNat, Nat.mod_eq_of_lt (val_lt x), be_val]

end Sys2Proof
end

