-- ==== Sys2Proof/Laws/Config.lean ====
section
/-!
SUPPORT. What holds of the width whatever it is (spec/00_scope.md R9, spec/40_frequency_counter.md R111).
-/

namespace Sys2Proof

theorem Config.one_le_countWidth : 1 ≤ Config.countWidth := by
  unfold Config.countWidth
  split <;> omega

/-- The root weight of the longest input is the greatest number of `W` bits. -/
theorem Config.maxInput_add_two : Config.maxInput + 2 = 2 ^ Config.countWidth := by
  have : 2 ^ 1 ≤ 2 ^ Config.countWidth := Nat.pow_le_pow_right (by decide) Config.one_le_countWidth
  unfold Config.maxInput
  omega

/-- With the default width the bound is the one the spec prints (R111). -/
theorem Config.maxInput_default (h : Config.widthBuilt = none) : Config.maxInput = 4294967294 := by
  simp [Config.maxInput, Config.countWidth, h]

end Sys2Proof
end

