-- ==== Sys2Proof/Laws/State.lean ====
section
/-!
SUPPORT. One lemma per field per update of the state, each true by definition, so that no later proof unfolds a record
update.
-/

namespace Sys2Proof.Machine

variable (s : State)

@[simp] theorem State.setSrc_cnt (r : Src) : (s.setSrc r).cnt = s.cnt := rfl
@[simp] theorem State.setSrc_cntValid (r : Src) : (s.setSrc r).cntValid = s.cntValid := rfl
@[simp] theorem State.setSrc_tree (r : Src) : (s.setSrc r).tree = s.tree := rfl
@[simp] theorem State.setSrc_code (r : Src) : (s.setSrc r).code = s.code := rfl
@[simp] theorem State.setSrc_codeValid (r : Src) : (s.setSrc r).codeValid = s.codeValid := rfl
@[simp] theorem State.setSrc_cur (r : Src) : (s.setSrc r).cur = s.cur := rfl
@[simp] theorem State.setSrc_err (r : Src) : (s.setSrc r).err = s.err := rfl
@[simp] theorem State.setSrc_job (r : Src) : (s.setSrc r).job = s.job := rfl
@[simp] theorem State.setSrc_src (r : Src) : (s.setSrc r).src = r := rfl
@[simp] theorem State.setSrc_snk (r : Src) : (s.setSrc r).snk = s.snk := rfl
@[simp] theorem State.setSrc_port (r : Src) : (s.setSrc r).port = s.port := rfl

@[simp] theorem State.writeSeq_cnt (x : BitSeq) : (s.writeSeq x).cnt = s.cnt := rfl
@[simp] theorem State.writeSeq_cntValid (x : BitSeq) : (s.writeSeq x).cntValid = s.cntValid := rfl
@[simp] theorem State.writeSeq_tree (x : BitSeq) : (s.writeSeq x).tree = s.tree := rfl
@[simp] theorem State.writeSeq_code (x : BitSeq) : (s.writeSeq x).code = s.code := rfl
@[simp] theorem State.writeSeq_codeValid (x : BitSeq) : (s.writeSeq x).codeValid = s.codeValid := rfl
@[simp] theorem State.writeSeq_cur (x : BitSeq) : (s.writeSeq x).cur = s.cur := rfl
@[simp] theorem State.writeSeq_err (x : BitSeq) : (s.writeSeq x).err = s.err := rfl
@[simp] theorem State.writeSeq_job (x : BitSeq) : (s.writeSeq x).job = s.job := rfl
@[simp] theorem State.writeSeq_src (x : BitSeq) : (s.writeSeq x).src = s.src := rfl
@[simp] theorem State.writeSeq_snk (x : BitSeq) : (s.writeSeq x).snk = s.snk ++ x := rfl
@[simp] theorem State.writeSeq_port (x : BitSeq) : (s.writeSeq x).port = s.port := rfl

@[simp] theorem State.setJob_cnt (j : Option Job) : (s.setJob j).cnt = s.cnt := rfl
@[simp] theorem State.setJob_cntValid (j : Option Job) : (s.setJob j).cntValid = s.cntValid := rfl
@[simp] theorem State.setJob_tree (j : Option Job) : (s.setJob j).tree = s.tree := rfl
@[simp] theorem State.setJob_code (j : Option Job) : (s.setJob j).code = s.code := rfl
@[simp] theorem State.setJob_codeValid (j : Option Job) : (s.setJob j).codeValid = s.codeValid := rfl
@[simp] theorem State.setJob_cur (j : Option Job) : (s.setJob j).cur = s.cur := rfl
@[simp] theorem State.setJob_err (j : Option Job) : (s.setJob j).err = s.err := rfl
@[simp] theorem State.setJob_job (j : Option Job) : (s.setJob j).job = j := rfl
@[simp] theorem State.setJob_src (j : Option Job) : (s.setJob j).src = s.src := rfl
@[simp] theorem State.setJob_snk (j : Option Job) : (s.setJob j).snk = s.snk := rfl
@[simp] theorem State.setJob_port (j : Option Job) : (s.setJob j).port = s.port := rfl

@[simp] theorem State.setCur_cnt (p : Path) : (s.setCur p).cnt = s.cnt := rfl
@[simp] theorem State.setCur_cntValid (p : Path) : (s.setCur p).cntValid = s.cntValid := rfl
@[simp] theorem State.setCur_tree (p : Path) : (s.setCur p).tree = s.tree := rfl
@[simp] theorem State.setCur_code (p : Path) : (s.setCur p).code = s.code := rfl
@[simp] theorem State.setCur_codeValid (p : Path) : (s.setCur p).codeValid = s.codeValid := rfl
@[simp] theorem State.setCur_cur (p : Path) : (s.setCur p).cur = p := rfl
@[simp] theorem State.setCur_err (p : Path) : (s.setCur p).err = s.err := rfl
@[simp] theorem State.setCur_job (p : Path) : (s.setCur p).job = s.job := rfl
@[simp] theorem State.setCur_src (p : Path) : (s.setCur p).src = s.src := rfl
@[simp] theorem State.setCur_snk (p : Path) : (s.setCur p).snk = s.snk := rfl
@[simp] theorem State.setCur_port (p : Path) : (s.setCur p).port = s.port := rfl

@[simp] theorem State.raise_cnt (k : ErrorKind) : (s.raise k).cnt = s.cnt := rfl
@[simp] theorem State.raise_cntValid (k : ErrorKind) : (s.raise k).cntValid = false := rfl
@[simp] theorem State.raise_tree (k : ErrorKind) : (s.raise k).tree = none := rfl
@[simp] theorem State.raise_code (k : ErrorKind) : (s.raise k).code = CodeTable.absent := rfl
@[simp] theorem State.raise_codeValid (k : ErrorKind) : (s.raise k).codeValid = false := rfl
@[simp] theorem State.raise_cur (k : ErrorKind) : (s.raise k).cur = [] := rfl
@[simp] theorem State.raise_err (k : ErrorKind) : (s.raise k).err = some k := rfl
@[simp] theorem State.raise_job (k : ErrorKind) : (s.raise k).job = none := rfl
@[simp] theorem State.raise_src (k : ErrorKind) : (s.raise k).src = s.src := rfl
@[simp] theorem State.raise_snk (k : ErrorKind) : (s.raise k).snk = s.snk := rfl
@[simp] theorem State.raise_port (k : ErrorKind) : (s.raise k).port = s.port := rfl

@[simp] theorem State.clearBlock_cnt : (s.clearBlock).cnt = CountTable.zero := rfl
@[simp] theorem State.clearBlock_cntValid : (s.clearBlock).cntValid = false := rfl
@[simp] theorem State.clearBlock_tree : (s.clearBlock).tree = none := rfl
@[simp] theorem State.clearBlock_code : (s.clearBlock).code = CodeTable.absent := rfl
@[simp] theorem State.clearBlock_codeValid : (s.clearBlock).codeValid = false := rfl
@[simp] theorem State.clearBlock_cur : (s.clearBlock).cur = [] := rfl
@[simp] theorem State.clearBlock_err : (s.clearBlock).err = none := rfl
@[simp] theorem State.clearBlock_job : (s.clearBlock).job = none := rfl
@[simp] theorem State.clearBlock_src : (s.clearBlock).src = s.src := rfl
@[simp] theorem State.clearBlock_snk : (s.clearBlock).snk = s.snk := rfl
@[simp] theorem State.clearBlock_port : (s.clearBlock).port = s.port := rfl

@[simp] theorem State.setCounts_cnt (c : CountTable) : (s.setCounts c).cnt = c := rfl
@[simp] theorem State.setCounts_cntValid (c : CountTable) : (s.setCounts c).cntValid = true := rfl
@[simp] theorem State.setCounts_tree (c : CountTable) : (s.setCounts c).tree = none := rfl
@[simp] theorem State.setCounts_code (c : CountTable) : (s.setCounts c).code = s.code := rfl
@[simp] theorem State.setCounts_codeValid (c : CountTable) : (s.setCounts c).codeValid = false := rfl
@[simp] theorem State.setCounts_cur (c : CountTable) : (s.setCounts c).cur = s.cur := rfl
@[simp] theorem State.setCounts_err (c : CountTable) : (s.setCounts c).err = s.err := rfl
@[simp] theorem State.setCounts_job (c : CountTable) : (s.setCounts c).job = s.job := rfl
@[simp] theorem State.setCounts_src (c : CountTable) : (s.setCounts c).src = s.src := rfl
@[simp] theorem State.setCounts_snk (c : CountTable) : (s.setCounts c).snk = s.snk := rfl
@[simp] theorem State.setCounts_port (c : CountTable) : (s.setCounts c).port = s.port := rfl

@[simp] theorem State.setBuilt_cnt (t : Option Tree) : (s.setBuilt t).cnt = s.cnt := rfl
@[simp] theorem State.setBuilt_cntValid (t : Option Tree) : (s.setBuilt t).cntValid = s.cntValid := rfl
@[simp] theorem State.setBuilt_tree (t : Option Tree) : (s.setBuilt t).tree = t := rfl
@[simp] theorem State.setBuilt_code (t : Option Tree) : (s.setBuilt t).code = s.code := rfl
@[simp] theorem State.setBuilt_codeValid (t : Option Tree) : (s.setBuilt t).codeValid = false := rfl
@[simp] theorem State.setBuilt_cur (t : Option Tree) : (s.setBuilt t).cur = s.cur := rfl
@[simp] theorem State.setBuilt_err (t : Option Tree) : (s.setBuilt t).err = s.err := rfl
@[simp] theorem State.setBuilt_job (t : Option Tree) : (s.setBuilt t).job = s.job := rfl
@[simp] theorem State.setBuilt_src (t : Option Tree) : (s.setBuilt t).src = s.src := rfl
@[simp] theorem State.setBuilt_snk (t : Option Tree) : (s.setBuilt t).snk = s.snk := rfl
@[simp] theorem State.setBuilt_port (t : Option Tree) : (s.setBuilt t).port = s.port := rfl

@[simp] theorem State.setCodes_cnt (c : CodeTable) : (s.setCodes c).cnt = s.cnt := rfl
@[simp] theorem State.setCodes_cntValid (c : CodeTable) : (s.setCodes c).cntValid = s.cntValid := rfl
@[simp] theorem State.setCodes_tree (c : CodeTable) : (s.setCodes c).tree = s.tree := rfl
@[simp] theorem State.setCodes_code (c : CodeTable) : (s.setCodes c).code = c := rfl
@[simp] theorem State.setCodes_codeValid (c : CodeTable) : (s.setCodes c).codeValid = true := rfl
@[simp] theorem State.setCodes_cur (c : CodeTable) : (s.setCodes c).cur = s.cur := rfl
@[simp] theorem State.setCodes_err (c : CodeTable) : (s.setCodes c).err = s.err := rfl
@[simp] theorem State.setCodes_job (c : CodeTable) : (s.setCodes c).job = s.job := rfl
@[simp] theorem State.setCodes_src (c : CodeTable) : (s.setCodes c).src = s.src := rfl
@[simp] theorem State.setCodes_snk (c : CodeTable) : (s.setCodes c).snk = s.snk := rfl
@[simp] theorem State.setCodes_port (c : CodeTable) : (s.setCodes c).port = s.port := rfl

@[simp] theorem State.setRead_cnt (t : Tree) : (s.setRead t).cnt = s.cnt := rfl
@[simp] theorem State.setRead_cntValid (t : Tree) : (s.setRead t).cntValid = s.cntValid := rfl
@[simp] theorem State.setRead_tree (t : Tree) : (s.setRead t).tree = some t := rfl
@[simp] theorem State.setRead_code (t : Tree) : (s.setRead t).code = s.code := rfl
@[simp] theorem State.setRead_codeValid (t : Tree) : (s.setRead t).codeValid = false := rfl
@[simp] theorem State.setRead_cur (t : Tree) : (s.setRead t).cur = [] := rfl
@[simp] theorem State.setRead_err (t : Tree) : (s.setRead t).err = s.err := rfl
@[simp] theorem State.setRead_job (t : Tree) : (s.setRead t).job = s.job := rfl
@[simp] theorem State.setRead_src (t : Tree) : (s.setRead t).src = s.src := rfl
@[simp] theorem State.setRead_snk (t : Tree) : (s.setRead t).snk = s.snk := rfl
@[simp] theorem State.setRead_port (t : Tree) : (s.setRead t).port = s.port := rfl

/-- Clearing the block gives the reset state but for the streams and the command port (R37, R250, R252). -/
theorem State.clearBlock_eq :
    s.clearBlock = { State.reset with src := s.src, snk := s.snk, port := s.port } := rfl

/-- Two writes are one. -/
theorem State.writeSeq_writeSeq (x y : BitSeq) : (s.writeSeq x).writeSeq y = s.writeSeq (x ++ y) := by
  simp [State.writeSeq]

@[simp] theorem State.writeSeq_nil : s.writeSeq [] = s := by
  simp [State.writeSeq]

@[simp] theorem State.setSrc_self : s.setSrc s.src = s := rfl

/-- Moving the source commutes with a write: the two streams are distinct (R51). -/
theorem State.writeSeq_setSrc (x : BitSeq) (r : Src) : (s.setSrc r).writeSeq x = (s.writeSeq x).setSrc r := rfl

@[simp] theorem State.setSrc_setSrc (r r' : Src) : (s.setSrc r).setSrc r' = s.setSrc r' := rfl

@[simp] theorem State.setJob_setJob (j j' : Option Job) : (s.setJob j).setJob j' = s.setJob j' := rfl

@[simp] theorem State.setCur_setCur (p p' : Path) : (s.setCur p).setCur p' = s.setCur p' := rfl

end Sys2Proof.Machine
end

