-- ==== Sys2Proof/Laws/Control.lean ====
section
/-!
SUPPORT. What accepting, refusing and sequencing can do, said once (spec/30_encoding.md R98, spec/60_exceptions.md R231,
R233).
-/

namespace Sys2Proof.Machine

variable {i : Instr} {s s' : State} {o : Result} {f : State → Result}

theorem guarded_ready (hb : s.job = none) (hr : s.ready i = true) : guarded i s o = o := by
  simp [guarded, State.busy, hb, hr]

theorem guarded_notReady (hb : s.job = none) (hr : s.ready i = false) : guarded i s o = .refused .needsState := by
  simp [guarded, State.busy, hb, hr]

theorem guarded_busy {j : Job} (hb : s.job = some j) : guarded i s o = .refused .badCommand := by
  simp [guarded, State.busy, hb]

/-- A command that answers a next state was accepted (R231, R233). -/
theorem guarded_next (h : guarded i s o = .next s') : s.job = none ∧ s.ready i = true ∧ o = .next s' := by
  unfold guarded State.busy at h
  split at h
  · cases h
  · split at h
    · exact ⟨by simpa using ‹¬s.job.isSome = true›, ‹_›, h⟩
    · cases h

/-- A command that is refused. -/
theorem guarded_refused {r : Refusal} (h : guarded i s o = .refused r) :
    (s.job.isSome ∧ r = .badCommand) ∨ (s.job = none ∧ s.ready i = false ∧ r = .needsState) ∨
      (s.job = none ∧ s.ready i = true ∧ o = .refused r) := by
  unfold guarded State.busy at h
  split at h
  · cases h; exact .inl ⟨‹_›, rfl⟩
  · have hj : s.job = none := by simpa using ‹¬s.job.isSome = true›
    split at h
    · exact .inr (.inr ⟨hj, ‹_›, h⟩)
    · cases h; exact .inr (.inl ⟨hj, by simpa using ‹¬s.ready i = true›, rfl⟩)

theorem guarded_fault {r : Fault} (h : guarded i s o = .fault r) : o = .fault r := by
  unfold guarded at h
  split at h
  · cases h
  · split at h
    · exact h
    · cases h

theorem thenDo_ok (h : s.err = none) : thenDo (.next s) f = f s := by simp [thenDo, h]

theorem thenDo_failed {k : ErrorKind} (h : s.err = some k) : thenDo (.next s) f = .next s := by simp [thenDo, h]

@[simp] theorem thenDo_refused (r : Refusal) : thenDo (.refused r) f = .refused r := rfl

@[simp] theorem thenDo_fault (r : Fault) : thenDo (.fault r) f = .fault r := rfl

/-- A sequence that answers a next state either stopped at a failure or performed its second part (R98, R224). -/
theorem thenDo_next (h : thenDo o f = .next s') :
    ∃ s, o = .next s ∧ ((s.err.isSome ∧ s' = s) ∨ (s.err = none ∧ f s = .next s')) := by
  cases o with
  | next s =>
    refine ⟨s, rfl, ?_⟩
    unfold thenDo at h
    dsimp only at h
    split at h
    · cases h; exact .inl ⟨‹_›, rfl⟩
    · exact .inr ⟨by simpa using ‹¬s.err.isSome = true›, h⟩
  | fault r => cases h
  | refused r => cases h

theorem thenDo_refused_inv {r : Refusal} (h : thenDo o f = .refused r) :
    o = .refused r ∨ ∃ s, o = .next s ∧ s.err = none ∧ f s = .refused r := by
  cases o with
  | next s =>
    unfold thenDo at h
    dsimp only at h
    split at h
    · cases h
    · exact .inr ⟨s, rfl, by simpa using ‹¬s.err.isSome = true›, h⟩
  | fault r => cases h
  | refused r => cases h; exact .inl rfl

theorem thenDo_fault_inv {r : Fault} (h : thenDo o f = .fault r) :
    o = .fault r ∨ ∃ s, o = .next s ∧ s.err = none ∧ f s = .fault r := by
  cases o with
  | next s =>
    unfold thenDo at h
    dsimp only at h
    split at h
    · cases h
    · exact .inr ⟨s, rfl, by simpa using ‹¬s.err.isSome = true›, h⟩
  | fault r => cases h; exact .inl rfl
  | refused r => cases h

/-- The preconditions of a command that needs no validity bit, in an idle block that has not failed. -/
theorem State.ready_of_err_none (he : s.err = none) (hn : s.hasNeeds i = true) : s.ready i = true := by
  simp [State.ready, he, hn]

end Sys2Proof.Machine
end

