-- ==== Sys2Proof/Laws/Streams.lean ====
section
/-!
SUPPORT. What the stream primitives can do, said once (spec/20_memory.md R50 to R57).
-/

namespace Sys2Proof.Machine

@[simp] theorem Src.skip_bits (n : Nat) (r : Src) : (r.skip n).bits = r.bits := rfl
@[simp] theorem Src.skip_pos (n : Nat) (r : Src) : (r.skip n).pos = r.pos + n := rfl
@[simp] theorem Src.skip_zero (r : Src) : r.skip 0 = r := rfl
@[simp] theorem Src.rewind_bits (r : Src) : r.rewind.bits = r.bits := rfl
@[simp] theorem Src.rewind_pos (r : Src) : r.rewind.pos = 0 := rfl

theorem Src.skip_skip (m n : Nat) (r : Src) : (r.skip m).skip n = r.skip (m + n) := by
  simp [Src.skip, Nat.add_assoc]

theorem Src.rest_length (r : Src) : r.rest.length = r.bits.length - r.pos := by simp [Src.rest]

theorem Src.rest_skip (n : Nat) (r : Src) : (r.skip n).rest = r.rest.drop n := by
  simp [Src.rest, Nat.add_comm]

/-- A read with at least `n` bits left (R52). -/
theorem Src.readBits_of_le {n : Nat} {r : Src} (h : n ≤ r.rest.length) :
    r.readBits n = (some (val (r.rest.take n)), r.skip n) := by
  rw [Src.rest_length] at h
  simp [Src.readBits, h, Src.skip]

/-- A read with fewer than `n` bits left returns `END` and does not move the position (R53). -/
theorem Src.readBits_of_lt {n : Nat} {r : Src} (h : r.rest.length < n) : r.readBits n = (none, r) := by
  rw [Src.rest_length] at h
  simp [Src.readBits, Nat.not_le.mpr h]

/-- Everything a read can do (R52, R53). -/
theorem Src.readBits_cases (n : Nat) (r : Src) :
    (n ≤ r.rest.length ∧ r.readBits n = (some (val (r.rest.take n)), r.skip n)) ∨
      (r.rest.length < n ∧ r.readBits n = (none, r)) := by
  rcases Nat.lt_or_ge r.rest.length n with h | h
  · exact .inr ⟨h, Src.readBits_of_lt h⟩
  · exact .inl ⟨h, Src.readBits_of_le h⟩

/-- Reading is the mirror of writing (R57). -/
theorem Src.readBits_be {n v : Nat} {r : Src} {z : BitSeq} (h : r.rest = be n v ++ z) :
    r.readBits n = (some (v % 2 ^ n), r.skip n) := by
  rw [Src.readBits_of_le (by simp [h]), h, List.take_left' (be_length n v), val_be]

theorem Src.rest_skip_append {x z : BitSeq} {r : Src} (h : r.rest = x ++ z) : (r.skip x.length).rest = z := by
  rw [Src.rest_skip, h, List.drop_left]

theorem Src.readBits_bits (n : Nat) (r : Src) : (r.readBits n).2.bits = r.bits := by
  rcases r.readBits_cases n with ⟨-, h⟩ | ⟨-, h⟩ <;> simp [h]

/-- A read never moves the position past the end (R50). -/
theorem Src.readBits_inRange (n : Nat) {r : Src} (h : r.pos ≤ r.bits.length) :
    (r.readBits n).2.pos ≤ (r.readBits n).2.bits.length := by
  rcases r.readBits_cases n with ⟨hn, e⟩ | ⟨-, e⟩
  · rw [Src.rest_length] at hn
    simp [e]
    omega
  · simpa [e] using h

/-- A bit read. -/
theorem Src.readBits_one_cons {b : Bool} {z : BitSeq} {r : Src} (h : r.rest = b :: z) :
    r.readBits 1 = (some b.toNat, r.skip 1) := by
  rw [Src.readBits_of_le (by simp [h]), h]
  simp [val]

theorem Src.readBits_one_nil {r : Src} (h : r.rest = []) : r.readBits 1 = (none, r) :=
  Src.readBits_of_lt (by simp [h])

@[simp] theorem bytesToBits_nil : bytesToBits [] = [] := rfl

theorem bytesToBits_cons (b : Byte) (l : List Byte) : bytesToBits (b :: l) = be 8 b.toNat ++ bytesToBits l := rfl

theorem bytesToBits_append (l m : List Byte) : bytesToBits (l ++ m) = bytesToBits l ++ bytesToBits m := by
  simp [bytesToBits]

@[simp] theorem bytesToBits_length (l : List Byte) : (bytesToBits l).length = 8 * l.length := by
  induction l with
  | nil => rfl
  | cons b l ih => simp [bytesToBits_cons, ih]; omega

/-- A byte read. -/
theorem readByte_cons {b : Byte} {z : BitSeq} {r : Src} (h : r.rest = be 8 b.toNat ++ z) :
    readByte r = (some b, r.skip 8) := by
  simp [readByte, Src.readBits_be h, Nat.mod_eq_of_lt b.isLt]

/-- The end of a byte source: fewer than 8 bits are left (R53, R110). -/
theorem readByte_end {r : Src} (h : r.rest.length < 8) : readByte r = (none, r) := by
  simp [readByte, Src.readBits_of_lt h]

/-- Every source is some bytes and then fewer than 8 bits. -/
theorem exists_bytes : ∀ x : BitSeq, ∃ (l : List Byte) (tail : BitSeq), x = bytesToBits l ++ tail ∧ tail.length < 8
  | a :: b :: c :: d :: e :: f :: g :: h :: x => by
    obtain ⟨l, tail, hx, ht⟩ := exists_bytes x
    refine ⟨BitVec.ofNat 8 (val [a, b, c, d, e, f, g, h]) :: l, tail, ?_, ht⟩
    rw [bytesToBits_cons, be_toNat_ofNat_val (n := 8) [a, b, c, d, e, f, g, h] rfl, hx]
    simp
  | [] => ⟨[], [], by simp⟩
  | [a] => ⟨[], [a], by simp⟩
  | [a, b] => ⟨[], [a, b], by simp⟩
  | [a, b, c] => ⟨[], [a, b, c], by simp⟩
  | [a, b, c, d] => ⟨[], [a, b, c, d], by simp⟩
  | [a, b, c, d, e] => ⟨[], [a, b, c, d, e], by simp⟩
  | [a, b, c, d, e, f] => ⟨[], [a, b, c, d, e, f], by simp⟩
  | [a, b, c, d, e, f, g] => ⟨[], [a, b, c, d, e, f, g], by simp⟩

theorem Src.bytesLeft_eq {l : List Byte} {tail : BitSeq} {r : Src} (h : r.rest = bytesToBits l ++ tail)
    (ht : tail.length < 8) : r.bytesLeft = l.length := by
  have := r.rest_length
  rw [h, List.length_append, bytesToBits_length] at this
  rw [Src.bytesLeft, ← this]
  omega

end Sys2Proof.Machine
end

