-- ==== Sys2Proof/Laws/Counter.lean ====
section
/-!
SUPPORT. What the loop of `COUNT` does (spec/40_frequency_counter.md R110).
-/

namespace Sys2Proof.Machine

@[simp] theorem withinWidth_iff (n : Nat) : withinWidth n = true ↔ n ≤ Config.maxInput := by
  cases n <;> simp [withinWidth]

@[simp] theorem CountTable.get_zero (v : Byte) : CountTable.zero.get v = 0 := by
  simp [CountTable.get, CountTable.zero]

theorem CountTable.get_bump (t : CountTable) (u v : Byte) :
    (t.bump u).get v = t.get v + if u = v then 1 else 0 := by
  unfold CountTable.bump CountTable.get
  rw [Vector.getElem_set]
  by_cases h : u = v
  · subst h; simp
  · have : u.toNat ≠ v.toNat := fun e => h (BitVec.eq_of_toNat_eq e)
    simp [h, this]

/-- Two count tables with the same 256 entries are equal. -/
theorem CountTable.ext {t t' : CountTable} (h : ∀ v : Byte, t.get v = t'.get v) : t = t' := by
  apply Vector.ext
  intro i hi
  have := h (BitVec.ofNat 8 i)
  simpa [CountTable.get, Nat.mod_eq_of_lt hi] using this

theorem CountTable.get_foldl_bump (l : List Byte) (t : CountTable) (v : Byte) :
    (l.foldl CountTable.bump t).get v = t.get v + l.count v := by
  induction l generalizing t with
  | nil => simp
  | cons b l ih => rw [List.foldl_cons, ih, CountTable.get_bump, List.count_cons]; simp; split <;> omega

/-- The loop reads all the bytes and tallies each; it never runs out of fuel (R110, R265). -/
theorem countLoop_eq (l : List Byte) {tail : BitSeq} {r : Src} {fuel : Nat} (t : CountTable)
    (h : r.rest = bytesToBits l ++ tail) (ht : tail.length < 8) (hf : l.length < fuel) :
    countLoop fuel t r = (l.foldl CountTable.bump t, r.skip (8 * l.length)) := by
  induction l generalizing r fuel t with
  | nil =>
    cases fuel with
    | zero => omega
    | succ fuel => simp [countLoop, readByte_end (r := r) (by rw [h]; simpa using ht)]
  | cons b l ih =>
    cases fuel with
    | zero => omega
    | succ fuel =>
      have hb : r.rest = be 8 b.toNat ++ (bytesToBits l ++ tail) := by rw [h, bytesToBits_cons, List.append_assoc]
      have hr : (r.skip 8).rest = bytesToBits l ++ tail := by simpa using Src.rest_skip_append hb
      rw [countLoop, readByte_cons hb]
      simp only
      rw [ih _ hr (by simpa using hf), List.foldl_cons, Src.skip_skip, List.length_cons]
      congr 2
      omega

end Sys2Proof.Machine
end

