-- ==== Sys2Proof/Laws/Trees.lean ====
section
/-!
SUPPORT. Trees, their leaves and the nodes at paths (spec/00_scope.md R10, R14, spec/10_state.md R24).
-/

namespace Sys2Proof.Machine

@[simp] theorem Tree.weight_leaf (s : Symbol) (w : Nat) : (Tree.leaf s w).weight = w := rfl
@[simp] theorem Tree.weight_internal (w : Nat) (l r : Tree) : (Tree.internal w l r).weight = w := rfl

@[simp] theorem Tree.nodeAt_nil (t : Tree) : t.nodeAt [] = some t := by cases t <;> rfl

@[simp] theorem Tree.nodeAt_leaf_cons (s : Symbol) (w : Nat) (b : Bool) (p : Path) :
    (Tree.leaf s w).nodeAt (b :: p) = none := rfl

theorem Tree.nodeAt_internal_cons (w : Nat) (l r : Tree) (b : Bool) (p : Path) :
    (Tree.internal w l r).nodeAt (b :: p) = (Tree.child b l r).nodeAt p := by cases b <;> rfl

@[simp] theorem Tree.child_false (l r : Tree) : Tree.child false l r = l := rfl
@[simp] theorem Tree.child_true (l r : Tree) : Tree.child true l r = r := rfl

theorem Tree.child_eq_ite (b : Bool) (l r : Tree) : Tree.child b l r = if b then r else l := by cases b <;> rfl

/-- A path is followed one part after the other. -/
theorem Tree.nodeAt_append (t : Tree) (p q : Path) : t.nodeAt (p ++ q) = (t.nodeAt p).bind fun u => u.nodeAt q := by
  induction p generalizing t with
  | nil => simp
  | cons b p ih =>
    cases t with
    | leaf s w => rfl
    | internal w l r => rw [List.cons_append, Tree.nodeAt_internal_cons, Tree.nodeAt_internal_cons, ih]

theorem Tree.nodeAt_snoc {t l r : Tree} {w : Nat} {p : Path} (h : t.nodeAt p = some (.internal w l r)) (b : Bool) :
    t.nodeAt (p ++ [b]) = some (Tree.child b l r) := by
  simp [Tree.nodeAt_append, h, Tree.nodeAt_internal_cons]

@[simp] theorem Tree.leafAt_leaf (s s' : Symbol) (w : Nat) (p : Path) :
    (Tree.leaf s w).leafAt p s' ↔ p = [] ∧ s' = s := by
  cases p with
  | nil => simp [Tree.leafAt, eq_comm]
  | cons b p => simp [Tree.leafAt]

theorem Tree.leafAt_internal (w : Nat) (l r : Tree) (p : Path) (s : Symbol) :
    (Tree.internal w l r).leafAt p s ↔ ∃ b q, p = b :: q ∧ (Tree.child b l r).leafAt q s := by
  cases p with
  | nil => simp [Tree.leafAt]
  | cons b p => simp [Tree.leafAt, Tree.nodeAt_internal_cons]

theorem Tree.leaves_ne_nil (t : Tree) : t.leaves ≠ [] := by
  induction t with
  | leaf s w => simp [Tree.leaves]
  | internal w l r ihl _ => simp [Tree.leaves, ihl]

/-- The symbols found at paths are the leaves. -/
theorem Tree.mem_leaves (t : Tree) (s : Symbol) : s ∈ t.leaves ↔ ∃ p, t.leafAt p s := by
  induction t with
  | leaf s' w => simp [Tree.leaves]
  | internal w l r ihl ihr =>
    simp only [Tree.leaves, List.mem_append, ihl, ihr, Tree.leafAt_internal]
    constructor
    · rintro (⟨p, h⟩ | ⟨p, h⟩)
      · exact ⟨_, false, p, rfl, h⟩
      · exact ⟨_, true, p, rfl, h⟩
    · rintro ⟨_, b, p, rfl, h⟩
      cases b
      · exact .inl ⟨p, h⟩
      · exact .inr ⟨p, h⟩

/-- With distinct leaf symbols, a symbol stands at one path only (R141). -/
theorem Tree.leafAt_unique {t : Tree} (hn : t.leaves.Nodup) {s : Symbol} {p q : Path} (hp : t.leafAt p s)
    (hq : t.leafAt q s) : p = q := by
  induction t generalizing p q with
  | leaf s' w =>
    rw [Tree.leafAt_leaf] at hp hq
    rw [hp.1, hq.1]
  | internal w l r ihl ihr =>
    rw [Tree.leafAt_internal] at hp hq
    obtain ⟨b, p, rfl, hp⟩ := hp
    obtain ⟨c, q, rfl, hq⟩ := hq
    rw [Tree.leaves, List.nodup_append] at hn
    have ml := (l.mem_leaves s).mpr
    have mr := (r.mem_leaves s).mpr
    cases b <;> cases c <;> simp only [Tree.child_false, Tree.child_true] at hp hq
    · rw [ihl hn.1 hp hq]
    · exact absurd rfl (hn.2.2 s (ml ⟨p, hp⟩) s (mr ⟨q, hq⟩))
    · exact absurd rfl (hn.2.2 s (ml ⟨q, hq⟩) s (mr ⟨p, hp⟩))
    · rw [ihr hn.2.1 hp hq]

/-- No leaf lies on the path to another (R144 (b)). -/
theorem Tree.leafAt_prefix {t : Tree} {a b : Symbol} {p q : Path} (hp : t.leafAt p a) (hq : t.leafAt q b)
    (h : p <+: q) : p = q ∧ a = b := by
  obtain ⟨z, rfl⟩ := h
  obtain ⟨w, hw⟩ := hp
  obtain ⟨w', hw'⟩ := hq
  rw [Tree.nodeAt_append, hw, Option.bind_some] at hw'
  cases z with
  | nil => simp at hw'; exact ⟨by simp, hw'.1⟩
  | cons c z => simp at hw'

theorem Tree.length_leaves (t : Tree) : t.leaves.length = t.internals + 1 := by
  induction t with
  | leaf s w => rfl
  | internal w l r ihl ihr => simp [Tree.leaves, Tree.internals, ihl, ihr]; omega

theorem Tree.depth_le_internals (t : Tree) : t.depth ≤ t.internals := by
  induction t with
  | leaf s w => simp [Tree.depth]
  | internal w l r ihl ihr => simp only [Tree.depth, Tree.internals]; omega

theorem Tree.length_le_depth {t u : Tree} {p : Path} (h : t.nodeAt p = some u) : p.length + u.depth ≤ t.depth := by
  induction t generalizing p with
  | leaf s w =>
    cases p with
    | nil => simp at h; subst h; simp
    | cons b p => simp at h
  | internal w l r ihl ihr =>
    cases p with
    | nil => simp at h; subst h; simp
    | cons b p =>
      rw [Tree.nodeAt_internal_cons] at h
      cases b
      · have := ihl h; simp only [List.length_cons, Tree.depth]; omega
      · have := ihr h; simp only [List.length_cons, Tree.depth]; omega

/-- Distinct symbols in 0..256 are at most 257 (R24). -/
theorem Tree.Valid.length_leaves_le {t : Tree} (h : t.Valid) : t.leaves.length ≤ 257 := by
  have hn : (t.leaves.map BitVec.toNat).Nodup := h.2.1.map fun a b e => BitVec.eq_of_toNat_eq e
  have hs : t.leaves.map BitVec.toNat ⊆ List.range 257 := by
    intro x hx
    obtain ⟨s, hs, rfl⟩ := List.mem_map.mp hx
    exact List.mem_range.mpr (Nat.lt_succ_of_le (h.2.2 s hs))
  simpa using (hn.subperm hs).length_le

theorem Tree.Valid.internals_le {t : Tree} (h : t.Valid) : t.internals ≤ 256 := by
  have := h.length_leaves_le
  rw [Tree.length_leaves] at this
  omega

theorem Tree.Valid.depth_le {t : Tree} (h : t.Valid) : t.depth ≤ 256 := t.depth_le_internals.trans h.internals_le

theorem Tree.Valid.term_mem {t : Tree} (h : t.Valid) : TERM ∈ t.leaves :=
  List.count_pos_iff.mp (h.1.symm ▸ Nat.one_pos)

/-- A tree with distinct leaf symbols in 0..256, one of them the terminator, is valid (R24). -/
theorem Tree.valid_of {t : Tree} (hn : t.leaves.Nodup) (hr : ∀ s ∈ t.leaves, s.toNat ≤ 256) (ht : TERM ∈ t.leaves) :
    t.Valid :=
  ⟨List.count_eq_one_of_mem hn ht, hn, hr⟩

@[simp] theorem Tree.shape_leaves (t : Tree) : t.shape.leaves = t.leaves := by
  induction t with
  | leaf s w => rfl
  | internal w l r ihl ihr => simp [Tree.shape, Tree.leaves, ihl, ihr]

@[simp] theorem Tree.shape_shape (t : Tree) : t.shape.shape = t.shape := by
  induction t with
  | leaf s w => rfl
  | internal w l r ihl ihr => simp [Tree.shape, ihl, ihr]

theorem Tree.shape_valid {t : Tree} : t.shape.Valid ↔ t.Valid := by simp [Tree.Valid]

/-- A node of the shape is the shape of the node. -/
theorem Tree.shape_nodeAt (t : Tree) (p : Path) : t.shape.nodeAt p = (t.nodeAt p).map Tree.shape := by
  induction t generalizing p with
  | leaf s w => cases p <;> simp [Tree.shape]
  | internal w l r ihl ihr =>
    cases p with
    | nil => simp
    | cons b p => cases b <;> simp [Tree.shape, Tree.nodeAt, ihl, ihr]

@[simp] theorem Tree.shape_leafAt (t : Tree) (p : Path) (s : Symbol) : t.shape.leafAt p s ↔ t.leafAt p s := by
  simp only [Tree.leafAt, Tree.shape_nodeAt, Option.map_eq_some_iff]
  constructor
  · rintro ⟨w, u, hu, e⟩
    cases u with
    | leaf s' w' => simp [Tree.shape] at e; exact ⟨w', by rw [hu, e.1]⟩
    | internal w' l r => simp [Tree.shape] at e
  · rintro ⟨w, h⟩
    exact ⟨0, _, h, rfl⟩

/-- The header depends on the shape only (R82). -/
@[simp] theorem headerBits_shape (t : Tree) : headerBits t.shape = headerBits t := by
  induction t with
  | leaf s w => rfl
  | internal w l r ihl ihr => simp [Tree.shape, headerBits, ihl, ihr]

theorem headerBits_leaf (s : Symbol) (w : Nat) : headerBits (.leaf s w) = true :: be 9 s.toNat := rfl

theorem headerBits_internal (w : Nat) (l r : Tree) :
    headerBits (.internal w l r) = false :: (headerBits l ++ headerBits r) := by simp [headerBits, encode]

end Sys2Proof.Machine
end

