-- ==== Sys2Proof/Laws/Builder.lean ====
section
/-!
SUPPORT. What the priority structure holds and what the merges keep (spec/41_tree_builder.md R121 to R125).
-/

namespace Sys2Proof.Machine

/-- The leaves with their weights, from left to right. -/
def Tree.weighted : Tree → List (Symbol × Nat)
  | .leaf s w => [(s, w)]
  | .internal _ l r => l.weighted ++ r.weighted

theorem Tree.weighted_map_fst (t : Tree) : t.weighted.map Prod.fst = t.leaves := by
  induction t with
  | leaf s w => rfl
  | internal w l r ihl ihr => simp [Tree.weighted, Tree.leaves, ihl, ihr]

theorem Tree.mem_weighted (t : Tree) (s : Symbol) (w : Nat) :
    (s, w) ∈ t.weighted ↔ ∃ p, t.nodeAt p = some (.leaf s w) := by
  induction t with
  | leaf s' w' =>
    simp only [Tree.weighted, List.mem_singleton, Prod.mk.injEq]
    constructor
    · rintro ⟨rfl, rfl⟩; exact ⟨[], rfl⟩
    · rintro ⟨p, h⟩
      cases p <;> simp at h
      exact ⟨h.1.symm, h.2.symm⟩
  | internal w' l r ihl ihr =>
    simp only [Tree.weighted, List.mem_append, ihl, ihr]
    constructor
    · rintro (⟨p, h⟩ | ⟨p, h⟩)
      · exact ⟨false :: p, h⟩
      · exact ⟨true :: p, h⟩
    · rintro ⟨p, h⟩
      cases p with
      | nil => simp at h
      | cons b p =>
        cases b
        · exact .inl ⟨p, h⟩
        · exact .inr ⟨p, h⟩

theorem removeMin_eq_none {q : List PQEntry} : removeMin q = none ↔ q = [] := by
  cases q with
  | nil => simp [removeMin]
  | cons e q =>
    simp only [removeMin, reduceCtorEq, iff_false]
    split
    · simp
    · split <;> simp

/-- `remove_min` takes one entry out and keeps the others. -/
theorem removeMin_perm {q rest : List PQEntry} {a : PQEntry} (h : removeMin q = some (a, rest)) :
    (a :: rest).Perm q := by
  induction q generalizing a rest with
  | nil => simp [removeMin] at h
  | cons e q ih =>
    rw [removeMin] at h
    split at h
    · rename_i hn
      rw [removeMin_eq_none] at hn
      cases h; simp [hn]
    · rename_i m rest' hm
      split at h
      · cases h; exact .refl _
      · cases h
        exact (List.Perm.swap _ _ _).trans ((ih hm).cons e)

/-- The priority structure with every key's weight that of its node (R120). -/
def PQ.Keyed (q : PQ) : Prop := ∀ e ∈ q.entries, e.weight = e.tree.weight

/-- The merges end with one tree: its leaves are all the leaves there were, its internal weights are sums, and its root
weight is the sum of the weights there were (R123, R125). -/
theorem mergeLoop_some (fuel : Nat) (q : PQ) (hl : q.entries.length = fuel + 1) (hk : q.Keyed)
    (ha : ∀ e ∈ q.entries, e.tree.weightsAdd = true) :
    ∃ t, mergeLoop (fuel + 1) q = some t ∧ t.weighted.Perm (q.entries.flatMap fun e => e.tree.weighted) ∧
      t.weightsAdd = true ∧ t.weight = (q.entries.map PQEntry.weight).sum := by
  induction fuel generalizing q with
  | zero =>
    obtain ⟨e, he⟩ := List.length_eq_one_iff.mp hl
    refine ⟨e.tree, by simp [mergeLoop, he, removeMin], by simp [he], ha e (by simp [he]), ?_⟩
    simp [he, hk e (by simp [he])]
  | succ fuel ih =>
    rw [mergeLoop]
    cases hm : removeMin q.entries with
    | none => rw [removeMin_eq_none] at hm; simp [hm] at hl
    | some x =>
      obtain ⟨a, rest⟩ := x
      have pa := removeMin_perm hm
      have la := pa.length_eq
      cases hm' : removeMin rest with
      | none => rw [removeMin_eq_none] at hm'; simp [hm', hl] at la
      | some y =>
        obtain ⟨b, rest'⟩ := y
        have pb := removeMin_perm hm'
        have lb := pb.length_eq
        have pq : (a :: b :: rest').Perm q.entries := (pb.cons a).trans pa
        simp only [hm']
        have mem : ∀ e ∈ a :: b :: rest', e ∈ q.entries := fun e h => pq.mem_iff.mp h
        obtain ⟨t, ht, hw, hs, hsum⟩ := ih
          (PQ.insert (.internal (a.tree.weight + b.tree.weight) a.tree b.tree) { entries := rest', seq := q.seq })
          (by simp [PQ.insert] at *; omega)
          (by
            intro e he
            simp only [PQ.insert, List.mem_append, List.mem_singleton] at he
            rcases he with he | rfl
            · exact hk e (mem e (by simp [he]))
            · rfl)
          (by
            intro e he
            simp only [PQ.insert, List.mem_append, List.mem_singleton] at he
            rcases he with he | rfl
            · exact ha e (mem e (by simp [he]))
            · simp [Tree.weightsAdd, ha a (mem a (by simp)), ha b (mem b (by simp))])
        refine ⟨t, ht, hw.trans ?_, hs, hsum.trans ?_⟩
        · refine List.Perm.trans ?_ (pq.flatMap_right fun e => e.tree.weighted)
          simp only [PQ.insert, List.flatMap_append, List.flatMap_cons, List.flatMap_nil, List.append_nil,
            Tree.weighted]
          exact List.perm_append_comm.trans (by simp)
        · rw [← (pq.map PQEntry.weight).sum_eq]
          simp only [PQ.insert, List.map_append, List.map_cons, List.map_nil, List.sum_append, List.sum_cons,
            List.sum_nil, Tree.weight_internal, hk a (mem a (by simp)), hk b (mem b (by simp))]
          omega

theorem mem_byteValues (v : Byte) : v ∈ byteValues :=
  List.mem_map.mpr ⟨v.toNat, List.mem_range.mpr v.isLt, by simp⟩

theorem byteValues_nodup : byteValues.Nodup := by
  refine List.Nodup.map_on (fun a ha b hb e => ?_) List.nodup_range
  have := congrArg BitVec.toNat e
  simp only [BitVec.toNat_ofNat] at this
  rw [List.mem_range] at ha hb
  omega

theorem byteSymbol_toNat (v : Byte) : (byteSymbol v).toNat = v.toNat := by
  have := v.isLt
  simp [byteSymbol]
  omega

theorem byteSymbol_injective {u v : Byte} (h : byteSymbol u = byteSymbol v) : u = v :=
  BitVec.eq_of_toNat_eq (by rw [← byteSymbol_toNat u, h, byteSymbol_toNat])

theorem byteSymbol_ne_term (v : Byte) : byteSymbol v ≠ TERM := by
  intro h
  have := congrArg BitVec.toNat h
  rw [byteSymbol_toNat] at this
  have := v.isLt
  simp at *
  omega

/-- The leaf of a byte value. -/
def countLeaf (tab : CountTable) (v : Byte) : Tree := .leaf (byteSymbol v) (tab.get v)

/-- Every entry of the structure is an insertion of a node under its own weight, so keys match (R120, R121). -/
theorem PQ.insert_keyed {q : PQ} (hk : q.Keyed) (t : Tree) : (q.insert t).Keyed := by
  intro e he
  simp only [PQ.insert, List.mem_append, List.mem_singleton] at he
  rcases he with he | rfl
  · exact hk e he
  · rfl

theorem foldl_insertCount (tab : CountTable) (l : List Byte) (q : PQ) (hk : q.Keyed) :
    (l.foldl (PQ.insertCount tab) q).entries.map PQEntry.tree =
        q.entries.map PQEntry.tree ++ (l.filter fun v => tab.get v ≠ 0).map (countLeaf tab) ∧
      (l.foldl (PQ.insertCount tab) q).Keyed := by
  induction l generalizing q with
  | nil => simpa using hk
  | cons v l ih =>
    rw [List.foldl_cons]
    by_cases h : tab.get v = 0
    · rw [show PQ.insertCount tab q v = q by simp [PQ.insertCount, h]]
      simpa [h] using ih q hk
    · rw [show PQ.insertCount tab q v = q.insert (countLeaf tab v) by simp [PQ.insertCount, h, countLeaf]]
      have := ih _ (PQ.insert_keyed hk (countLeaf tab v))
      simpa [h, PQ.insert] using this

/-- The leaves before the first merge: ascending byte values with a nonzero count, then the terminator (R121). -/
theorem initialQueue_trees (tab : CountTable) :
    (initialQueue tab).entries.map PQEntry.tree =
      (byteValues.filter fun v => tab.get v ≠ 0).map (countLeaf tab) ++ [.leaf TERM 1] ∧
    (initialQueue tab).Keyed := by
  obtain ⟨h1, h2⟩ := foldl_insertCount tab byteValues { entries := [], seq := 0 } (by intro e he; simp at he)
  refine ⟨?_, PQ.insert_keyed h2 _⟩
  rw [initialQueue, PQ.insert, List.map_append, h1]
  simp

end Sys2Proof.Machine
end

