-- ==== Sys2Proof/Laws/CodeGen.lean ====
section
/-!
SUPPORT. What the walk of `GENCODE` records (spec/42_code_table_generator.md R140, R141, R143).
-/

namespace Sys2Proof.Machine

@[simp] theorem CodeTable.get_absent (s : Symbol) : CodeTable.absent.get s = none := by
  simp only [CodeTable.get, CodeTable.absent, Vector.getElem?_replicate]
  split <;> rfl

theorem CodeTable.get_record (t : CodeTable) (s u : Symbol) (p : Path) (hs : s.toNat ≤ 256) :
    (t.record s p).get u = if u = s then some p else t.get u := by
  unfold CodeTable.record CodeTable.get
  rw [Vector.getElem?_setIfInBounds]
  by_cases h : u = s
  · subst h; simp [Nat.lt_succ_of_le hs]
  · have : s.toNat ≠ u.toNat := fun e => h (BitVec.eq_of_toNat_eq e.symm)
    simp [h, this]

/-- An entry is what the walk recorded at a leaf, or what stood there before. -/
theorem walk_get {t : Tree} (hn : t.leaves.Nodup) (hr : ∀ s ∈ t.leaves, s.toNat ≤ 256) (p : Path) (tab : CodeTable)
    (s : Symbol) (q : Path) :
    (walk t p tab).get s = some q ↔ (∃ z, q = p ++ z ∧ t.leafAt z s) ∨ (s ∉ t.leaves ∧ tab.get s = some q) := by
  induction t generalizing p tab with
  | leaf s' w =>
    rw [walk, CodeTable.get_record _ _ _ _ (hr s' (by simp [Tree.leaves]))]
    by_cases h : s = s'
    · subst h; simp [Tree.leaves, eq_comm]
    · simp [h, Tree.leaves]
  | internal w l r ihl ihr =>
    rw [Tree.leaves, List.nodup_append] at hn
    have hrl : ∀ s ∈ l.leaves, s.toNat ≤ 256 := fun s h => hr s (by simp [Tree.leaves, h])
    have hrr : ∀ s ∈ r.leaves, s.toNat ≤ 256 := fun s h => hr s (by simp [Tree.leaves, h])
    rw [walk, ihr hn.2.1 hrr, ihl hn.1 hrl]
    have split : (∃ z, q = p ++ z ∧ (Tree.internal w l r).leafAt z s) ↔
        (∃ z, q = p ++ [false] ++ z ∧ l.leafAt z s) ∨ (∃ z, q = p ++ [true] ++ z ∧ r.leafAt z s) := by
      simp only [Tree.leafAt_internal]
      constructor
      · rintro ⟨_, rfl, b, z, rfl, hz⟩
        cases b
        · exact .inl ⟨z, by simp, hz⟩
        · exact .inr ⟨z, by simp, hz⟩
      · rintro (⟨z, rfl, hz⟩ | ⟨z, rfl, hz⟩)
        · exact ⟨false :: z, by simp, false, z, rfl, hz⟩
        · exact ⟨true :: z, by simp, true, z, rfl, hz⟩
    rw [split]
    have dis : ∀ z, l.leafAt z s → s ∉ r.leaves := fun z hz hm =>
      hn.2.2 s ((l.mem_leaves s).mpr ⟨z, hz⟩) s hm rfl
    simp only [Tree.leaves, List.mem_append, not_or]
    constructor
    · rintro (h | ⟨hm, ⟨z, e, hz⟩ | ⟨hl, ht⟩⟩)
      · exact .inl (.inr h)
      · exact .inl (.inl ⟨z, e, hz⟩)
      · exact .inr ⟨⟨hl, hm⟩, ht⟩
    · rintro ((⟨z, e, hz⟩ | h) | ⟨⟨hl, hm⟩, ht⟩)
      · exact .inr ⟨dis z hz, .inl ⟨z, e, hz⟩⟩
      · exact .inl h
      · exact .inr ⟨hm, .inr ⟨hl, ht⟩⟩

/-- The code of a symbol is the path to its leaf (R141). -/
theorem codeTable_get {t : Tree} (hv : t.Valid) (s : Symbol) (p : Path) :
    (codeTable t).get s = some p ↔ t.leafAt p s := by
  rw [codeTable, walk_get hv.2.1 hv.2.2]
  simp

theorem performGencode_some {s : State} {t : Tree} (h : s.tree = some t) :
    performGencode s = .next (s.setCodes (codeTable t)) := by rw [performGencode, h]

end Sys2Proof.Machine
end

