-- ==== Sys2Proof/Laws/Decoder.lean ====
section
/-!
SUPPORT. What the decoder's walk does on a whole code and where the source is cut (spec/45_bitstream_decoder.md R193,
R194, R197).
-/

namespace Sys2Proof.Machine

/-- The bits `x` lead from a node either to a leaf within them, or to an internal node at their end. -/
theorem Tree.walk_cases (t : Tree) (x : BitSeq) :
    (∃ p z s w, x = p ++ z ∧ t.nodeAt p = some (.leaf s w)) ∨ ∃ w l r, t.nodeAt x = some (.internal w l r) := by
  induction x generalizing t with
  | nil =>
    cases t with
    | leaf s w => exact .inl ⟨[], [], s, w, rfl, rfl⟩
    | internal w l r => exact .inr ⟨w, l, r, rfl⟩
  | cons b x ih =>
    cases t with
    | leaf s w => exact .inl ⟨[], b :: x, s, w, rfl, rfl⟩
    | internal w l r =>
      rcases ih (Tree.child b l r) with ⟨p, z, s, w', e, h⟩ | ⟨w', l', r', h⟩
      · exact .inl ⟨b :: p, z, s, w', by simp [e], by rw [Tree.nodeAt_internal_cons]; exact h⟩
      · exact .inr ⟨w', l', r', by rw [Tree.nodeAt_internal_cons]; exact h⟩

/-- The walk that decodes a token ends at the leaf (R89). -/
theorem decodeCode_leaf {t : Tree} {p : Path} {s : Symbol} {w : Nat} (h : t.nodeAt p = some (.leaf s w)) (path : Path)
    (z : BitSeq) :
    decodeCode t path (p ++ z) =
      .ok (if s = TERM then .terminatorCode (path ++ p) else .payloadCode (path ++ p), z) := by
  induction p generalizing t path with
  | nil => simp at h; subst h; simp [decodeCode]
  | cons b p ih =>
    cases t with
    | leaf s w => simp at h
    | internal w' l r =>
      rw [Tree.nodeAt_internal_cons] at h
      cases b
      · simpa [decodeCode] using ih (t := l) h (path ++ [false])
      · simpa [decodeCode] using ih (t := r) h (path ++ [true])

/-- The walk that decodes a token fails where the bits end at an internal node (R197). -/
theorem decodeCode_cut {t l r : Tree} {x : BitSeq} {w : Nat} (h : t.nodeAt x = some (.internal w l r)) (path : Path) :
    decodeCode t path x = .error .cutCode := by
  induction x generalizing t path with
  | nil => simp at h; subst h; rfl
  | cons b x ih =>
    cases t with
    | leaf s w => simp at h
    | internal w' l' r' =>
      rw [Tree.nodeAt_internal_cons] at h
      cases b <;> exact ih h _

/-- What is written when the walk arrives at a leaf other than the terminator's, `CUR` back at the root (R193, R198). -/
def State.emitted (sym : Symbol) (s : State) : State := (s.writeBits 8 sym.toNat).setCur []

/-- The move on one bit from an internal node (R193). -/
theorem decBit_eq {s : State} {t l r : Tree} {w : Nat} (ht : s.tree = some t)
    (hc : t.nodeAt s.cur = some (.internal w l r)) (b : Bool) : decBit b s = arrive b (Tree.child b l r) s := by
  simp [decBit, ht, hc]

/-- A step with a bit left (R193). -/
theorem decStep_cons {s : State} {t l r : Tree} {w : Nat} {b : Bool} {z : BitSeq} (ht : s.tree = some t)
    (hc : t.nodeAt s.cur = some (.internal w l r)) (hr : s.src.rest = b :: z) :
    decStep s = arrive b (Tree.child b l r) (s.setSrc (s.src.skip 1)) := by
  rw [decStep, Src.readBits_one_cons hr, ← decBit_eq (s := s.setSrc (s.src.skip 1)) ht hc]
  cases b <;> rfl

/-- A step at the end of the source (R193, R197). -/
theorem decStep_nil {s : State} (hr : s.src.rest = []) : decStep s = .fail (s.raise .truncatedInput) := by
  rw [decStep, Src.readBits_one_nil hr]
  rfl

/-- The bits of a whole code, taken one by one from an internal node, end at the leaf (R193). -/
theorem decWalk_leaf {s : State} {t u : Tree} {p : Path} {sym : Symbol} {w : Nat} (ht : s.tree = some t)
    (hc : t.nodeAt s.cur = some u) (hu : u.isLeaf = false) (hp : u.nodeAt p = some (.leaf sym w)) :
    decWalk p s = if sym = TERM then .done (s.setCur []) else .goOn (s.emitted sym) := by
  induction p generalizing s u with
  | nil => simp at hp; subst hp; simp [Tree.isLeaf] at hu
  | cons b p ih =>
    cases u with
    | leaf s w => simp at hp
    | internal w' l r =>
      rw [Tree.nodeAt_internal_cons] at hp
      rw [decWalk, decBit_eq ht hc]
      cases hn : Tree.child b l r with
      | leaf sym' w'' =>
        rw [hn] at hp
        cases p with
        | nil =>
          simp at hp
          by_cases h : sym = TERM <;> simp [arrive, hp.1, h, decWalk, State.emitted]
        | cons c p => simp at hp
      | internal w'' l' r' =>
        simp only [arrive]
        rw [ih (s := s.setCur (s.cur ++ [b])) (u := .internal w'' l' r') ht ?_ rfl (hn ▸ hp)]
        · rfl
        · rw [State.setCur_cur, Tree.nodeAt_snoc hc, hn]

/-- The loop on a whole code: it ends at the terminator, or writes a byte and goes on from the root (R194). -/
theorem decLoop_leaf {s : State} {t u : Tree} {p z : BitSeq} {sym : Symbol} {w fuel : Nat} (ht : s.tree = some t)
    (hc : t.nodeAt s.cur = some u) (hu : u.isLeaf = false) (hp : u.nodeAt p = some (.leaf sym w))
    (hr : s.src.rest = p ++ z) :
    decLoop (fuel + p.length) s =
      if sym = TERM then .next ((s.setSrc (s.src.skip p.length)).setCur [])
      else decLoop fuel ((s.setSrc (s.src.skip p.length)).emitted sym) := by
  induction p generalizing s u with
  | nil => simp at hp; subst hp; simp [Tree.isLeaf] at hu
  | cons b p ih =>
    cases u with
    | leaf s w => simp at hp
    | internal w' l r =>
      rw [Tree.nodeAt_internal_cons] at hp
      rw [List.length_cons, ← Nat.add_assoc, decLoop, decStep_cons ht hc hr]
      cases hn : Tree.child b l r with
      | leaf sym' w'' =>
        rw [hn] at hp
        cases p with
        | nil =>
          simp at hp
          by_cases h : sym = TERM <;> simp [arrive, hp.1, h, State.emitted]
        | cons c p => simp at hp
      | internal w'' l' r' =>
        simp only [arrive, State.setSrc_cur]
        rw [ih (s := (s.setSrc (s.src.skip 1)).setCur (s.cur ++ [b])) (u := .internal w'' l' r') ht ?_ rfl (hn ▸ hp)
          (by simp [Src.rest_skip, hr])]
        · simp only [State.setCur_src, State.setSrc_src, Src.skip_skip, Nat.add_comm 1]
          rfl
        · rw [State.setCur_cur, Tree.nodeAt_snoc hc, hn]

/-- The loop on a source that ends at an internal node: every bit is read, then the failure (R197). -/
theorem decLoop_cut {s : State} {t u : Tree} {x : BitSeq} {fuel w' : Nat} {l' r' : Tree} (ht : s.tree = some t)
    (hc : t.nodeAt s.cur = some u) (hx : u.nodeAt x = some (.internal w' l' r')) (hr : s.src.rest = x)
    (hf : x.length < fuel) :
    decLoop fuel s = .next ((s.setSrc (s.src.skip x.length)).raise .truncatedInput) := by
  induction x generalizing s u fuel with
  | nil =>
    obtain ⟨fuel, rfl⟩ : ∃ k, fuel = k + 1 := ⟨fuel - 1, by omega⟩
    rw [decLoop, decStep_nil hr]
    rfl
  | cons b x ih =>
    obtain ⟨fuel, rfl⟩ : ∃ k, fuel = k + 1 := ⟨fuel - 1, by omega⟩
    cases u with
    | leaf s w => simp at hx
    | internal w l r =>
      rw [Tree.nodeAt_internal_cons] at hx
      rw [decLoop, decStep_cons ht hc hr]
      cases hn : Tree.child b l r with
      | leaf sym w'' =>
        rw [hn] at hx
        cases x <;> simp at hx
      | internal w'' l'' r'' =>
        simp only [arrive, State.setSrc_cur]
        rw [ih (s := (s.setSrc (s.src.skip 1)).setCur (s.cur ++ [b])) (u := .internal w'' l'' r'') ht ?_ (hn ▸ hx)
          (by simp [Src.rest_skip, hr]) (by simpa using hf)]
        · simp only [State.setCur_src, State.setSrc_src, Src.skip_skip, List.length_cons, Nat.add_comm 1]
          rfl
        · rw [State.setCur_cur, Tree.nodeAt_snoc hc, hn]

theorem performDecpay_internal {s : State} {w : Nat} {l r : Tree} (h : s.tree = some (.internal w l r)) :
    performDecpay s = decLoop (s.src.rest.length + 1) (s.setCur []) := by rw [performDecpay, h]

theorem performDecpay_leaf {s : State} {sym : Symbol} {w : Nat} (h : s.tree = some (.leaf sym w)) :
    performDecpay s = .next s := by rw [performDecpay, h]

end Sys2Proof.Machine
end

