-- ==== Sys2Proof/Laws/Encoder.lean ====
section
/-!
SUPPORT. What the loop of `ENCPAY` does on a source of bytes (spec/44_bitstream_encoder.md R172, R173).
-/

namespace Sys2Proof.Machine

@[simp] theorem payloadBits_nil (t : CodeTable) : payloadBits t [] = [] := rfl

theorem payloadBits_cons (t : CodeTable) (b : Byte) (l : List Byte) :
    payloadBits t (b :: l) = (t.get (byteSymbol b)).getD [] ++ payloadBits t l := rfl

theorem emitCode_some {sym : Symbol} {s : State} {p : BitSeq} (h : s.code.get sym = some p) :
    emitCode sym s = .next (s.writeSeq p) := by simp [emitCode, h]

theorem emitCode_none {sym : Symbol} {s : State} (h : s.code.get sym = none) :
    emitCode sym s = .refused .noCode := by simp [emitCode, h]

/-- One turn of the loop on a byte that has a code. -/
theorem encLoop_cons {s : State} {b : Byte} {p z : BitSeq} {fuel : Nat} (he : s.err = none)
    (h : s.src.rest = be 8 b.toNat ++ z) (hc : s.code.get (byteSymbol b) = some p) :
    encLoop (fuel + 1) s = encLoop fuel ((s.setSrc (s.src.skip 8)).writeSeq p) := by
  rw [encLoop, readByte_cons h]
  simp only
  rw [emitCode_some (s := s.setSrc (s.src.skip 8)) hc, thenDo_ok (by simpa using he)]

/-- The loop writes the code of each byte and then the terminator's; it never runs out of fuel (R172, R265). -/
theorem encLoop_coded (l : List Byte) {s : State} {tail e : BitSeq} {fuel : Nat} (he : s.err = none)
    (h : s.src.rest = bytesToBits l ++ tail) (ht : tail.length < 8) (hc : allCoded s.code l)
    (hterm : s.code.get TERM = some e) (hf : l.length < fuel) :
    encLoop fuel s = .next ((s.setSrc (s.src.skip (8 * l.length))).writeSeq (payloadBits s.code l ++ e)) := by
  obtain ⟨fuel, rfl⟩ : ∃ k, fuel = k + 1 := ⟨fuel - 1, by omega⟩
  induction l generalizing s fuel with
  | nil =>
    rw [encLoop, readByte_end (by rw [h]; simpa using ht)]
    exact emitCode_some hterm
  | cons b l ih =>
    have hb : s.src.rest = be 8 b.toNat ++ (bytesToBits l ++ tail) := by
      rw [h, bytesToBits_cons, List.append_assoc]
    obtain ⟨p, hp⟩ := Option.isSome_iff_exists.mp (hc b (by simp))
    obtain ⟨fuel, rfl⟩ : ∃ k, fuel = k + 1 := ⟨fuel - 1, by simp at hf; omega⟩
    rw [encLoop_cons he hb hp,
      ih (s := (s.setSrc (s.src.skip 8)).writeSeq p) (by simpa using he)
        (by simpa using Src.rest_skip_append hb) (fun x hx => hc x (by simp [hx])) hterm fuel (by simpa using hf)]
    rw [payloadBits_cons, hp]
    simp only [State.writeSeq_code, State.setSrc_code, State.writeSeq_src, State.setSrc_src, Src.skip_skip,
      Option.getD_some, List.length_cons]
    rw [← State.writeSeq_setSrc, State.setSrc_setSrc, State.writeSeq_writeSeq, List.append_assoc,
      show 8 + 8 * l.length = 8 * (l.length + 1) by omega]

/-- The loop refuses where a byte, or at the end the terminator, has no code (R173). -/
theorem encLoop_uncoded (l : List Byte) {s : State} {tail : BitSeq} {fuel : Nat} (he : s.err = none)
    (h : s.src.rest = bytesToBits l ++ tail) (ht : tail.length < 8)
    (hc : ¬ allCoded s.code l ∨ s.code.get TERM = none) (hf : l.length < fuel) :
    encLoop fuel s = .refused .noCode := by
  obtain ⟨fuel, rfl⟩ : ∃ k, fuel = k + 1 := ⟨fuel - 1, by omega⟩
  induction l generalizing s fuel with
  | nil =>
    rw [encLoop, readByte_end (by rw [h]; simpa using ht)]
    rcases hc with hc | hc
    · exact absurd (fun b hb => by simp at hb) hc
    · exact emitCode_none hc
  | cons b l ih =>
    have hb : s.src.rest = be 8 b.toNat ++ (bytesToBits l ++ tail) := by
      rw [h, bytesToBits_cons, List.append_assoc]
    obtain ⟨fuel, rfl⟩ : ∃ k, fuel = k + 1 := ⟨fuel - 1, by simp at hf; omega⟩
    cases hp : s.code.get (byteSymbol b) with
    | none =>
      rw [encLoop, readByte_cons hb]
      simp only
      rw [emitCode_none (s := s.setSrc (s.src.skip 8)) hp, thenDo_refused]
    | some p =>
      rw [encLoop_cons he hb hp]
      refine ih (s := (s.setSrc (s.src.skip 8)).writeSeq p) (by simpa using he)
        (by simpa using Src.rest_skip_append hb) ?_ fuel (by simpa using hf)
      refine hc.imp (fun hn ha => hn fun x hx => ?_) id
      rcases List.mem_cons.mp hx with rfl | hx
      · simp [hp]
      · exact ha x hx

theorem performEncpay_internal {s : State} {w : Nat} {l r : Tree} (h : s.tree = some (.internal w l r)) :
    performEncpay s = encLoop (s.src.bytesLeft + 1) s := by rw [performEncpay, h]

theorem performEncpay_leaf {s : State} {sym : Symbol} {w : Nat} (h : s.tree = some (.leaf sym w)) :
    performEncpay s = encSingleton s := by rw [performEncpay, h]

end Sys2Proof.Machine
end

