-- ==== Sys2Proof/Laws/Header.lean ====
section
/-!
SUPPORT. What the header writer writes, and what the header reader's recursion reads (spec/43_header_codec.md R150,
R155, R156, R158).
-/

namespace Sys2Proof.Machine

/-- `wr(t)` appends the header of `t` (R150). -/
theorem wr_eq (t : Tree) (s : State) : wr t s = s.writeSeq (headerBits t) := by
  induction t generalizing s with
  | leaf sym w =>
    rw [wr, State.writeBits, State.writeBits, State.writeSeq_writeSeq, headerBits_leaf]
    rfl
  | internal w l r ihl ihr =>
    rw [wr, ihl, ihr, State.writeBits, State.writeSeq_writeSeq, State.writeSeq_writeSeq, headerBits_internal]
    simp [be]

/-- What `rd` needs of a tree to read its header after the symbols `seen` and `nint` internal nodes (R156). -/
structure Readable (t : Tree) (seen : List Symbol) (nint : Nat) : Prop where
  distinct : t.leaves.Nodup
  range : ∀ s ∈ t.leaves, s.toNat ≤ 256
  fresh : ∀ s ∈ t.leaves, s ∉ seen
  internals : nint + t.internals ≤ maxInternals

theorem leafAccepted_iff (sym : Symbol) (seen : List Symbol) :
    leafAccepted sym seen = true ↔ sym.toNat ≤ 256 ∧ sym ∉ seen := by simp [leafAccepted]

/-- `rd` on one leaf token. -/
theorem rd_leaf {fuel : Nat} {ctx : HdrContext} {sym : Symbol} {z : BitSeq}
    (h : ctx.src.rest = true :: (be 9 sym.toNat ++ z)) :
    rd (fuel + 1) ctx = if leafAccepted sym ctx.seen then
      .ok (.leaf sym 0, { ctx with src := ctx.src.skip 10, seen := sym :: ctx.seen }) else .error (ctx.src.skip 10) := by
  have h' : (ctx.src.skip 1).rest = be 9 sym.toNat ++ z := by simp [Src.rest_skip, h]
  rw [rd, Src.readBits_one_cons h]
  simp only [Bool.toNat_true, Src.readBits_be h', Nat.mod_eq_of_lt sym.isLt, Src.skip_skip, BitVec.ofNat_toNat,
    BitVec.setWidth_eq]

/-- `rd` on one internal-node token. -/
theorem rd_internal {fuel : Nat} {ctx : HdrContext} {z : BitSeq} (h : ctx.src.rest = false :: z)
    (hn : ctx.nint ≠ maxInternals) :
    rd (fuel + 1) ctx =
      match rd fuel { ctx with src := ctx.src.skip 1, nint := ctx.nint + 1 } with
      | .error e => .error e
      | .ok (left, c') =>
        match rd fuel c' with
        | .error e => .error e
        | .ok (right, c'') => .ok (.internal 0 left right, c'') := by
  rw [rd, Src.readBits_one_cons h]
  exact if_neg hn

/-- `rd` reads back the header of a readable tree, its shape, and consumes exactly that header (R158). -/
theorem rd_headerBits (t : Tree) {fuel : Nat} {ctx : HdrContext} {z : BitSeq} (hr : Readable t ctx.seen ctx.nint)
    (h : ctx.src.rest = headerBits t ++ z) (hf : t.depth < fuel) :
    rd fuel ctx = .ok (t.shape,
      { src := ctx.src.skip (headerBits t).length, seen := t.leaves.reverse ++ ctx.seen,
        nint := ctx.nint + t.internals }) := by
  induction t generalizing fuel ctx z with
  | leaf sym w =>
    obtain ⟨fuel, rfl⟩ : ∃ k, fuel = k + 1 := ⟨fuel - 1, by omega⟩
    have ha : leafAccepted sym ctx.seen = true :=
      (leafAccepted_iff _ _).mpr ⟨hr.range sym (by simp [Tree.leaves]), hr.fresh sym (by simp [Tree.leaves])⟩
    rw [rd_leaf (z := z) (by rw [h, headerBits_leaf, List.cons_append]), if_pos ha]
    simp [Tree.shape, Tree.leaves, Tree.internals, headerBits_leaf]
  | internal w l r ihl ihr =>
    obtain ⟨fuel, rfl⟩ : ∃ k, fuel = k + 1 := ⟨fuel - 1, by omega⟩
    simp only [Tree.depth] at hf
    have hd := hr.distinct
    rw [Tree.leaves, List.nodup_append] at hd
    have hi := hr.internals
    rw [Tree.internals] at hi
    have hl : ∀ s ∈ l.leaves, s ∈ (Tree.internal w l r).leaves := fun s h => by simp [Tree.leaves, h]
    have hrt : ∀ s ∈ r.leaves, s ∈ (Tree.internal w l r).leaves := fun s h => by simp [Tree.leaves, h]
    have hh : ctx.src.rest = false :: (headerBits l ++ (headerBits r ++ z)) := by
      rw [h, headerBits_internal]; simp
    have h1 : (ctx.src.skip 1).rest = headerBits l ++ (headerBits r ++ z) := by simp [Src.rest_skip, hh]
    rw [rd_internal hh (by omega)]
    rw [ihl (ctx := { src := ctx.src.skip 1, seen := ctx.seen, nint := ctx.nint + 1 }) (z := headerBits r ++ z)
      ⟨hd.1, fun s h => hr.range s (hl s h), fun s h => hr.fresh s (hl s h), by simp only; omega⟩ h1
      (by omega)]
    simp only
    rw [ihr (ctx :=
        { src := (ctx.src.skip 1).skip (headerBits l).length, seen := l.leaves.reverse ++ ctx.seen,
          nint := ctx.nint + 1 + l.internals }) (z := z)
      ⟨hd.2.1, fun s h => hr.range s (hrt s h), ?_, by simp only; omega⟩ (Src.rest_skip_append h1) (by omega)]
    · simp only [Tree.shape, Tree.leaves, Tree.internals, headerBits_internal, Src.skip_skip]
      simp only [List.length_cons, List.length_append, List.reverse_append, List.append_assoc]
      refine congrArg Except.ok (Prod.ext rfl ?_)
      simp only [HdrContext.mk.injEq, true_and]
      refine ⟨?_, by omega⟩
      congr 1
      omega
    · intro s hs
      simp only [List.mem_append, List.mem_reverse, not_or]
      exact ⟨fun hm => hd.2.2 s hm s hs rfl, hr.fresh s (hrt s hs)⟩

/-- What `rd` consumed when it succeeds is the header of the tree it returns, whose leaves are new, distinct and in
range (R156, R158). -/
theorem rd_ok {fuel : Nat} {ctx ctx' : HdrContext} {t : Tree} (hi : ctx.nint ≤ maxInternals)
    (h : rd fuel ctx = .ok (t, ctx')) :
    ∃ z, ctx.src.rest = headerBits t ++ z ∧ t.shape = t ∧ Readable t ctx.seen ctx.nint ∧
      ctx' = { src := ctx.src.skip (headerBits t).length, seen := t.leaves.reverse ++ ctx.seen,
               nint := ctx.nint + t.internals } := by
  induction fuel generalizing ctx ctx' t with
  | zero => simp [rd] at h
  | succ fuel ih =>
    rcases hrest : ctx.src.rest with _ | ⟨b, z⟩
    · simp [rd, Src.readBits_one_nil hrest] at h
    · cases b with
      | true =>
        rcases Nat.lt_or_ge z.length 9 with hz | hz
        · have h9 : (ctx.src.skip 1).readBits 9 = (none, ctx.src.skip 1) :=
            Src.readBits_of_lt (by simpa [Src.rest_skip, hrest] using hz)
          simp [rd, Src.readBits_one_cons hrest, h9] at h
        · have hx : (z.take 9).length = 9 := by simp [hz]
          have hsym := be_toNat_ofNat_val (n := 9) (z.take 9) hx
          have hz' : ctx.src.rest = true :: (be 9 (BitVec.ofNat 9 (val (z.take 9))).toNat ++ z.drop 9) := by
            rw [hsym, List.take_append_drop, hrest]
          rw [rd_leaf hz'] at h
          split at h
          · rename_i ha
            rw [leafAccepted_iff] at ha
            cases h
            refine ⟨z.drop 9, ?_, rfl, ⟨by simp [Tree.leaves], by simpa [Tree.leaves] using ha.1,
              by simpa [Tree.leaves] using ha.2, ?_⟩, by simp [headerBits_leaf, Tree.leaves, Tree.internals]⟩
            · rw [headerBits_leaf, List.cons_append, ← hz', hrest]
            · simpa [Tree.internals] using hi
          · cases h
      | false =>
        by_cases hn : ctx.nint = maxInternals
        · simp [rd, Src.readBits_one_cons hrest, hn] at h
        · rw [rd_internal hrest hn] at h
          split at h
          · cases h
          · rename_i l c' e1
            split at h
            · cases h
            · rename_i r c'' e2
              cases h
              obtain ⟨z1, hz1, s1, r1, rfl⟩ := ih (by simp only; omega) e1
              have i1 := r1.internals
              obtain ⟨z2, hz2, s2, r2, rfl⟩ := ih i1 e2
              have i2 := r2.internals
              simp only [Src.rest_skip, hrest, List.drop_succ_cons, List.drop_zero] at hz1
              have hz3 : z1 = headerBits r ++ z2 := by
                rw [← hz2]
                simp only [Src.rest_skip, hrest, List.drop_succ_cons, List.drop_zero, hz1, List.drop_left]
              refine ⟨z2, ?_, by simp [Tree.shape, s1, s2], ⟨?_, ?_, ?_, ?_⟩, ?_⟩
              · rw [headerBits_internal, hz1, hz3]; simp
              · rw [Tree.leaves, List.nodup_append]
                refine ⟨r1.distinct, r2.distinct, fun a ha b hb e => ?_⟩
                subst e
                exact r2.fresh a hb (by simp [ha])
              · intro s hs
                rw [Tree.leaves, List.mem_append] at hs
                exact hs.elim (r1.range s) (r2.range s)
              · intro s hs
                rw [Tree.leaves, List.mem_append] at hs
                refine hs.elim (r1.fresh s) fun h hm => r2.fresh s h (by simp [hm])
              · simp only [Tree.internals]; simp only at i2; omega
              · simp only [Tree.leaves, Tree.internals, headerBits_internal, Src.skip_skip, List.length_cons,
                  List.length_append, List.reverse_append, List.append_assoc, HdrContext.mk.injEq, true_and]
                refine ⟨?_, by omega⟩
                congr 1
                omega

theorem performHdrwr_some {s : State} {t : Tree} (h : s.tree = some t) :
    performHdrwr s = .next (s.writeSeq (headerBits t)) := by rw [performHdrwr, h, ← wr_eq]

/-- A failing `rd` leaves the source's bits as they were and the position in range (R225). -/
theorem rd_error {fuel : Nat} {ctx : HdrContext} {r : Src} (hi : ctx.nint ≤ maxInternals)
    (h : rd fuel ctx = .error r) :
    r.bits = ctx.src.bits ∧ (ctx.src.pos ≤ ctx.src.bits.length → r.pos ≤ r.bits.length) := by
  induction fuel generalizing ctx r with
  | zero => cases h; exact ⟨rfl, id⟩
  | succ fuel ih =>
    have one := Src.readBits_bits 1 ctx.src
    have oneIn : ctx.src.pos ≤ ctx.src.bits.length → (ctx.src.readBits 1).2.pos ≤ (ctx.src.readBits 1).2.bits.length :=
      Src.readBits_inRange 1
    rw [rd] at h
    split at h
    · rename_i e
      cases h
      rw [e] at one oneIn
      exact ⟨one, oneIn⟩
    · rename_i src' e
      rw [e] at one oneIn
      split at h
      · cases h; exact ⟨one, oneIn⟩
      · rename_i hn
        have hi' : ctx.nint + 1 ≤ maxInternals := by omega
        split at h
        · rename_i e1
          cases h
          obtain ⟨b, p⟩ := ih hi' e1
          exact ⟨b.trans one, fun hp => p (oneIn hp)⟩
        · rename_i left c' e1
          split at h
          · rename_i e2
            cases h
            obtain ⟨z, hz, -, hread, rfl⟩ := rd_ok hi' e1
            obtain ⟨b, p⟩ := ih hread.internals e2
            refine ⟨b.trans one, fun hp => p ?_⟩
            have hl := congrArg List.length hz
            simp only [Src.rest_length, List.length_append] at hl
            have hq : src'.pos ≤ src'.bits.length := oneIn hp
            show src'.pos + (headerBits left).length ≤ src'.bits.length
            omega
          · cases h
    · rename_i src' _ e
      rw [e] at one oneIn
      have nine := Src.readBits_bits 9 src'
      have nineIn : src'.pos ≤ src'.bits.length → (src'.readBits 9).2.pos ≤ (src'.readBits 9).2.bits.length :=
        Src.readBits_inRange 9
      split at h
      · rename_i e9
        cases h
        rw [e9] at nine nineIn
        exact ⟨nine.trans one, fun hp => nineIn (oneIn hp)⟩
      · rename_i e9
        rw [e9] at nine nineIn
        dsimp only at h
        split at h
        · cases h
        · cases h; exact ⟨nine.trans one, fun hp => nineIn (oneIn hp)⟩

end Sys2Proof.Machine
end

