-- ==== Sys2Proof/Laws/Commands.lean ====
section
/-!
SUPPORT. For each command, once, everything it can answer as a next state (spec/40_frequency_counter.md R110 to
spec/46_sequencing_ops.md R215).
-/

namespace Sys2Proof.Machine

variable {s s' : State}

/-- A command that `ERR ≠ 0` refuses was accepted in a block that has not failed (R231). -/
theorem State.ready_err {i : Instr} (h : s.ready i = true) (ha : acceptsError i = false) : s.err = none := by
  simp [State.ready, ha] at h
  exact h.1

theorem State.ready_needs {i : Instr} (h : s.ready i = true) : s.hasNeeds i = true := by
  simp [State.ready] at h
  exact h.2

/-- A move over bits that are there stays in range (R50). -/
theorem Src.skip_inRange {r : Src} {n : Nat} (hp : r.pos ≤ r.bits.length) (hn : n ≤ r.rest.length) :
    (r.skip n).pos ≤ (r.skip n).bits.length := by
  rw [Src.rest_length] at hn
  simp
  omega

/-- Everything a byte read can do (R52, R53). -/
theorem readByte_cases (r : Src) :
    (∃ b z, r.rest = be 8 b.toNat ++ z ∧ readByte r = (some b, r.skip 8)) ∨
      (r.rest.length < 8 ∧ readByte r = (none, r)) := by
  rcases Nat.lt_or_ge r.rest.length 8 with h | h
  · exact .inr ⟨h, readByte_end h⟩
  · have hx : (r.rest.take 8).length = 8 := by simp [h]
    have e : r.rest = be 8 (BitVec.ofNat 8 (val (r.rest.take 8))).toNat ++ r.rest.drop 8 := by
      rw [be_toNat_ofNat_val (n := 8) _ hx, List.take_append_drop]
    exact .inl ⟨_, _, e, readByte_cons e⟩

theorem countsOf_get (l : List Byte) (v : Byte) : (countsOf l).get v = l.count v := by
  simp [countsOf, CountTable.get]

theorem countsOf_eq (l : List Byte) : countsOf l = l.foldl CountTable.bump CountTable.zero :=
  CountTable.ext fun v => by rw [countsOf_get, CountTable.get_foldl_bump]; simp

/-- What `COUNT` makes of the bytes left, and of too many of them (R110, R111). -/
theorem performCount_eq {l : List Byte} (h : s.src.holdsBytes l) :
    performCount s =
      if l.length ≤ Config.maxInput then .next ((s.setSrc (s.src.skip (8 * l.length))).setCounts (countsOf l))
      else .refused .widthOverflow := by
  obtain ⟨tail, hr, ht⟩ := h
  rw [performCount, Src.bytesLeft_eq hr ht, countLoop_eq l _ hr ht (by omega), countsOf_eq]
  simp only [withinWidth_iff]

/-- Every source holds some bytes. -/
theorem Src.exists_holdsBytes (r : Src) : ∃ l, r.holdsBytes l := by
  obtain ⟨l, tail, h⟩ := exists_bytes r.rest
  exact ⟨l, tail, h⟩

theorem Src.holdsBytes.le {r : Src} {l : List Byte} (h : r.holdsBytes l) : 8 * l.length ≤ r.rest.length := by
  obtain ⟨tail, h, -⟩ := h
  simp [h]

theorem execCount_next (h : execCount s = .next s') :
    s.idle ∧ ∃ l, s.src.holdsBytes l ∧ l.length ≤ Config.maxInput ∧
      s' = (s.setSrc (s.src.skip (8 * l.length))).setCounts (countsOf l) := by
  obtain ⟨hj, hr, h⟩ := guarded_next h
  obtain ⟨l, hl⟩ := s.src.exists_holdsBytes
  refine ⟨⟨hj, State.ready_err hr rfl⟩, l, hl, ?_⟩
  rw [performCount_eq hl] at h
  generalize countsOf l = c at h ⊢
  split at h
  · rename_i hm
    cases h
    exact ⟨hm, rfl⟩
  · cases h

/-- The tree of a count table exists; its weighted leaves are those of the nonzero counts and the terminator, and its
weights add up (R121, R125, R128). -/
theorem buildTree_some (tab : CountTable) :
    ∃ t, buildTree tab = some t ∧
      t.weighted.Perm
        ((byteValues.filter fun v => tab.get v ≠ 0).map (fun v => (byteSymbol v, tab.get v)) ++ [(TERM, 1)]) ∧
      t.weightsAdd = true ∧ t.weight = tab.total + 1 := by
  obtain ⟨h1, h2⟩ := initialQueue_trees tab
  have hl : (initialQueue tab).entries.length = ((byteValues.filter fun v => tab.get v ≠ 0).length) + 1 := by
    simpa using congrArg List.length h1
  have leafy : ∀ e ∈ (initialQueue tab).entries, e.tree.weightsAdd = true := by
    intro e he
    have : e.tree ∈ (initialQueue tab).entries.map PQEntry.tree := List.mem_map_of_mem he
    rw [h1] at this
    rcases List.mem_append.mp this with h | h
    · obtain ⟨v, -, hv⟩ := List.mem_map.mp h
      rw [← hv]; rfl
    · rw [List.mem_singleton.mp h]; rfl
  obtain ⟨t, ht, hw, ha, hs⟩ := mergeLoop_some _ _ hl h2 leafy
  refine ⟨t, by simp only [buildTree, hl]; exact ht, hw.trans ?_, ha, ?_⟩
  · rw [show (initialQueue tab).entries.flatMap (fun e => e.tree.weighted) =
        ((initialQueue tab).entries.map PQEntry.tree).flatMap Tree.weighted by rw [List.flatMap_map], h1]
    apply List.Perm.of_eq
    rw [List.flatMap_append]
    congr 1
    generalize (byteValues.filter fun v => tab.get v ≠ 0) = l
    induction l <;> simp_all [countLeaf, Tree.weighted]
  · rw [hs, show (initialQueue tab).entries.map PQEntry.weight =
        ((initialQueue tab).entries.map PQEntry.tree).map Tree.weight by
      rw [List.map_map]; exact List.map_congr_left fun e he => h2 e he, h1]
    simp [CountTable.total, Function.comp_def, countLeaf]
    induction byteValues with
    | nil => rfl
    | cons v l ih => by_cases h : tab.get v = 0 <;> simp_all

/-- The symbols of the tree built, and that it is valid (R24, R121). -/
theorem buildTree_valid {tab : CountTable} {t : Tree} (h : buildTree tab = some t) :
    t.Valid ∧ t.leaves.Perm ((byteValues.filter fun v => tab.get v ≠ 0).map byteSymbol ++ [TERM]) := by
  obtain ⟨t', h', hw, -, -⟩ := buildTree_some tab
  rw [h] at h'
  cases h'
  have hp : t.leaves.Perm ((byteValues.filter fun v => tab.get v ≠ 0).map byteSymbol ++ [TERM]) := by
    rw [← Tree.weighted_map_fst]
    refine (hw.map Prod.fst).trans ?_
    simp [Function.comp_def]
  refine ⟨Tree.valid_of ?_ ?_ ?_, hp⟩
  · rw [hp.nodup_iff, List.nodup_append]
    refine ⟨(byteValues_nodup.filter _).map_on fun a _ b _ e => byteSymbol_injective e, by simp, ?_⟩
    intro a ha b hb
    obtain ⟨v, -, rfl⟩ := List.mem_map.mp ha
    rw [List.mem_singleton.mp hb]
    exact byteSymbol_ne_term v
  · intro s hs
    rw [hp.mem_iff, List.mem_append] at hs
    rcases hs with h | h
    · obtain ⟨v, -, rfl⟩ := List.mem_map.mp h
      rw [byteSymbol_toNat]
      have := v.isLt
      omega
    · rw [List.mem_singleton.mp h]; decide
  · rw [hp.mem_iff]; simp

/-- Where weights add up, none exceeds the root's (R126). -/
theorem Tree.weightsBelow_of_weightsAdd {t : Tree} {bound : Nat} (h : t.weightsAdd = true) (hw : t.weight < bound) :
    t.weightsBelow bound = true := by
  induction t with
  | leaf s w => simpa [Tree.weightsBelow] using hw
  | internal w l r ihl ihr =>
    simp [Tree.weightsAdd] at h hw
    simp [Tree.weightsBelow, ihl h.1.2 (by omega), ihr h.2 (by omega), hw]

/-- A tree read from a header has weight 0 everywhere (R26). -/
theorem Tree.weights_of_shape {t : Tree} (h : t.shape = t) : t.weight = 0 ∧ t.weightsAdd = true := by
  induction t with
  | leaf s w => simp [Tree.shape] at h; simp [Tree.weightsAdd, h]
  | internal w l r ihl ihr =>
    simp [Tree.shape] at h
    obtain ⟨a, b, c⟩ := h
    simp [Tree.weightsAdd, ihl b, ihr c, ← a]

theorem execBuild_next (h : execBuild s = .next s') :
    s.idle ∧ s.cntValid = true ∧ ∃ t, buildTree s.cnt = some t ∧ s' = s.setBuilt (some t) := by
  obtain ⟨hj, hr, h⟩ := guarded_next h
  obtain ⟨t, ht, -⟩ := buildTree_some s.cnt
  refine ⟨⟨hj, State.ready_err hr rfl⟩, State.ready_needs hr, t, ht, ?_⟩
  cases h
  rw [ht]

theorem execGencode_next (h : execGencode s = .next s') :
    s.idle ∧ ∃ t, s.tree = some t ∧ s' = s.setCodes (codeTable t) := by
  obtain ⟨hj, hr, h⟩ := guarded_next h
  refine ⟨⟨hj, State.ready_err hr rfl⟩, ?_⟩
  obtain ⟨t, ht⟩ := Option.isSome_iff_exists.mp (show s.tree.isSome = true from State.ready_needs hr)
  rw [performGencode_some ht] at h
  cases h
  exact ⟨t, ht, rfl⟩

theorem execWrmagic_next (h : execWrmagic s = .next s') :
    s.idle ∧ s' = s.writeSeq (be 32 Config.magicTree.toNat) := by
  obtain ⟨hj, hr, h⟩ := guarded_next h
  cases h
  exact ⟨⟨hj, State.ready_err hr rfl⟩, rfl⟩

theorem execHdrwr_next (h : execHdrwr s = .next s') :
    s.idle ∧ ∃ t, s.tree = some t ∧ s' = s.writeSeq (headerBits t) := by
  obtain ⟨hj, hr, h⟩ := guarded_next h
  refine ⟨⟨hj, State.ready_err hr rfl⟩, ?_⟩
  obtain ⟨t, ht⟩ := Option.isSome_iff_exists.mp (show s.tree.isSome = true from State.ready_needs hr)
  rw [performHdrwr_some ht] at h
  cases h
  exact ⟨t, ht, rfl⟩

/-- Everything `ENCPAY` can answer once accepted (R172, R173, R174). -/
theorem performEncpay_cases (he : s.err = none) (hn : s.tree.isSome = true) :
    (∃ l x, s.src.holdsBytes l ∧ performEncpay s = .next ((s.setSrc (s.src.skip (8 * l.length))).writeSeq x)) ∨
      performEncpay s = .refused .noCode := by
  obtain ⟨t, ht⟩ := Option.isSome_iff_exists.mp hn
  obtain ⟨l, hl⟩ := s.src.exists_holdsBytes
  obtain ⟨tail, hx, htl⟩ := id hl
  cases t with
  | leaf sym w =>
    rw [performEncpay_leaf ht, encSingleton]
    cases l with
    | nil =>
      rw [readByte_end (by rw [hx]; simpa using htl)]
      exact .inl ⟨[], [], hl, by simp⟩
    | cons b l =>
      rw [readByte_cons (b := b) (z := bytesToBits l ++ tail) (by rw [hx, bytesToBits_cons, List.append_assoc])]
      exact .inr rfl
  | internal w lt rt =>
    rw [performEncpay_internal ht, Src.bytesLeft_eq hx htl]
    by_cases ha : allCoded s.code l
    · cases hT : s.code.get TERM with
      | none => exact .inr (encLoop_uncoded l he hx htl (.inr hT) (by omega))
      | some e => exact .inl ⟨l, _, hl, encLoop_coded l he hx htl ha hT (by omega)⟩
    · exact .inr (encLoop_uncoded l he hx htl (.inl ha) (by omega))

theorem execEncpay_next (h : execEncpay s = .next s') :
    s.idle ∧ s.tree.isSome = true ∧ s.codeValid = true ∧
      ∃ l x, s.src.holdsBytes l ∧ s' = (s.setSrc (s.src.skip (8 * l.length))).writeSeq x := by
  obtain ⟨hj, hr, h⟩ := guarded_next h
  have hn := State.ready_needs hr
  simp only [State.hasNeeds, State.treeValid, Bool.and_eq_true] at hn
  refine ⟨⟨hj, State.ready_err hr rfl⟩, hn.1, hn.2, ?_⟩
  rcases performEncpay_cases (State.ready_err hr rfl) hn.1 with ⟨l, x, hl, e⟩ | e
  · rw [e] at h; cases h; exact ⟨l, x, hl, rfl⟩
  · rw [e] at h; cases h

/-- Everything `RDMAGIC` can answer once accepted (R190, R191). -/
theorem performRdmagic_cases (s : State) :
    (32 ≤ s.src.rest.length ∧ performRdmagic s = .next (s.setSrc (s.src.skip 32))) ∨
      ∃ n ≤ s.src.rest.length, performRdmagic s = .next ((s.setSrc (s.src.skip n)).raise .invalidFormat) := by
  rw [performRdmagic]
  rcases Src.readBits_cases 32 s.src with ⟨h, e⟩ | ⟨-, e⟩ <;> rw [e]
  · simp only [checkMagic]
    split
    · exact .inl ⟨h, rfl⟩
    · exact .inr ⟨32, h, rfl⟩
  · exact .inr ⟨0, by omega, rfl⟩

theorem execRdmagic_next (h : execRdmagic s = .next s') :
    s.idle ∧ ((32 ≤ s.src.rest.length ∧ s' = s.setSrc (s.src.skip 32)) ∨
      ∃ n ≤ s.src.rest.length, s' = (s.setSrc (s.src.skip n)).raise .invalidFormat) := by
  obtain ⟨hj, hr, h⟩ := guarded_next h
  refine ⟨⟨hj, State.ready_err hr rfl⟩, ?_⟩
  rcases performRdmagic_cases s with ⟨hl, e⟩ | ⟨n, hn, e⟩ <;> rw [e] at h <;> cases h
  · exact .inl ⟨hl, rfl⟩
  · exact .inr ⟨n, hn, rfl⟩

/-- Everything `HDRRD` can answer once accepted (R155 to R158). -/
theorem performHdrrd_cases (s : State) :
    (∃ t z, t.Valid ∧ t.shape = t ∧ s.src.rest = headerBits t ++ z ∧
      performHdrrd s = .next ((s.setSrc (s.src.skip (headerBits t).length)).setRead t)) ∨
    ∃ r : Src, r.bits = s.src.bits ∧ (s.src.pos ≤ s.src.bits.length → r.pos ≤ r.bits.length) ∧
      performHdrrd s = .next ((s.setSrc r).raise .invalidFormat) := by
  unfold performHdrrd
  cases h : rd maxRecursion ⟨s.src, [], 0⟩ with
  | error r =>
    obtain ⟨a, b⟩ := rd_error (by simp [maxInternals]) h
    exact .inr ⟨r, a, b, rfl⟩
  | ok x =>
    obtain ⟨t, ctx⟩ := x
    obtain ⟨z, h1, h2, h3, rfl⟩ := rd_ok (by simp [maxInternals]) h
    have hl : (headerBits t).length ≤ s.src.rest.length := by rw [show s.src.rest = _ from h1]; simp
    simp only [finishHeader]
    split
    · rename_i hm
      exact .inl ⟨t, z, Tree.valid_of h3.distinct h3.range (by simpa using hm), h2, h1, rfl⟩
    · exact .inr ⟨s.src.skip (headerBits t).length, rfl, fun hp => Src.skip_inRange hp hl, rfl⟩

theorem execHdrrd_next (h : execHdrrd s = .next s') :
    s.idle ∧ ((∃ t z, t.Valid ∧ t.shape = t ∧ s.src.rest = headerBits t ++ z ∧
        s' = (s.setSrc (s.src.skip (headerBits t).length)).setRead t) ∨
      ∃ r : Src, r.bits = s.src.bits ∧ (s.src.pos ≤ s.src.bits.length → r.pos ≤ r.bits.length) ∧
        s' = (s.setSrc r).raise .invalidFormat) := by
  obtain ⟨hj, hr, h⟩ := guarded_next h
  refine ⟨⟨hj, State.ready_err hr rfl⟩, ?_⟩
  rcases performHdrrd_cases s with ⟨t, z, hv, hs, hz, e⟩ | ⟨r, hb, hp, e⟩ <;> rw [e] at h <;> cases h
  · exact .inl ⟨t, z, hv, hs, hz, rfl⟩
  · exact .inr ⟨r, hb, hp, rfl⟩

/-- Everything the loop of `DECPAY` can answer from the root (R194, R197). -/
theorem decLoop_cases (fuel : Nat) : ∀ (s : State) (w : Nat) (l r : Tree), s.tree = some (.internal w l r) →
    s.cur = [] → s.src.rest.length < fuel →
    ∃ (x : BitSeq) (n : Nat), n ≤ s.src.rest.length ∧
      (decLoop fuel s = .next ((s.setSrc (s.src.skip n)).writeSeq x) ∨
        decLoop fuel s = .next (((s.setSrc (s.src.skip n)).writeSeq x).raise .truncatedInput)) := by
  induction fuel using Nat.strong_induction_on with
  | _ fuel ih =>
    intro s w l r ht hc hf
    rcases Tree.walk_cases (.internal w l r) s.src.rest with ⟨p, z, sym, w', e, hp⟩ | ⟨w', l', r', hx⟩
    · have hpn : p ≠ [] := by rintro rfl; simp at hp
      have hlen : s.src.rest.length = p.length + z.length := by rw [e]; simp
      have hpos : 0 < p.length := List.length_pos_iff.mpr hpn
      obtain ⟨f, rfl⟩ : ∃ k, fuel = k + p.length := ⟨fuel - p.length, by omega⟩
      rw [decLoop_leaf ht (by rw [hc]; rfl) rfl hp e]
      split
      · exact ⟨[], p.length, by omega, .inl (by simp [State.setCur, State.setSrc, hc])⟩
      · obtain ⟨x, n, hn, h⟩ := ih f (by omega) ((s.setSrc (s.src.skip p.length)).emitted sym) w l r ht rfl
          (by simp [State.emitted, State.writeBits, Src.rest_skip]; omega)
        rw [show ((s.setSrc (s.src.skip p.length)).emitted sym).src.rest = z from Src.rest_skip_append e] at hn
        refine ⟨be 8 sym.toNat ++ x, p.length + n, by omega, ?_⟩
        rw [show (s.setSrc (s.src.skip (p.length + n))).writeSeq (be 8 sym.toNat ++ x) =
            (State.setSrc (Src.skip n ((s.setSrc (s.src.skip p.length)).emitted sym).src)
              ((s.setSrc (s.src.skip p.length)).emitted sym)).writeSeq x by
          simp [State.emitted, State.writeBits, State.writeSeq, State.setSrc, State.setCur, Src.skip, hc,
            Nat.add_assoc]]
        exact h
    · refine ⟨[], s.src.rest.length, Nat.le_refl _, .inr ?_⟩
      rw [decLoop_cut ht (by rw [hc]; rfl) hx rfl hf]
      simp

/-- Everything `DECPAY` can answer once accepted: it always completes (R194, R195, R197). -/
theorem performDecpay_cases (hn : s.tree.isSome = true) :
    ∃ (x : BitSeq) (n : Nat), n ≤ s.src.rest.length ∧
      ((∃ p, (p = s.cur ∨ p = []) ∧
          performDecpay s = .next (((s.setSrc (s.src.skip n)).writeSeq x).setCur p)) ∨
        performDecpay s = .next (((s.setSrc (s.src.skip n)).writeSeq x).raise .truncatedInput)) := by
  obtain ⟨t, ht⟩ := Option.isSome_iff_exists.mp hn
  cases t with
  | leaf sym w =>
    rw [performDecpay_leaf ht]
    exact ⟨[], 0, by simp, .inl ⟨s.cur, .inl rfl, by simp [State.setCur]⟩⟩
  | internal w l r =>
    rw [performDecpay_internal ht]
    obtain ⟨x, n, hn, h⟩ := decLoop_cases (s.src.rest.length + 1) (s.setCur []) w l r ht rfl (by simp)
    exact ⟨x, n, hn, h.imp (fun h => ⟨[], .inr rfl, h⟩) id⟩

theorem execDecpay_next (h : execDecpay s = .next s') :
    s.idle ∧ s.tree.isSome = true ∧ ∃ (x : BitSeq) (n : Nat), n ≤ s.src.rest.length ∧
      ((∃ p, (p = s.cur ∨ p = []) ∧ s' = ((s.setSrc (s.src.skip n)).writeSeq x).setCur p) ∨
        s' = ((s.setSrc (s.src.skip n)).writeSeq x).raise .truncatedInput) := by
  obtain ⟨hj, hr, h⟩ := guarded_next h
  refine ⟨⟨hj, State.ready_err hr rfl⟩, State.ready_needs hr, ?_⟩
  obtain ⟨x, n, hn, ⟨p, hp, e⟩ | e⟩ := performDecpay_cases (State.ready_needs hr) <;> rw [e] at h <;> cases h
  · exact ⟨x, n, hn, .inl ⟨p, hp, rfl⟩⟩
  · exact ⟨x, n, hn, .inr rfl⟩

theorem execClr_next (h : execClr s = .next s') : s.job = none ∧ s' = s.clearBlock := by
  obtain ⟨hj, -, h⟩ := guarded_next h
  cases h
  exact ⟨hj, rfl⟩

theorem execRewind_next (h : execRewind s = .next s') : s.job = none ∧ s' = s.setSrc s.src.rewind := by
  obtain ⟨hj, -, h⟩ := guarded_next h
  cases h
  exact ⟨hj, rfl⟩

/-- What holds after the first operation of a sequence and is kept by the next holds after both (R98). -/
theorem thenDo_keeps {o : Result} {f : State → Result} (P : State → Prop) (h : thenDo o f = .next s')
    (h1 : ∀ t, o = .next t → P t) (h2 : ∀ t t', P t → f t = .next t' → P t') : P s' := by
  obtain ⟨t, ho, ⟨-, rfl⟩ | ⟨-, hf⟩⟩ := thenDo_next h
  · exact h1 _ ho
  · exact h2 _ _ (h1 _ ho) hf

/-- What every operation of `ENCODE` keeps, `ENCODE` keeps (R175). -/
theorem execEncode_keeps (P : State → Prop) (h : execEncode s = .next s') (hs : P s)
    (h1 : ∀ t t', P t → execWrmagic t = .next t' → P t') (h2 : ∀ t t', P t → execHdrwr t = .next t' → P t')
    (h3 : ∀ t t', P t → execEncpay t = .next t' → P t') : P s' := by
  obtain ⟨-, -, h⟩ := guarded_next h
  exact thenDo_keeps P h (fun _ h => thenDo_keeps P h (fun _ h => h1 _ _ hs h) h2) h3

/-- What every operation of `COMPRESS` keeps, `COMPRESS` keeps (R213). -/
theorem execCompress_keeps (P : State → Prop) (h : execCompress s = .next s') (hs : P s)
    (h1 : ∀ t t', P t → execClr t = .next t' → P t') (h2 : ∀ t t', P t → execCount t = .next t' → P t')
    (h3 : ∀ t t', P t → execRewind t = .next t' → P t') (h4 : ∀ t t', P t → execBuild t = .next t' → P t')
    (h5 : ∀ t t', P t → execGencode t = .next t' → P t') (h6 : ∀ t t', P t → execEncode t = .next t' → P t')
    (h7 : ∀ t, P t → P t.clearBlock) : P s' := by
  obtain ⟨-, -, h⟩ := guarded_next h
  refine thenDo_keeps P h (fun _ h => thenDo_keeps P h (fun _ h => thenDo_keeps P h (fun _ h => thenDo_keeps P h
    (fun _ h => thenDo_keeps P h (fun _ h => thenDo_keeps P h (fun _ h => h1 _ _ hs h) h2) h3) h4) h5) h6) ?_
  intro t t' ht h
  cases h
  exact h7 t ht

/-- What every operation of `DECOMPRESS` keeps, `DECOMPRESS` keeps (R215). -/
theorem execDecompress_keeps (P : State → Prop) (h : execDecompress s = .next s') (hs : P s)
    (h1 : ∀ t t', P t → execClr t = .next t' → P t') (h2 : ∀ t t', P t → execRdmagic t = .next t' → P t')
    (h3 : ∀ t t', P t → execHdrrd t = .next t' → P t') (h4 : ∀ t t', P t → execDecpay t = .next t' → P t')
    (h5 : ∀ t, P t → P t.clearBlock) : P s' := by
  obtain ⟨-, -, h⟩ := guarded_next h
  refine thenDo_keeps P h (fun _ h => thenDo_keeps P h (fun _ h => thenDo_keeps P h
    (fun _ h => thenDo_keeps P h (fun _ h => h1 _ _ hs h) h2) h3) h4) ?_
  intro t t' ht h
  cases h
  exact h5 t ht

end Sys2Proof.Machine
end

