-- ==== Sys2Proof/Laws/PerInstr.lean ====
section
/-!
SUPPORT. For every instruction: the encoding of a well-formed one has a width that spec/opcode_table.json gives its row
(spec/30_encoding.md R81, R83, R84, R86, R87, R90).
-/

namespace Sys2Proof.Laws.EncodedLength

/-- The least and the greatest width of the row, in bits. -/
def range : Instr → Nat × Nat
  | .clr | .count | .build | .gencode | .wrmagic | .hdrwr | .encpay | .rdmagic | .hdrrd | .decpay | .encode
  | .compress | .decompress | .rewind | .reserved1110 | .reserved1111 => (4, 4)
  | .streamMagic _ => (32, 32)
  | .hdrInternal => (1, 1)
  | .hdrLeaf _ => (10, 10)
  | .payloadCode _ => (1, 256)
  | .terminatorCode _ => (0, 256)

/-- A well-formed instruction is encoded in a width of its row. -/
def Statement (i : Instr) : Prop :=
  i.wf = true → (range i).1 ≤ (encode i).length ∧ (encode i).length ≤ (range i).2

theorem clr : Statement .clr := fun _ => by decide
theorem count : Statement .count := fun _ => by decide
theorem build : Statement .build := fun _ => by decide
theorem gencode : Statement .gencode := fun _ => by decide
theorem wrmagic : Statement .wrmagic := fun _ => by decide
theorem hdrwr : Statement .hdrwr := fun _ => by decide
theorem encpay : Statement .encpay := fun _ => by decide
theorem rdmagic : Statement .rdmagic := fun _ => by decide
theorem hdrrd : Statement .hdrrd := fun _ => by decide
theorem decpay : Statement .decpay := fun _ => by decide
theorem encode : Statement .encode := fun _ => by decide
theorem compress : Statement .compress := fun _ => by decide
theorem decompress : Statement .decompress := fun _ => by decide
theorem rewind : Statement .rewind := fun _ => by decide
theorem reserved1110 : Statement .reserved1110 := fun _ => by decide
theorem reserved1111 : Statement .reserved1111 := fun _ => by decide
theorem streamMagic (m : BitVec 32) : Statement (.streamMagic m) := fun _ => by
  simp only [range, Sys2Proof.encode, be_length, Nat.le_refl, and_self]
theorem hdrInternal : Statement .hdrInternal := fun _ => by decide
theorem hdrLeaf (sym : Symbol) : Statement (.hdrLeaf sym) := fun _ => by
  simp only [range, Sys2Proof.encode, List.length_cons, be_length, Nat.le_refl, and_self]
theorem payloadCode (code : BitSeq) : Statement (.payloadCode code) := fun h => by
  simpa only [range, Sys2Proof.encode, Instr.wf, Bool.and_eq_true, decide_eq_true_eq] using h
theorem terminatorCode (code : BitSeq) : Statement (.terminatorCode code) := fun h =>
  ⟨Nat.zero_le _, by simpa only [range, Sys2Proof.encode, Instr.wf, decide_eq_true_eq] using h⟩

end Sys2Proof.Laws.EncodedLength
end

