-- ==== Sys2Proof/Laws/Tokens.lean ====
section
/-!
SUPPORT. For each operation in progress, once, everything a step on its next token can answer (spec/43_header_codec.md
R151, R155, spec/44_bitstream_encoder.md R172, spec/45_bitstream_decoder.md R190, R193), and what the header reader
keeps.
-/

namespace Sys2Proof.Machine

variable {s : State}

/-- What is answered for what was fetched. -/
def Fetched.answer : Fetched → Result
  | .run i s => exec i s
  | .stop o => o

theorem step_eq (s : State) : step s = (fetch s).answer := by
  unfold step
  cases fetch s <;> rfl

theorem step_inProgress {j : Job} (hj : s.job = some j) (hp : s.port = []) :
    step s = (fetchInProgress j s).answer := by simp [step_eq, fetch, hj, hp]

/-- `RDMAGIC` in progress: complete, or failed (R190, R191). -/
theorem answer_rdMagic (hj : s.job = some .rdMagic) :
    ∃ n ≤ s.src.rest.length,
      (fetchInProgress .rdMagic s).answer = .next ((s.setSrc (s.src.skip n)).raise .invalidFormat) ∨
      (n = 32 ∧ (fetchInProgress .rdMagic s).answer = .next ((s.setSrc (s.src.skip n)).setJob none)) := by
  simp only [fetchInProgress, fetchToken, decode]
  by_cases h : 32 ≤ s.src.rest.length
  · refine ⟨32, h, ?_⟩
    simp only [if_pos h, Fetched.answer, exec, execStreamMagic, State.setSrc_job, hj, checkMagic, encode, be_length]
    split
    · exact .inr ⟨trivial, rfl⟩
    · exact .inl rfl
  · exact ⟨0, by omega, .inl (by simp only [if_neg h, Fetched.answer, endInHeader]; rfl)⟩

/-- `WRMAGIC` in progress: the magic is written and it is complete (R171). -/
theorem answer_wrMagic (hj : s.job = some .wrMagic) :
    (fetchInProgress .wrMagic s).answer =
      .next ((s.writeSeq (be 32 Config.magicTree.toNat)).setJob none) := by
  simp [fetchInProgress, Fetched.answer, exec, execStreamMagic, hj, encode]

theorem writeNext_cases (todo : List Tree) : writeNext todo = none ∨ writeNext todo = some (.hdrWr todo) := by
  cases todo
  · exact .inl rfl
  · exact .inr rfl

/-- `HDRWR` in progress: a token is written (R151). -/
theorem answer_hdrWr {todo : List Tree} (hj : s.job = some (.hdrWr todo)) :
    ∃ x j, (j = none ∨ ∃ todo', j = some (.hdrWr todo')) ∧
      (fetchInProgress (.hdrWr todo) s).answer = .next ((s.writeSeq x).setJob j) := by
  cases todo with
  | nil => exact ⟨[], none, .inl rfl, by simp [fetchInProgress, fetchHeaderNode, Fetched.answer]⟩
  | cons t todo =>
    cases t with
    | leaf sym w =>
      exact ⟨encode (.hdrLeaf sym), writeNext todo, (writeNext_cases todo).imp id fun h => ⟨_, h⟩,
        by simp [fetchInProgress, fetchHeaderNode, Fetched.answer, exec, execHdrLeaf, hj]⟩
    | internal w l r =>
      exact ⟨encode .hdrInternal, writeNext (l :: r :: todo), (writeNext_cases _).imp id fun h => ⟨_, h⟩,
        by simp [fetchInProgress, fetchHeaderNode, Fetched.answer, exec, execHdrInternal, hj]⟩

/-- `ENCPAY` in progress: a code is written, or the operation is refused (R172, R173, R174). -/
theorem answer_encPay (hj : s.job = some .encPay) :
    (∃ x n j, n ≤ s.src.rest.length ∧ (j = none ∨ j = some .encPay) ∧
      (fetchInProgress .encPay s).answer = .next (((s.setSrc (s.src.skip n)).writeSeq x).setJob j)) ∨
    (fetchInProgress .encPay s).answer = .refused .noCode ∨
    (s.tree = none ∧ (fetchInProgress .encPay s).answer = .refused .needsState) := by
  simp only [fetchInProgress, fetchCode]
  cases ht : s.tree with
  | none => exact .inr (.inr ⟨rfl, rfl⟩)
  | some t =>
    rcases readByte_cases s.src with ⟨b, z, hz, hb⟩ | ⟨hl, hb⟩ <;> rw [hb]
    · cases t with
      | leaf => exact .inr (.inl rfl)
      | internal w l r =>
        simp only
        cases hc : s.code.get (byteSymbol b) with
        | none => exact .inr (.inl rfl)
        | some p =>
          refine .inl ⟨p, 8, some .encPay, by rw [hz]; simp, .inr rfl, ?_⟩
          simp [Fetched.answer, exec, execPayloadCode, hj, ht, hb, hc]
          rw [← hj]
          rfl
    · cases t with
      | leaf =>
        exact .inl ⟨[], 0, none, by omega, .inl rfl,
          by simp [Fetched.answer, exec, execTerminatorCode, hj, terminatorDue, ht, hb]⟩
      | internal w l r =>
        simp only
        cases hc : s.code.get TERM with
        | none => exact .inr (.inl rfl)
        | some p =>
          exact .inl ⟨p, 0, none, by omega, .inl rfl,
            by simp [Fetched.answer, exec, execTerminatorCode, hj, terminatorDue, ht, hb, hc]⟩

/-- `DECPAY` in progress: a whole code is taken, or it fails at the end of the source (R193, R195, R197). -/
theorem answer_decPay (hj : s.job = some .decPay) :
    (∃ x n j p, n ≤ s.src.rest.length ∧ (j = none ∨ j = some .decPay) ∧ (p = [] ∨ p = s.cur) ∧
      (fetchInProgress .decPay s).answer =
        .next ((((s.setSrc (s.src.skip n)).writeSeq x).setCur p).setJob j)) ∨
    (∃ n ≤ s.src.rest.length,
      (fetchInProgress .decPay s).answer = .next ((s.setSrc (s.src.skip n)).raise .truncatedInput)) ∨
    (s.tree = none ∧ (fetchInProgress .decPay s).answer = .refused .needsState) := by
  simp only [fetchInProgress, fetchPayload]
  cases ht : s.tree with
  | none => exact .inr (.inr ⟨rfl, rfl⟩)
  | some t =>
    cases t with
    | leaf sym w =>
      refine .inl ⟨[], 0, none, s.cur, by omega, .inl rfl, .inr rfl, ?_⟩
      simp [Fetched.answer, exec, execTerminatorCode, hj, readCode, ht]
      rfl
    | internal w l r =>
      simp only [fetchToken, State.setCur_src, decode, decodePayload]
      rcases Tree.walk_cases (.internal w l r) s.src.rest with ⟨p, z, sym, w', e, hp⟩ | ⟨w', l', r', hx⟩
      · rw [e, decodeCode_leaf hp]
        refine .inl ?_
        have hlen : p.length ≤ (p ++ z).length := by simp
        have walk := decWalk_leaf (s := (s.setCur []).setSrc (s.src.skip p.length)) ht rfl rfl hp
        by_cases hs : sym = TERM
        · subst hs
          refine ⟨[], p.length, none, [], hlen, .inl rfl, .inl rfl, ?_⟩
          simp only [if_pos, List.nil_append, Fetched.answer, exec, execTerminatorCode, State.setSrc_job,
            State.setCur_job, hj, readCode, State.setSrc_tree, State.setCur_tree, ht, encode]
          rw [walk]
          simp
          rfl
        · refine ⟨be 8 sym.toNat, p.length, some .decPay, [], hlen, .inr rfl, .inl rfl, ?_⟩
          simp only [if_neg hs, List.nil_append, Fetched.answer, exec, execPayloadCode, State.setSrc_job,
            State.setCur_job, hj, readCode, State.setSrc_tree, State.setCur_tree, ht, encode]
          rw [walk, if_neg hs]
          simp only
          rw [← hj]
          rfl
      · rw [decodeCode_cut hx]
        exact .inr (.inl ⟨s.src.rest.length, Nat.le_refl _, rfl⟩)

/-- The leaves already read below the internal nodes that wait. -/
def frameLeaves (frames : List (Option Tree)) : List Symbol := frames.flatMap fun f => (f.map Tree.leaves).getD []

/-- Completing nodes loses no leaf and keeps every weight 0 (R26, R155). -/
theorem plug_keeps (t : Tree) (frames : List (Option Tree)) (ht : t.shape = t)
    (hf : ∀ u, some u ∈ frames → u.shape = u) :
    (∀ frames', plug t frames = .inl frames' →
      (frameLeaves frames').Perm (t.leaves ++ frameLeaves frames) ∧ ∀ u, some u ∈ frames' → u.shape = u) ∧
    (∀ u, plug t frames = .inr u → u.leaves.Perm (t.leaves ++ frameLeaves frames) ∧ u.shape = u) := by
  induction frames generalizing t with
  | nil =>
    refine ⟨by intro _ h; simp [plug] at h, fun u h => ?_⟩
    simp [plug] at h
    subst h
    simp [frameLeaves, ht]
  | cons f frames ih =>
    cases f with
    | none =>
      refine ⟨fun frames' h => ?_, by intro u h; simp [plug] at h⟩
      simp [plug] at h
      subst h
      refine ⟨by simp [frameLeaves], fun u hu => ?_⟩
      simp at hu
      rcases hu with rfl | hu
      · exact ht
      · exact hf u (by simp [hu])
    | some left =>
      have hl : left.shape = left := hf left (by simp)
      obtain ⟨a, b⟩ := ih (.internal 0 left t) (by simp [Tree.shape, hl, ht]) fun u hu => hf u (by simp [hu])
      have pp : (left.leaves ++ t.leaves ++ frameLeaves frames).Perm
          (t.leaves ++ frameLeaves (some left :: frames)) := by
        simp only [frameLeaves, List.flatMap_cons, Option.map_some, Option.getD_some, ← List.append_assoc]
        exact List.perm_append_comm.append_right _
      exact ⟨fun frames' h => ⟨(a frames' h).1.trans pp, (a frames' h).2⟩,
        fun u h => ⟨(b u h).1.trans pp, (b u h).2⟩⟩

/-- Everything the reader in progress can answer: a failure, one more token taken, or the whole tree. -/
inductive ReaderAnswer (s : State) (r : HdrReader) : Result → Prop
  | failed (n : Nat) (hn : n ≤ s.src.rest.length) :
    ReaderAnswer s r (.next ((s.setSrc (s.src.skip n)).raise .invalidFormat))
  | taken (n : Nat) (r' : HdrReader) (hn : n ≤ s.src.rest.length) (hr : r.Inv → r'.Inv) :
    ReaderAnswer s r (.next ((s.setSrc (s.src.skip n)).setJob (some (.hdrRd r'))))
  | complete (n : Nat) (t : Tree) (hn : n ≤ s.src.rest.length) (ht : r.Inv → t.Valid ∧ t.shape = t) :
    ReaderAnswer s r (.next (((s.setSrc (s.src.skip n)).setRead t).setJob none))

/-- `HDRRD` in progress (R155, R156, R157). -/
theorem answer_hdrRd {r : HdrReader} (hj : s.job = some (.hdrRd r)) :
    ReaderAnswer s r (fetchInProgress (.hdrRd r) s).answer := by
  simp only [fetchInProgress, fetchToken]
  cases hr : s.src.rest with
  | nil =>
    simp only [decode, Fetched.answer, endInHeader]
    exact .failed 0 (by omega)
  | cons b z =>
    cases b with
    | false =>
      simp only [decode, Fetched.answer, exec, execHdrInternal, State.setSrc_job, hj, readInternal, encode]
      split
      · exact .failed 1 (by rw [hr]; simp)
      · rename_i hn
        refine .taken 1 _ (by rw [hr]; simp) fun h => ?_
        refine ⟨by simpa using h.seenRead, h.seenOnce, h.seenRange, ?_, fun t ht => h.weights t (by simpa using ht)⟩
        have := h.internals
        simp
        omega
    | true =>
      simp only [decode]
      by_cases h9 : 9 ≤ z.length
      swap
      · simp only [if_neg h9, Fetched.answer, endInHeader]
        exact .failed 1 (by rw [hr]; simp)
      simp only [if_pos h9, Fetched.answer, exec, execHdrLeaf, State.setSrc_job, hj, readLeaf]
      generalize BitVec.ofNat 9 (val (z.take 9)) = sym
      have hlen : (encode (.hdrLeaf sym)).length ≤ s.src.rest.length := by rw [hr]; simp [encode]; omega
      generalize (encode (.hdrLeaf sym)).length = n at *
      split
      swap
      · exact .failed n hlen
      rename_i ha
      rw [leafAccepted_iff] at ha
      have hp := plug_keeps (.leaf sym 0) r.frames rfl
      have once : r.Inv → (sym :: r.seen).Nodup := fun h => List.nodup_cons.mpr ⟨ha.2, h.seenOnce⟩
      have range : r.Inv → ∀ x ∈ sym :: r.seen, x.toNat ≤ 256 := fun h x hx => by
        rcases List.mem_cons.mp hx with rfl | hx
        · exact ha.1
        · exact h.seenRange x hx
      split
      · rename_i frames' he
        refine .taken n _ hlen fun h => ?_
        obtain ⟨a, b⟩ := (hp h.weights).1 _ he
        exact ⟨a.trans ((h.seenRead).cons sym), once h, range h, h.internals, b⟩
      · rename_i t he
        unfold finishHeader
        split
        · rename_i hT
          refine .complete n t hlen fun h => ?_
          obtain ⟨a, b⟩ := (hp h.weights).2 _ he
          have a := a.trans ((h.seenRead).cons sym)
          exact ⟨Tree.valid_of (a.nodup_iff.mpr (once h)) (fun x hx => range h x (a.mem_iff.mp hx))
            (a.mem_iff.mpr (by simpa using hT)), b⟩
        · exact .failed n hlen

end Sys2Proof.Machine
end

