-- ==== Sys2Proof/Tests/Slice0.lean ====
section
/-!
SUPPORT. Tests. The expected results are the words of spec/30_encoding.md and the vectors of spec/95_test_vectors.md,
named by their ids.
-/

namespace Sys2Proof.Tests

open Sys2Proof.Machine

/-! Helpers: small states -/

/-- An idle block with `src` bound and read from its start. -/
def fed (src : BitSeq) : State := { State.reset with src := { bits := src, pos := 0 } }

/-- Bits from 0 and 1. -/
def bits (l : List Nat) : BitSeq := l.map fun n => n == 1

/-- Bytes from numbers. -/
def bytes (l : List Nat) : List Byte := l.map (BitVec.ofNat 8)

/-- The tree of V-A. -/
def treeA : Tree := .internal 5 (.internal 2 (.leaf 66#9 1) (.leaf TERM 1)) (.leaf 65#9 3)

/-- The tree of V-B. -/
def treeB : Tree := .leaf TERM 1

/-- The block with a tree and its code table. -/
def coded (t : Tree) (src : BitSeq) : State :=
  { fed src with tree := some t, code := codeTable t, codeValid := true }

/-- The block with an operation in progress. -/
def busyWith (j : Job) (s : State) : State := { s with job := some j }

/-- The next state of an answer, for a look at its fields. -/
def after (o : Result) : Option State :=
  match o with
  | .next s => some s
  | .fault _ => none
  | .refused _ => none

/-- The reason of a refusal. -/
def refusal (o : Result) : Option Refusal :=
  match o with
  | .next _ => none
  | .fault _ => none
  | .refused r => some r

/-! WellFormed refuses an ill-formed term for each check -/

theorem test_wf_leaf_max : (Instr.hdrLeaf 256#9).wf = true := by decide
theorem test_wf_leaf_reserved : (Instr.hdrLeaf 257#9).wf = false := by decide
theorem test_wf_payload_empty : (Instr.payloadCode []).wf = false := by decide
theorem test_wf_payload_long : (Instr.payloadCode (List.replicate 257 true)).wf = false := by decide +kernel
theorem test_wf_terminator_empty : (Instr.terminatorCode []).wf = true := by decide
theorem test_wf_terminator_long : (Instr.terminatorCode (List.replicate 257 true)).wf = false := by decide +kernel

/-! Decoding words written out from spec/30_encoding.md: R90 and R94, then R81, R83, R84, R86, R87 -/

theorem test_decode_clr : decodeTableWord 4 0b0000 = some .clr := by decide
theorem test_decode_count : decodeTableWord 4 0b0001 = some .count := by decide
theorem test_decode_build : decodeTableWord 4 0b0010 = some .build := by decide
theorem test_decode_gencode : decodeTableWord 4 0b0011 = some .gencode := by decide
theorem test_decode_wrmagic : decodeTableWord 4 0b0100 = some .wrmagic := by decide
theorem test_decode_hdrwr : decodeTableWord 4 0b0101 = some .hdrwr := by decide
theorem test_decode_encpay : decodeTableWord 4 0b0110 = some .encpay := by decide
theorem test_decode_rdmagic : decodeTableWord 4 0b0111 = some .rdmagic := by decide
theorem test_decode_hdrrd : decodeTableWord 4 0b1000 = some .hdrrd := by decide
theorem test_decode_decpay : decodeTableWord 4 0b1001 = some .decpay := by decide
theorem test_decode_encode : decodeTableWord 4 0b1010 = some .encode := by decide
theorem test_decode_compress : decodeTableWord 4 0b1011 = some .compress := by decide
theorem test_decode_decompress : decodeTableWord 4 0b1100 = some .decompress := by decide
theorem test_decode_rewind : decodeTableWord 4 0b1101 = some .rewind := by decide
theorem test_decode_reserved_1110 : decodeTableWord 4 0b1110 = some .reserved1110 := by decide
theorem test_decode_reserved_1111 : decodeTableWord 4 0b1111 = some .reserved1111 := by decide

/-- V-H3: a flag 0. -/
theorem test_decode_internal : decode .header (bits [0, 1]) = .ok (.hdrInternal, [true]) := by decide
/-- V-H3: `1001000010` is the leaf 66. -/
theorem test_decode_leaf : decode .header (bits [1, 0, 0, 1, 0, 0, 0, 0, 1, 0]) = .ok (.hdrLeaf 66#9, []) := by decide
/-- V-R4: a symbol field cut after 5 of 9 bits. -/
theorem test_decode_leaf_cut : decode .header (bits [1, 0, 0, 1, 0, 0]) = .error .cutSymbol := by decide
/-- R95: the magic field is 32 bits, most significant first; here FA CE 82 02. -/
theorem test_decode_magic :
    decode .magic (bits [1, 1, 1, 1, 1, 0, 1, 0, 1, 1, 0, 0, 1, 1, 1, 0, 1, 0, 0, 0, 0, 0, 1, 0, 0, 0, 0, 0, 0, 0, 1, 0]) =
      .ok (.streamMagic 0xFACE8202#32, []) := by decide
/-- V-A: `CODE[66] = "00"`. -/
theorem test_decode_payload : decode (.payload treeA) (bits [0, 0, 1]) = .ok (.payloadCode [false, false], [true]) := by
  decide
/-- V-A: `CODE[256] = "01"`. -/
theorem test_decode_terminator :
    decode (.payload treeA) (bits [0, 1]) = .ok (.terminatorCode [false, true], []) := by decide
/-- V-B: the terminator's code is empty. -/
theorem test_decode_singleton : decode (.payload treeB) [true] = .ok (.terminatorCode [], [true]) := by decide

/-! One command on a small state -/

/-- V-C2, with any width that accepts 4 bytes, as the default does. -/
theorem test_count_bytes (hw : 4 ≤ Config.maxInput) :
    (after (exec .count (fed (bytesToBits (bytes [65, 65, 65, 66]))))).map
      (fun s => (s.cnt.get 65#8, s.cnt.get 66#8, s.cntValid, s.src.pos)) = some (3, 1, true, 32) := by
  have h := (withinWidth_iff (fed (bytesToBits (bytes [65, 65, 65, 66]))).src.bytesLeft).2 hw
  rw [exec, execCount, guarded_ready rfl rfl, performCount, if_pos h]
  decide
/-- V-C5: 12 bits hold one byte. -/
theorem test_count_tail (hw : 1 ≤ Config.maxInput) :
    (after (exec .count (fed (bits [0, 1, 0, 0, 0, 0, 0, 1, 0, 1, 0, 0])))).map
      (fun s => (s.cnt.get 65#8, s.cnt.get 64#8, s.src.pos)) = some (1, 0, 8) := by
  have h := (withinWidth_iff (fed (bits [0, 1, 0, 0, 0, 0, 0, 1, 0, 1, 0, 0])).src.bytesLeft).2 hw
  rw [exec, execCount, guarded_ready rfl rfl, performCount, if_pos h]
  decide
/-- V-A. -/
theorem test_build_ties : buildTree (countsOf (bytes [65, 65, 65, 66])) = some treeA := by decide +kernel
/-- V-T4: five equal weights, in the order of insertion. The merges of V-T3: a leaf is removed before the internal node
of the same weight that was inserted after it. -/
theorem test_build_order : buildTree (countsOf (bytes [1, 2, 3, 4])) = some (.internal 5
      (.internal 2 (.leaf 3#9 1) (.leaf 4#9 1))
      (.internal 3 (.leaf TERM 1) (.internal 2 (.leaf 1#9 1) (.leaf 2#9 1)))) ∧
    mergeLoop 3 { entries := [⟨2, 0, .leaf 0#9 2⟩, ⟨1, 1, .leaf 255#9 1⟩, ⟨1, 2, .leaf TERM 1⟩], seq := 3 } =
      some (.internal 4 (.leaf 0#9 2) (.internal 2 (.leaf 255#9 1) (.leaf TERM 1))) := by decide +kernel
/-- V-A. -/
theorem test_gencode : (after (exec .gencode (coded treeA []))).map
    (fun s => (s.code.get 65#9, s.code.get 66#9, s.code.get TERM, s.code.get 67#9)) =
      some (some [true], some [false, false], some [false, true], none) := by decide +kernel
/-- V-G1. -/
theorem test_gencode_no_tree : refusal (exec .gencode State.reset) = some .needsState := by decide
/-- V-W1: 32 bits. -/
theorem test_wrmagic_width : (after (exec .wrmagic State.reset)).map (fun s => s.snk.length) = some 32 := by
  simp [exec, execWrmagic, guarded, State.busy, State.ready, State.hasNeeds, performWrmagic, State.writeBits, after,
    State.reset]
/-- V-H3. -/
theorem test_hdrwr : (after (exec .hdrwr (coded treeA []))).map (fun s => s.snk) =
    some (bits [0, 0, 1, 0, 0, 1, 0, 0, 0, 0, 1, 0, 1, 1, 0, 0, 0, 0, 0, 0, 0, 0, 1, 0, 0, 1, 0, 0, 0, 0, 0, 1]) := by
  decide
/-- V-P1. -/
theorem test_encpay : (after (exec .encpay (coded treeA (bytesToBits (bytes [65, 65, 65, 66]))))).map
    (fun s => (s.snk, s.src.pos)) = some (bits [1, 1, 1, 0, 0, 0, 1], 32) := by decide +kernel
/-- V-P5. -/
theorem test_encpay_no_code : refusal (exec .encpay (coded treeA (bytesToBits (bytes [65, 67])))) = some .noCode := by
  decide +kernel
/-- V-E2: 24 bits are no magic, and none is consumed. -/
theorem test_rdmagic_short : (after (exec .rdmagic (fed (List.replicate 24 true)))).map
    (fun s => (s.err, s.src.pos)) = some (some .invalidFormat, 0) := by decide
/-- V-R2. -/
theorem test_hdrrd : (after (exec .hdrrd (fed (headerBits treeA ++ [true])))).map (fun s => (s.tree, s.src.pos)) =
    some (some (.internal 0 (.internal 0 (.leaf 66#9 0) (.leaf TERM 0)) (.leaf 65#9 0)), 32) := by decide
/-- V-R5: the second leaf's symbol is cut; the flag before it is consumed. -/
theorem test_hdrrd_cut : (after (exec .hdrrd (fed (bits [0, 0, 1, 0, 0, 1, 0, 0, 0, 0, 1, 0, 1, 1, 0, 0])))).map
    (fun s => (s.err, s.src.pos, s.tree)) = some (some .invalidFormat, 13, none) := by decide
/-- V-D1 from position 64: seven bits, four bytes, and the pad bit is not read. -/
theorem test_decpay : (after (exec .decpay (coded treeA (bits [1, 1, 1, 0, 0, 0, 1, 0])))).map
    (fun s => (s.snk, s.src.pos, s.err)) = some (bytesToBits (bytes [65, 65, 65, 66]), 7, none) := by decide
/-- V-E6: cut inside the code of byte 66. -/
theorem test_decpay_cut : (after (exec .decpay (coded treeA (bits [1, 1, 1, 0])))).map
    (fun s => (s.snk, s.src.pos, s.err, s.cur)) = some (bytesToBits (bytes [65, 65, 65]), 4, some .truncatedInput, []) := by
  decide
/-- V-P8 for the composite: `ENCODE` without a code table. -/
theorem test_encode_no_codes : refusal (exec .encode { coded treeA [] with codeValid := false }) = some .needsState := by
  decide
/-- V-S2: a failed block refuses `HDRRD`. -/
theorem test_failed_refuses : refusal (exec .hdrrd ((fed []).raise .truncatedInput)) = some .needsState := by decide
/-- V-S1. -/
theorem test_clr : (after (exec .clr ((fed []).raise .truncatedInput))).map (fun s => (s.err, s.cnt.get 0#8)) =
    some (none, 0) := by decide
/-- V-S3. -/
theorem test_rewind : (after (exec .rewind { fed (List.replicate 40 false) with src.pos := 32 })).map (fun s => s.src.pos) =
    some 0 := by decide
/-- V-S4. -/
theorem test_reserved : refusal (step { State.reset with port := [0b1110#4] }) = some .badCommand := by decide
theorem test_reserved_last : refusal (step { State.reset with port := [0b1111#4] }) = some .badCommand := by decide
/-- V-Z1: 42 bits, the last ten of them the header. -/
theorem test_compress_empty : (after (exec .compress State.reset)).map (fun s => (s.snk.drop 32, s.treeValid)) =
    some (bits [1, 1, 0, 0, 0, 0, 0, 0, 0, 0], false) := by decide +kernel
/-- V-E3. -/
theorem test_decompress_empty : (after (exec .decompress State.reset)).map (fun s => (s.err, s.snk)) =
    some (some .invalidFormat, []) := by decide

/-! One token on a small state -/

/-- V-H3: the first token written. -/
theorem test_token_internal : (after (step (busyWith (.hdrWr [treeA]) (coded treeA [])))).map (fun s => (s.snk, s.busy)) =
    some ([false], true) := by decide
/-- V-R1: a single leaf is a whole header. -/
theorem test_token_leaf :
    (after (step (busyWith (.hdrRd { frames := [], seen := [], nint := 0 }) (fed (bits [1, 1, 0, 0, 0, 0, 0, 0, 0, 0]))))).map
      (fun s => (s.tree, s.busy, s.src.pos)) = some (some (.leaf TERM 0), false, 10) := by decide
/-- V-R6: leaf symbol 300. -/
theorem test_token_leaf_reserved :
    (after (step (busyWith (.hdrRd { frames := [none], seen := [], nint := 1 }) (fed (bits [1, 1, 0, 0, 1, 0, 1, 1, 0, 0]))))).map
      (fun s => s.err) = some (some .invalidFormat) := by decide
/-- V-D1: the code of byte 66. -/
theorem test_token_payload : (after (step (busyWith .decPay (coded treeA (bits [0, 0, 0, 1]))))).map
    (fun s => (s.snk, s.src.pos, s.busy)) = some (bytesToBits (bytes [66]), 2, true) := by decide
/-- V-P7: the source is at its end. -/
theorem test_token_terminator : (after (step (busyWith .encPay (coded treeA [])))).map (fun s => (s.snk, s.busy)) =
    some ([false, true], false) := by decide +kernel
/-- V-E2. -/
theorem test_token_magic_short : (after (step (busyWith .rdMagic (fed (List.replicate 24 true))))).map
    (fun s => (s.err, s.busy)) = some (some .invalidFormat, false) := by decide
/-- The table's word is what the next step runs: `HDRWR` without a tree is refused (R231). -/
theorem test_fetch_word : refusal (step (State.reset.withFetchWord 8 0b0101)) = some .needsState := by decide
/-- The medium of V-Z4 after its magic, padded by one bit (R59, R61). -/
theorem test_pack : packBytes (flush (headerBits treeA ++ bits [1, 1, 1, 0, 0, 0, 1])) = bytes [0x24, 0x2C, 0x02, 0x41, 0xE2] := by
  decide

/-! Witnesses: for each statement of Certificates/Slice0/Obligations.lean that has hypotheses, values that meet them all
together, for each of its clauses -/

theorem refused_of {o : Result} {r : Refusal} (h : refusal o = some r) : o = .refused r := by
  cases o <;> simp_all [refusal]

theorem exists_length (n : Nat) : ∃ l : List Byte, l.length = n := ⟨List.replicate n 0#8, List.length_replicate⟩

theorem next_of {o : Result} (h : (after o).isSome = true) : ∃ s, o = .next s := by
  cases o <;> simp_all [after]

theorem fed_idle (src : BitSeq) : (fed src).idle := ⟨rfl, rfl⟩

theorem fed_holds (l : List Byte) (tail : BitSeq) (h : tail.length < 8) :
    (fed (bytesToBits l ++ tail)).src.holdsBytes l := ⟨tail, rfl, h⟩

theorem coded_idle (t : Tree) (src : BitSeq) : (coded t src).idle := ⟨rfl, rfl⟩

theorem coded_holds (t : Tree) (l : List Byte) : (coded t (bytesToBits l)).src.holdsBytes l :=
  ⟨[], by simp [coded, fed, Src.rest], by decide⟩

theorem treeA_valid : treeA.Valid := by decide

theorem treeA_coded {l : List Byte} (h : ∀ b ∈ l, b = 65#8 ∨ b = 66#8) : allCoded (codeTable treeA) l := by
  intro b hb
  rcases h b hb with rfl | rfl <;> decide +kernel

theorem treeA_term : (codeTable treeA).get TERM = some [false, true] := by decide +kernel

theorem treeB_valid : treeB.Valid := by decide

/-- The tree of V-A as `HDRRD` leaves it, every weight 0, so that it fits every width. -/
theorem coded_inv (src : BitSeq) : (coded treeA.shape src).Inv where
  position := Nat.zero_le _
  counts := by intro h; cases h
  tree := by intro t h; cases h; decide
  weights := by
    intro t h
    cases h
    exact ⟨rfl, by simp [treeA, Tree.shape, Tree.weightsBelow]⟩
  codes := fun _ => ⟨treeA.shape, rfl, rfl⟩
  cur := rfl
  failed := by intro h; cases h
  job := by intro j h; cases h

theorem failed_inv (port : List OpCode) : ({ State.reset with err := some .invalidFormat, port := port } : State).Inv where
  position := Nat.zero_le _
  counts := by intro h; cases h
  tree := by intro t h; cases h
  weights := by intro t h; cases h
  codes := by intro h; cases h
  cur := rfl
  failed := fun _ => ⟨rfl, rfl, rfl, rfl⟩
  job := by intro j h; cases h

/-- The header reader before its first token. -/
def emptyReader : HdrReader := { frames := [], seen := [], nint := 0 }

theorem witness_StepRunsDecodedInstruction_command :
    ({ State.reset with port := [1#4] } : State).job = none ∧ ({ State.reset with port := [1#4] } : State).port = [1#4] := by
  decide
theorem witness_StepRunsDecodedInstruction_nothing : State.reset.job = none ∧ State.reset.port = [] := by decide
theorem witness_StepRunsDecodedInstruction_busy :
    ∃ s : State, s.job = some .decPay ∧ s.port = [15#4] := ⟨{ busyWith .decPay (fed []) with port := [15#4] }, rfl, rfl⟩
theorem witness_StepRunsDecodedInstruction_magic : ∃ s : State, s.port = [] ∧ s.job = some .rdMagic ∧
    decode .magic s.src.rest = .ok (.streamMagic 7#32, [true]) :=
  ⟨busyWith .rdMagic (fed (be 32 7 ++ [true])), rfl, rfl, by decide⟩
theorem witness_StepRunsDecodedInstruction_header : ∃ s : State, s.port = [] ∧ s.job = some (.hdrRd emptyReader) ∧
    decode .header s.src.rest = .ok (.hdrLeaf 511#9, []) :=
  ⟨busyWith (.hdrRd emptyReader) (fed (List.replicate 10 true)), rfl, rfl, by decide⟩
theorem witness_StepRunsDecodedInstruction_payload : ∃ s : State, s.port = [] ∧ s.job = some .decPay ∧
    s.tree = some treeA ∧ decode (.payload treeA) s.src.rest = .ok (.terminatorCode [false, true], [true]) :=
  ⟨busyWith .decPay (coded treeA [false, true, true]), rfl, rfl, rfl, by decide⟩
theorem witness_StepRunsDecodedInstruction_singleton : ∃ s : State, s.port = [] ∧ s.job = some .decPay ∧
    s.tree = some treeB := ⟨busyWith .decPay (coded treeB []), rfl, rfl, rfl⟩

theorem witness_DecodeInvertsEncode_leaf :
    (Instr.hdrLeaf 256#9).wf = true ∧ fixedFormat (.hdrLeaf 256#9) = some .header := by decide
theorem witness_DecodeInvertsEncode_command :
    Instr.reserved1111.wf = true ∧ fixedFormat .reserved1111 = some .command := by decide
theorem witness_DecodeInvertsEncode_code : treeA.leafAt [false, true] TERM := ⟨1, rfl⟩
theorem witness_EncodeInvertsDecode :
    decode .header (true :: be 9 300) = .ok (.hdrLeaf 300#9, []) := by decide
theorem witness_HeaderParseIsUnique : headerBits treeA ++ [] = headerBits treeA.shape ++ [] := by decide

theorem witness_HeaderLengthIsElevenPerLeaf : ∃ s s' : State, s.tree = some treeA ∧ exec .hdrwr s = .next s' :=
  ⟨coded treeA [], _, rfl, rfl⟩
/-- The bits of a full 9-bit value, and a read that straddles the end (R53). -/
theorem witness_ReadsMirrorWrites_read : 511 < 2 ^ 9 ∧ (fed (be 9 511)).src.rest = be 9 511 ++ [] := by decide
theorem witness_ReadsMirrorWrites_end :
    (fed (be 8 255)).src.bits.length - (fed (be 8 255)).src.pos < 9 := by decide

theorem witness_ResetAndClrGiveTheTable : ((fed []).raise .truncatedInput).job = none := rfl
theorem witness_StepKeepsInvariant : ∃ s s' : State, s.Inv ∧ step s = .next s' :=
  ⟨coded treeA.shape [], _, coded_inv [], rfl⟩
theorem witness_StepsStopOnlyForListedReasons_needsState : step { State.reset with port := [2#4] } = .refused .needsState := rfl
theorem witness_StepsStopOnlyForListedReasons_badCommand : step { State.reset with port := [14#4] } = .refused .badCommand := rfl
theorem witness_StepsStopOnlyForListedReasons_noCode :
    step (busyWith .encPay (coded treeB (bytesToBits (bytes [65])))) = .refused .noCode :=
  refused_of (by decide +kernel)
theorem witness_StepsStopOnlyForListedReasons_widthOverflow (l : List Byte) (h : l.length = Config.maxInput + 1) :
    step { fed (bytesToBits l ++ []) with port := [1#4] } = .refused .widthOverflow := by
  have e := performCount_eq (fed_holds l [] (by decide))
  rw [h, if_neg (Nat.not_succ_le_self _)] at e
  exact e
theorem witness_StepsStopOnlyForListedReasons_longInput : ∃ l : List Byte, l.length = Config.maxInput + 1 :=
  exists_length _
theorem witness_SourceUnchangedSinkGrows : ∃ s s' : State, step s = .next s' :=
  ⟨_, next_of (o := step (busyWith .encPay (coded treeA []))) (by decide +kernel)⟩
theorem witness_FailureStateIsR225 :
    ∃ s s' : State, s.err = none ∧ step s = .next s' ∧ s'.err ≠ none :=
  ⟨{ fed [] with port := [7#4] }, _, rfl, rfl, by decide⟩
theorem witness_OnlyReadersRaiseErrors_command : ∃ s s' : State, s.err = none ∧ step s = .next s' ∧
    s'.err = some .invalidFormat := ⟨{ fed [] with port := [8#4] }, _, rfl, rfl, rfl⟩
theorem witness_OnlyReadersRaiseErrors_payload : ∃ s s' : State, s.err = none ∧ step s = .next s' ∧
    s'.err = some .truncatedInput := ⟨busyWith .decPay (coded treeA []), _, rfl, rfl, rfl⟩
theorem witness_OnlyRewindMovesSourceBack : ∃ s s' : State, step s = .next s' ∧ s'.src.pos < s.src.pos :=
  ⟨{ State.reset with src := { bits := [true], pos := 1 }, port := [13#4] }, _, rfl, by decide⟩
theorem witness_ErrorIsSticky_rewind : ∃ s s' : State, s.Inv ∧ s.err = some .invalidFormat ∧ step s = .next s' :=
  ⟨{ State.reset with err := some .invalidFormat, port := [13#4] }, _, failed_inv _, rfl, rfl⟩
theorem witness_ErrorIsSticky_clr : ∃ s s' : State, s.Inv ∧ s.err = some .invalidFormat ∧ step s = .next s' ∧
    s'.err = none :=
  ⟨{ State.reset with err := some .invalidFormat, port := [0#4] }, _, failed_inv _, rfl, rfl, rfl⟩
theorem witness_NeedsStateIsRefused : State.reset.job = none ∧ State.reset.cntValid = false ∧ State.reset.tree = none ∧
    State.reset.codeValid = false := by decide
theorem witness_NeedsStateIsRefused_failed : ((fed []).raise .truncatedInput).job = none ∧
    ((fed []).raise .truncatedInput).err ≠ none := by decide
theorem witness_BadCommandIsRefused : (busyWith .rdMagic State.reset).job = some .rdMagic := rfl

theorem witness_CountTalliesBytes_tail : (fed (bytesToBits [] ++ List.replicate 7 true)).idle ∧
    (fed (bytesToBits [] ++ List.replicate 7 true)).src.holdsBytes [] ∧
    ([] : List Byte).length ≤ Config.maxInput := ⟨fed_idle _, fed_holds _ _ (by decide), Nat.zero_le _⟩
theorem witness_CountTalliesBytes_longest : ∃ (s : State) (l : List Byte), s.idle ∧ s.src.holdsBytes l ∧
    l.length = Config.maxInput :=
  ⟨_, List.replicate Config.maxInput 0#8, fed_idle _, fed_holds _ [] (by decide), List.length_replicate⟩
theorem witness_CountRefusesLongInput : ∃ (s : State) (l : List Byte), s.src.holdsBytes l ∧
    2 ^ Config.countWidth - 2 < l.length ∧ s.idle ∧ s.job = none := by
  refine ⟨_, List.replicate (2 ^ Config.countWidth - 2 + 1) 0#8, fed_holds _ [] (by decide), ?_, fed_idle _, rfl⟩
  rw [List.length_replicate]
  exact Nat.lt_succ_self _
theorem count_longest_next : ∃ s', exec .count (fed (bytesToBits (List.replicate Config.maxInput 65#8) ++ [])) = .next s' := by
  have h := performCount_eq (fed_holds (List.replicate Config.maxInput 65#8) [] (by decide))
  rw [if_pos (by rw [List.length_replicate])] at h
  exact ⟨_, (by rw [exec, execCount, guarded_ready rfl rfl] : exec .count _ = performCount _).trans h⟩
theorem witness_CountRefusesLongInput_completes : ∃ s s' : State, exec .count s = .next s' :=
  ⟨_, count_longest_next⟩
theorem witness_CountsDescribeInput : ∃ (s s' : State) (l : List Byte), s.idle ∧ s.src.holdsBytes l ∧
    exec .count s = .next s' ∧ l.length = Config.maxInput := by
  obtain ⟨s', h⟩ := count_longest_next
  exact ⟨_, s', _, fed_idle _, fed_holds _ [] (by decide), h, List.length_replicate⟩

theorem witness_BuildMakesWeightedTree : ∃ s : State, s.idle ∧ s.cntValid = true ∧ s.cnt.get 65#8 = 3 :=
  ⟨{ fed [] with cnt := countsOf (bytes [65, 65, 65, 66]), cntValid := true }, ⟨rfl, rfl⟩, rfl,
    by decide +kernel⟩
/-- Two entries of one weight: the earlier is removed first, the later next. -/
theorem witness_MergeTakesTwoSmallest : ∃ (q : List PQEntry) (a b : PQEntry) (rest rest' : List PQEntry), q ≠ [] ∧
    removeMin q = some (a, rest) ∧ removeMin rest = some (b, rest') ∧ a.weight = b.weight ∧ a.seq < b.seq :=
  ⟨[⟨3, 0, .leaf 65#9 3⟩, ⟨1, 1, .leaf 66#9 1⟩, ⟨1, 2, .leaf TERM 1⟩], ⟨1, 1, .leaf 66#9 1⟩, ⟨1, 2, .leaf TERM 1⟩,
    [⟨3, 0, .leaf 65#9 3⟩, ⟨1, 2, .leaf TERM 1⟩], [⟨3, 0, .leaf 65#9 3⟩], by decide⟩
theorem witness_MergeTakesTwoSmallest_root : removeMin [⟨1, 0, .leaf TERM 1⟩] = some (⟨1, 0, .leaf TERM 1⟩, []) := by decide
theorem witness_MergeTakesTwoSmallest_build : ∃ s : State, s.idle ∧ s.cntValid = true ∧
    (initialQueue s.cnt).entries = [⟨3, 0, .leaf 65#9 3⟩, ⟨1, 1, .leaf 66#9 1⟩, ⟨1, 2, .leaf TERM 1⟩] :=
  ⟨{ fed [] with cnt := countsOf (bytes [65, 65, 65, 66]), cntValid := true }, ⟨rfl, rfl⟩, rfl, by decide +kernel⟩
/-- The counts 0, 1 and 2 of one byte value: the two meeting points of the three clauses, and the first of them. -/
theorem witness_BuildOnAtMostOneByteValue (n : Nat) : ∃ (s : State) (v : Byte), s.idle ∧ s.cntValid = true ∧
    (∀ u : Byte, u ≠ v → s.cnt.get u = 0) ∧ s.cnt.get v = n := by
  refine ⟨{ fed [] with cnt := countsOf (List.replicate n 97#8), cntValid := true }, 97#8, ⟨rfl, rfl⟩, rfl, ?_, ?_⟩
  · intro u hu
    show (countsOf (List.replicate n 97#8)).get u = 0
    rw [countsOf_get, List.count_replicate, if_neg (by simpa using hu.symm)]
  · show (countsOf (List.replicate n 97#8)).get 97#8 = n
    rw [countsOf_get, List.count_replicate_self]
theorem witness_HeavierLeafIsNotDeeper : buildTree (countsOf (bytes [65, 65, 65, 66])) = some treeA ∧
    treeA.nodeAt [true] = some (.leaf 65#9 3) ∧ treeA.nodeAt [false, false] = some (.leaf 66#9 1) ∧ 1 < 3 :=
  ⟨test_build_ties, rfl, rfl, by decide⟩

theorem witness_GencodeRecordsPaths : (coded treeA []).idle ∧ (coded treeA []).tree = some treeA ∧ treeA.Valid :=
  ⟨coded_idle _ _, rfl, treeA_valid⟩
theorem witness_SingletonCodeIsEmpty : (coded treeB []).idle ∧ (coded treeB []).tree = some (.leaf TERM 1) :=
  ⟨coded_idle _ _, rfl⟩
theorem witness_CodesArePrefixFree : treeA.Valid ∧ (codeTable treeA).get 66#9 = some [false, false] ∧
    [false, false] <+: [false, false] := ⟨treeA_valid, by decide +kernel, List.prefix_refl _⟩
theorem witness_CodesFillTheCodeSpace : treeA.Valid ∧ treeB.Valid ∧ 2 ≤ treeA.leaves.length := by decide

theorem witness_HdrwrAppendsHeader : (coded treeA []).idle ∧ (coded treeA []).tree = some treeA :=
  ⟨coded_idle _ _, rfl⟩
theorem witness_HdrrdReadsHeader_forward : (fed (headerBits treeA ++ [true])).idle ∧ treeA.Valid ∧
    (fed (headerBits treeA ++ [true])).src.rest = headerBits treeA ++ [true] := ⟨fed_idle _, treeA_valid, rfl⟩
theorem witness_HdrrdReadsHeader_converse : ∃ s s' : State, s.idle ∧ exec .hdrrd s = .next s' ∧ s'.err = none ∧
    s'.tree = some treeA.shape := ⟨fed (headerBits treeA ++ [true]), _, fed_idle _, rfl, rfl, by decide⟩
/-- V-R3: the source ends. -/
theorem witness_HdrrdRejectsMalformedHeader_end :
    (fed []).idle ∧ ¬ ∃ (t : Tree) (z : BitSeq), t.Valid ∧ (fed []).src.rest = headerBits t ++ z := by
  refine ⟨fed_idle _, ?_⟩
  rintro ⟨t, z, -, h⟩
  cases t <;> simp [headerBits_leaf, headerBits_internal, fed, Src.rest] at h
/-- V-R9: a complete tree with no terminator. -/
theorem witness_HdrrdRejectsMalformedHeader_noTerminator :
    (fed (true :: be 9 65)).idle ∧ ¬ ∃ (t : Tree) (z : BitSeq), t.Valid ∧ (fed (true :: be 9 65)).src.rest = headerBits t ++ z := by
  refine ⟨fed_idle _, ?_⟩
  rintro ⟨t, z, hv, h⟩
  cases t with
  | internal w l r => rw [headerBits_internal] at h; simp [fed, Src.rest] at h
  | leaf sym w =>
    have hs : sym = TERM := by have := hv.term_mem; simp [Tree.leaves] at this; exact this.symm
    subst hs
    have h : true :: be 9 65 = true :: (be 9 TERM.toNat ++ z) := h
    have h := congrArg (List.take 10) h
    rw [List.take_succ_cons, List.take_succ_cons, List.take_left' (be_length 9 _)] at h
    revert h
    decide
theorem witness_HeaderCopyIsExact : ∃ s s' : State, s.idle ∧ exec .hdrrd s = .next s' ∧ s'.err = none :=
  ⟨fed (headerBits treeB ++ [true]), _, fed_idle _, rfl, rfl⟩

theorem witness_WrmagicAppendsMagic : State.reset.idle := ⟨rfl, rfl⟩
theorem witness_EncpayWritesCodes : ∃ s : State, s.idle ∧ s.codeValid = true ∧ s.tree = some treeA ∧
    s.src.holdsBytes (bytes [65, 66]) ∧ allCoded s.code (bytes [65, 66]) ∧ s.code.get TERM = some [false, true] :=
  ⟨coded treeA (bytesToBits (bytes [65, 66])), coded_idle _ _, rfl, rfl, coded_holds _ _,
    treeA_coded (by decide), treeA_term⟩
theorem witness_EncpayOnSingletonTree (l : List Byte) : (coded treeB (bytesToBits l)).idle ∧
    (coded treeB (bytesToBits l)).codeValid = true ∧ (coded treeB (bytesToBits l)).tree = some (.leaf TERM 1) ∧
    (coded treeB (bytesToBits l)).src.holdsBytes l := ⟨coded_idle _ _, rfl, rfl, coded_holds _ _⟩
theorem witness_EncpayRefusesByteWithoutCode : ∃ s : State, s.idle ∧ s.codeValid = true ∧ s.tree = some treeA ∧
    s.src.holdsBytes (bytes [65, 67]) ∧ ¬ allCoded s.code (bytes [65, 67]) :=
  ⟨coded treeA (bytesToBits (bytes [65, 67])), coded_idle _ _, rfl, rfl, coded_holds _ _,
    fun h => by have := h 67#8 (by decide); revert this; decide +kernel⟩
theorem witness_EncodeWritesWholeStream : ∃ s : State, s.idle ∧ s.codeValid = true ∧ s.tree = some treeA ∧
    treeA.Valid ∧ s.code = codeTable treeA ∧ s.src.holdsBytes (bytes [65, 66]) ∧ allCoded s.code (bytes [65, 66]) :=
  ⟨coded treeA (bytesToBits (bytes [65, 66])), coded_idle _ _, rfl, rfl, treeA_valid, rfl, coded_holds _ _,
    treeA_coded (by decide)⟩

theorem witness_RdmagicChecksLeadingBits_magic (z : BitSeq) :
    (fed (be 32 Config.magicTree.toNat ++ z)).idle ∧
      (fed (be 32 Config.magicTree.toNat ++ z)).src.rest = be 32 Config.magicTree.toNat ++ z := ⟨fed_idle _, rfl⟩
/-- V-E1: one magic bit flipped. -/
theorem witness_RdmagicChecksLeadingBits_other : ∃ (s : State) (m : BitVec 32) (z : BitSeq), s.idle ∧
    s.src.rest = be 32 m.toNat ++ z ∧ m ≠ Config.magicTree :=
  ⟨fed (be 32 (Config.magicTree ^^^ 1#32).toNat ++ []), _, [], fed_idle _, rfl, fun h => by simpa using congrArg (· ^^^ Config.magicTree) h⟩
theorem witness_RdmagicChecksLeadingBits_short : (fed (List.replicate 31 true)).idle ∧
    (fed (List.replicate 31 true)).src.rest.length < 32 := ⟨fed_idle _, by decide⟩

theorem witness_DecstepWalksOneBit_leaf : ∃ s : State, s.tree = some treeA ∧
    treeA.nodeAt s.cur = some (.internal 2 (.leaf 66#9 1) (.leaf TERM 1)) ∧ s.src.rest = [true] :=
  ⟨{ coded treeA [true] with cur := [false] }, rfl, rfl, rfl⟩
theorem witness_DecstepWalksOneBit_internal : ∃ s : State, s.tree = some treeA ∧ treeA.nodeAt s.cur = some treeA ∧
    s.src.rest = [false] := ⟨coded treeA [false], rfl, rfl, rfl⟩
theorem witness_DecstepWalksOneBit_end : ∃ s : State, s.tree = some treeA ∧ treeA.nodeAt s.cur = some treeA ∧
    s.src.rest = [] := ⟨coded treeA [], rfl, rfl, rfl⟩
theorem witness_DecpayDecodesBytes : ∃ s : State, s.idle ∧ s.tree = some treeA ∧ treeA.Valid ∧
    allCoded (codeTable treeA) (bytes [65, 66]) ∧ (codeTable treeA).get TERM = some [false, true] ∧
    s.src.rest = payloadBits (codeTable treeA) (bytes [65, 66]) ++ [false, true] ++ [true] :=
  ⟨coded treeA (bits [1, 0, 0, 0, 1, 1]), coded_idle _ _, rfl, treeA_valid, treeA_coded (by decide), treeA_term,
    by decide +kernel⟩
theorem witness_DecpayOnSingletonTree : (coded treeB [true]).idle ∧ (coded treeB [true]).tree = some (.leaf TERM 1) :=
  ⟨coded_idle _ _, rfl⟩
/-- V-E5 and V-E6: the source ends at a code boundary, and inside a code. -/
theorem witness_DecpayReportsTruncation_boundary : ∃ s : State, s.idle ∧ s.tree = some treeA ∧ treeA.Valid ∧
    allCoded (codeTable treeA) [] ∧ treeA.nodeAt [] = some treeA ∧
    s.src.rest = payloadBits (codeTable treeA) [] ++ [] :=
  ⟨coded treeA [], coded_idle _ _, rfl, treeA_valid, by simp [allCoded], rfl, rfl⟩
theorem witness_DecpayReportsTruncation_inside : ∃ s : State, s.idle ∧ s.tree = some treeA ∧ treeA.Valid ∧
    allCoded (codeTable treeA) (bytes [65]) ∧
    treeA.nodeAt [false] = some (.internal 2 (.leaf 66#9 1) (.leaf TERM 1)) ∧
    s.src.rest = payloadBits (codeTable treeA) (bytes [65]) ++ [false] :=
  ⟨coded treeA [true, false], coded_idle _ _, rfl, treeA_valid, treeA_coded (by decide), rfl,
    by decide +kernel⟩
theorem witness_DecpayIgnoresTrailingBits : ∃ s s' : State, exec .decpay s = .next s' ∧ s'.err = none :=
  ⟨coded treeA [false, true], _, rfl, rfl⟩

theorem witness_RewindReturnsToStart : ∃ s : State, s.job = none ∧ s.err = some .truncatedInput ∧ s.src.pos = 5 :=
  ⟨{ (fed (List.replicate 5 true)).raise .truncatedInput with src := ⟨List.replicate 5 true, 5⟩ }, rfl, rfl, rfl⟩
theorem witness_CompressWritesStream : ∃ (s : State) (l : List Byte), s.job = none ∧ s.src.pos = 0 ∧ s.src.holdsBytes l ∧
    l.length = Config.maxInput :=
  ⟨fed (bytesToBits (List.replicate Config.maxInput 65#8) ++ [true]), _, rfl, rfl, fed_holds _ _ (by decide),
    List.length_replicate⟩
theorem compress_empty_next : ∃ s', exec .compress (fed []) = .next s' := by
  apply next_of
  have h := test_compress_empty
  revert h
  show (after (exec .compress State.reset)).map _ = _ → (after (exec .compress State.reset)).isSome = true
  cases after (exec .compress State.reset)
  · intro h; cases h
  · intro _; rfl
theorem witness_CompressLengthIsR88 : ∃ s s' : State, s.src.pos = 0 ∧ s.src.holdsBytes [] ∧
    exec .compress s = .next s' := by
  obtain ⟨s', h⟩ := compress_empty_next
  exact ⟨fed [], s', rfl, fed_holds [] [] (by decide), h⟩
theorem witness_CompressIgnoresBlockState : ∃ s u s' : State, s ≠ u ∧ s.job = none ∧ u.job = none ∧ s.src = u.src ∧
    s.snk = u.snk ∧ exec .compress s = .next s' := by
  obtain ⟨s', h⟩ := compress_empty_next
  exact ⟨fed [], (fed []).raise .truncatedInput, s', (fun e => nomatch congrArg State.err e), rfl, rfl, rfl, rfl, h⟩
theorem witness_CompressThenDecompress : ∃ (s u : State) (l : List Byte) (t : Tree), s.job = none ∧
    s.src = { bits := bytesToBits l, pos := 0 } ∧ s.snk = [] ∧ l.length = Config.maxInput ∧ u.job = none ∧
    u.src = { bits := streamBits t l ++ [true], pos := 0 } ∧ u.snk = [] :=
  ⟨fed _, fed _, List.replicate Config.maxInput 65#8, treeA, rfl, rfl, rfl, List.length_replicate, rfl, rfl, rfl⟩
/-- A tree that no `BUILD` makes: every leaf has weight 0. -/
theorem witness_CompressThenDecompress_anyTree : ∃ (u : State) (z : BitSeq), u.job = none ∧ treeA.shape.Valid ∧
    allCoded (codeTable treeA.shape) (bytes [65, 66]) ∧
    u.src.rest = be 32 Config.magicTree.toNat ++ headerBits treeA.shape ++
      payloadBits (codeTable treeA.shape) (bytes [65, 66]) ++ terminatorBits (codeTable treeA.shape) ++ z ∧ z = [true] :=
  ⟨fed _, _, rfl, by decide, treeA_coded (by decide), rfl, rfl⟩
/-- A cut in the empty input's stream, anywhere, with every width. -/
theorem witness_CutStreamIsReported_empty (n : Nat) (h : n < (streamBits treeB []).length) :
    ([] : List Byte).length ≤ Config.maxInput ∧ buildTree (countsOf []) = some treeB ∧
    n < (streamBits treeB []).length ∧
    ∃ u : State, u.job = none ∧ u.src = { bits := (streamBits treeB []).take n, pos := 0 } :=
  ⟨Nat.zero_le _, by decide +kernel, h, fed _, rfl, rfl⟩
/-- A cut in the header and a cut after it, at the two bounds of the two clauses, with a width that accepts 4 bytes. -/
theorem witness_CutStreamIsReported (hw : 4 ≤ Config.maxInput) (n : Nat)
    (h : n < (streamBits treeA (bytes [65, 65, 65, 66])).length) :
    (bytes [65, 65, 65, 66]).length ≤ Config.maxInput ∧ buildTree (countsOf (bytes [65, 65, 65, 66])) = some treeA ∧
    n < (streamBits treeA (bytes [65, 65, 65, 66])).length ∧
    ∃ u : State, u.job = none ∧ u.src = { bits := (streamBits treeA (bytes [65, 65, 65, 66])).take n, pos := 0 } :=
  ⟨hw, test_build_ties, h, fed _, rfl, rfl⟩
/-- The default width accepts 4 bytes. -/
theorem witness_default_width (h : Config.widthBuilt = none) : 4 ≤ Config.maxInput := by
  rw [Config.maxInput_default h]
  decide
theorem witness_CutStreamIsReported_bounds : 32 + (headerBits treeA).length = 64 ∧
    (streamBits treeA (bytes [65, 65, 65, 66])).length = 71 := by
  refine ⟨by decide, ?_⟩
  rw [streamBits, List.append_assoc, List.append_assoc, List.length_append, be_length]
  decide +kernel
theorem witness_CorruptMagicIsReported_short : (fed (bits [1])).job = none ∧
    (fed (bits [1])).src.rest.take 32 ≠ be 32 Config.magicTree.toNat :=
  ⟨rfl, fun h => by have := congrArg List.length h; rw [be_length] at this; revert this; decide⟩
theorem witness_DecompressEndsClearOrFailed : ((fed []).raise .truncatedInput).job = none := rfl

theorem witness_MagicTokenIsReadAndWritten : (busyWith .rdMagic (fed [])).job = some .rdMagic ∧
    (busyWith .wrMagic (fed [])).job = some .wrMagic := ⟨rfl, rfl⟩
theorem witness_MagicTokenIsReadAndWritten_other : ∃ m : BitVec 32, m ≠ Config.magicTree := ⟨Config.magicTree ^^^ 1#32, fun h => by simpa using congrArg (· ^^^ Config.magicTree) h⟩
/-- The last internal node that is taken, and the 257th. -/
theorem witness_InternalTokenIsReadAndWritten : ∃ s t u : State, ∃ r r' : HdrReader, s.job = some (.hdrRd r) ∧
    r.nint = 255 ∧ t.job = some (.hdrRd r') ∧ r'.nint = 256 ∧ u.job = some (.hdrWr [treeA]) :=
  ⟨busyWith (.hdrRd ⟨[], [], 255⟩) (fed []), busyWith (.hdrRd ⟨[], [], 256⟩) (fed []), busyWith (.hdrWr [treeA]) (fed []),
    ⟨[], [], 255⟩, ⟨[], [], 256⟩, rfl, rfl, rfl, rfl, rfl⟩
theorem witness_LeafTokenIsReadAndWritten_reserved : (busyWith (.hdrRd emptyReader) (fed [])).job = some (.hdrRd emptyReader) ∧
    256 < (257#9).toNat := ⟨rfl, by decide⟩
theorem witness_LeafTokenIsReadAndWritten_repeated : ∃ (s : State) (r : HdrReader), s.job = some (.hdrRd r) ∧ 65#9 ∈ r.seen :=
  ⟨busyWith (.hdrRd ⟨[none], [65#9], 1⟩) (fed []), ⟨[none], [65#9], 1⟩, rfl, by decide⟩
theorem witness_LeafTokenIsReadAndWritten_left : ∃ (s : State) (r : HdrReader), s.job = some (.hdrRd r) ∧
    TERM.toNat ≤ 256 ∧ TERM ∉ r.seen ∧ r.frames = [].map some ++ none :: [] :=
  ⟨busyWith (.hdrRd ⟨[none], [], 1⟩) (fed []), ⟨[none], [], 1⟩, rfl, by decide⟩
theorem witness_LeafTokenIsReadAndWritten_right : ∃ (s : State) (r : HdrReader), s.job = some (.hdrRd r) ∧
    TERM.toNat ≤ 256 ∧ TERM ∉ r.seen ∧ r.frames = [Tree.leaf 66#9 0].map some ++ none :: [] :=
  ⟨busyWith (.hdrRd ⟨[some (.leaf 66#9 0), none], [66#9], 2⟩) (fed []), ⟨[some (.leaf 66#9 0), none], [66#9], 2⟩, rfl,
    by decide⟩
theorem witness_LeafTokenIsReadAndWritten_last : ∃ (s : State) (r : HdrReader), s.job = some (.hdrRd r) ∧
    TERM.toNat ≤ 256 ∧ TERM ∉ r.seen ∧ r.frames = [Tree.leaf 66#9 0].map some :=
  ⟨busyWith (.hdrRd ⟨[some (.leaf 66#9 0)], [66#9], 1⟩) (fed []), ⟨[some (.leaf 66#9 0)], [66#9], 1⟩, rfl, by decide⟩
theorem witness_LeafTokenIsReadAndWritten_singleton : ∃ (s : State) (r : HdrReader), s.job = some (.hdrRd r) ∧
    TERM.toNat ≤ 256 ∧ TERM ∉ r.seen ∧ r.frames = [].map some :=
  ⟨busyWith (.hdrRd emptyReader) (fed []), emptyReader, rfl, by decide⟩
theorem witness_LeafTokenIsReadAndWritten_written :
    (busyWith (.hdrWr [.leaf 66#9 1]) (fed [])).job = some (.hdrWr [.leaf 66#9 1]) := rfl
theorem witness_PayloadTokenIsReadAndWritten_read : ∃ s : State, s.job = some .decPay ∧ s.tree = some treeA ∧
    treeA.isLeaf = false ∧ s.cur = [] ∧ treeA.leafAt [false, false] (byteSymbol 66#8) :=
  ⟨busyWith .decPay (coded treeA []), rfl, rfl, rfl, rfl, 1, by decide⟩
theorem witness_PayloadTokenIsReadAndWritten_written : ∃ s : State, s.job = some .encPay ∧ s.tree = some treeA ∧
    treeA.isLeaf = false ∧ s.src.rest = be 8 (66#8).toNat ++ [true] ∧ s.code.get (byteSymbol 66#8) = some [false, false] :=
  ⟨busyWith .encPay (coded treeA (be 8 66 ++ [true])), rfl, rfl, rfl, rfl, by decide +kernel⟩
theorem witness_TerminatorTokenIsReadAndWritten_read : ∃ s : State, s.job = some .decPay ∧ s.tree = some treeB ∧
    s.cur = [] ∧ treeB.leafAt [] TERM := ⟨busyWith .decPay (coded treeB []), rfl, rfl, rfl, 1, rfl⟩
theorem witness_TerminatorTokenIsReadAndWritten_written : ∃ s : State, s.job = some .encPay ∧ s.tree = some treeA ∧
    treeA.isLeaf = false ∧ s.src.rest.length < 8 ∧ s.code.get TERM = some [false, true] :=
  ⟨busyWith .encPay (coded treeA (List.replicate 7 true)), rfl, rfl, rfl, by decide, treeA_term⟩
theorem witness_TerminatorTokenIsReadAndWritten_singleton : ∃ s : State, s.job = some .encPay ∧ s.tree = some treeB ∧
    s.src.rest.length < 8 := ⟨busyWith .encPay (coded treeB []), rfl, rfl, by decide⟩
theorem witness_TokenStepsPerformOperation :
    ∀ i ∈ [Instr.rdmagic, .hdrrd, .decpay, .wrmagic, .hdrwr, .encpay],
      (coded treeA []).idle ∧ (coded treeA []).hasNeeds i = true ∧ (coded treeA []).port = [] := by
  refine fun i hi => ⟨coded_idle _ _, ?_, rfl⟩
  fin_cases hi <;> rfl

end Sys2Proof.Tests
end

/-!
PROOFS. The iteration of an operation's token steps answers what the atomic operation answers (spec/00_scope.md R15,
spec/30_encoding.md R98, spec/42_code_table_generator.md R145, spec/43_header_codec.md R160). For each reader and writer
of tokens: what its single step answers, then what its steps together answer, by the recursion of the atomic operation.
-/

namespace Sys2Proof.Machine

variable {s s' : State} {o : Result}

/-! Runs -/

theorem coreRun_one (M : Host.Core) (s : M.State) : M.run 1 s = M.step s := by
  rw [Host.Core.run]
  cases M.step s <;> rfl

/-- A run that goes on to a next state is continued from there. -/
theorem coreRun_add {M : Host.Core} {m n : Nat} {s s' : M.State} (h : M.run m s = .next s') :
    M.run (m + n) s = M.run n s' := by
  induction m generalizing s with
  | zero => cases h; rw [Nat.zero_add]
  | succ m ih =>
    rw [Host.Core.run] at h
    rw [Nat.succ_add, Host.Core.run]
    cases hs : M.step s with
    | next t => rw [hs] at h; exact ih h
    | fault r => rw [hs] at h; cases h
    | refused r => rw [hs] at h; cases h

/-- Some number of steps from `s` answers `o`. -/
def Answers (s : State) (o : Result) : Prop := ∃ n : Nat, run n s = o

theorem Answers.of_step (h : step s = o) : Answers s o := ⟨1, (coreRun_one core s).trans h⟩

theorem Answers.trans (h : Answers s (.next s')) (h' : Answers s' o) : Answers s o := by
  obtain ⟨m, hm⟩ := h
  obtain ⟨n, hn⟩ := h'
  exact ⟨m + n, (coreRun_add (M := core) hm).trans hn⟩

theorem Answers.step (h : step s = .next s') (h' : Answers s' o) : Answers s o := (Answers.of_step h).trans h'

/-- Answering what an accepted command performs is answering the command (R231, R233). -/
theorem Answers.guarded {i : Instr} (h : Answers s' o) (hj : s.job = none) (hr : s.ready i = true) :
    Answers s' (guarded i s o) := by rwa [guarded_ready hj hr]

theorem State.setJob_self {j : Option Job} (h : s.job = j) : s.setJob j = s := by subst h; rfl

/-! `RDMAGIC` and `WRMAGIC`: one token -/

theorem step_rdMagic (hj : s.job = some .rdMagic) (hp : s.port = []) : step s = performRdmagic (s.setJob none) := by
  rw [step_inProgress hj hp, performRdmagic]
  simp only [fetchInProgress, fetchToken, decode, State.setJob_src]
  rcases Src.readBits_cases 32 s.src with ⟨h, e⟩ | ⟨h, e⟩
  · rw [e, if_pos h]
    simp only [Fetched.answer, exec, execStreamMagic, State.setSrc_job, hj, encode, be_length]
    rfl
  · rw [e, if_neg (Nat.not_le.mpr h)]
    rfl

theorem step_wrMagic (hj : s.job = some .wrMagic) (hp : s.port = []) : step s = performWrmagic (s.setJob none) := by
  rw [step_inProgress hj hp, answer_wrMagic hj]
  rfl

/-! `HDRWR`: the tokens of a tree in pre-order -/

theorem step_hdrWr_leaf {sym : Symbol} {w : Nat} {todo : List Tree} (hj : s.job = some (.hdrWr (.leaf sym w :: todo)))
    (hp : s.port = []) : step s = .next ((s.writeSeq (encode (.hdrLeaf sym))).setJob (writeNext todo)) := by
  rw [step_inProgress hj hp]
  simp [fetchInProgress, fetchHeaderNode, Fetched.answer, exec, execHdrLeaf, hj]

theorem step_hdrWr_internal {w : Nat} {l r : Tree} {todo : List Tree}
    (hj : s.job = some (.hdrWr (.internal w l r :: todo))) (hp : s.port = []) :
    step s = .next ((s.writeSeq (encode .hdrInternal)).setJob (some (.hdrWr (l :: r :: todo)))) := by
  rw [step_inProgress hj hp]
  simp [fetchInProgress, fetchHeaderNode, Fetched.answer, exec, execHdrInternal, hj, writeNext]

/-- The writer's steps on its first subtree write that subtree's header and leave the other subtrees due (R150). -/
theorem answers_hdrWr (t : Tree) {todo : List Tree} (hj : s.job = some (.hdrWr (t :: todo))) (hp : s.port = []) :
    Answers s (.next ((s.writeSeq (headerBits t)).setJob (writeNext todo))) := by
  induction t generalizing s todo with
  | leaf sym w => exact .of_step (step_hdrWr_leaf hj hp)
  | internal w l r ihl ihr =>
    have left := ihl (s := (s.writeSeq (encode .hdrInternal)).setJob (some (.hdrWr (l :: r :: todo)))) rfl hp
    have right := ihr (s := ((s.writeSeq (encode .hdrInternal)).writeSeq (headerBits l)).setJob (writeNext (r :: todo)))
      rfl hp
    rw [headerBits, ← State.writeSeq_writeSeq, ← State.writeSeq_writeSeq]
    exact .step (step_hdrWr_internal hj hp) (left.trans right)

/-! `ENCPAY`: the code of each byte, then the terminator's -/

theorem step_encPay_singleton {sym : Symbol} {w : Nat} (hj : s.job = some .encPay) (hp : s.port = [])
    (ht : s.tree = some (.leaf sym w)) : step s = encSingleton (s.setJob none) := by
  rw [step_inProgress hj hp, encSingleton]
  simp only [fetchInProgress, fetchCode, ht, State.setJob_src]
  rcases readByte_cases s.src with ⟨b, z, -, e⟩ | ⟨-, e⟩
  · rw [e]
    rfl
  · rw [e]
    simp only [Fetched.answer, exec, execTerminatorCode, hj, terminatorDue, ht, e, beq_self_eq_true, if_true,
      State.writeSeq_nil]
    rfl

section EncPay

variable {w : Nat} {l r : Tree} (hj : s.job = some .encPay) (hp : s.port = []) (ht : s.tree = some (.internal w l r))
include hj hp ht

theorem step_encPay_byte {b : Byte} {z p : BitSeq} (h : s.src.rest = be 8 b.toNat ++ z)
    (hc : s.code.get (byteSymbol b) = some p) : step s = .next ((s.setSrc (s.src.skip 8)).writeSeq p) := by
  rw [step_inProgress hj hp]
  simp [fetchInProgress, fetchCode, ht, readByte_cons h, hc, Fetched.answer, exec, execPayloadCode, hj]

theorem step_encPay_noCode {b : Byte} {z : BitSeq} (h : s.src.rest = be 8 b.toNat ++ z)
    (hc : s.code.get (byteSymbol b) = none) : step s = .refused .noCode := by
  rw [step_inProgress hj hp]
  simp [fetchInProgress, fetchCode, ht, readByte_cons h, hc, Fetched.answer]

theorem step_encPay_end (h : s.src.rest.length < 8) : step s = emitCode TERM (s.setJob none) := by
  rw [step_inProgress hj hp]
  cases hc : s.code.get TERM with
  | none =>
    rw [emitCode_none (s := s.setJob none) hc]
    simp [fetchInProgress, fetchCode, ht, readByte_end h, hc, Fetched.answer]
  | some p =>
    rw [emitCode_some (s := s.setJob none) hc]
    simp only [fetchInProgress, fetchCode, ht, readByte_end h, hc, Fetched.answer, exec, execTerminatorCode, hj,
      terminatorDue, beq_self_eq_true, if_true]
    rfl

/-- The writer's steps on the rest of the source are the loop of `ENCPAY` (R172, R173). -/
theorem answers_encPay {fuel : Nat} (he : s.err = none) (hf : s.src.rest.length < 8 * fuel) :
    Answers s (encLoop fuel (s.setJob none)) := by
  induction fuel generalizing s with
  | zero => omega
  | succ fuel ih =>
    rcases readByte_cases s.src with ⟨b, z, h, e⟩ | ⟨h, e⟩
    · cases hc : s.code.get (byteSymbol b) with
      | none =>
        refine .of_step ?_
        rw [step_encPay_noCode hj hp ht h hc, encLoop, State.setJob_src, e]
        simp only
        rw [emitCode_none (s := (s.setJob none).setSrc (s.src.skip 8)) hc, thenDo_refused]
      | some p =>
        refine .step (step_encPay_byte hj hp ht h hc) ?_
        rw [encLoop_cons (s := s.setJob none) he h hc]
        have hlen : 8 ≤ s.src.rest.length := by rw [h]; simp
        refine ih (s := (s.setSrc (s.src.skip 8)).writeSeq p) hj hp ht he ?_
        simp only [State.writeSeq_src, State.setSrc_src, Src.rest_skip, List.length_drop]
        omega
    · refine .of_step ?_
      rw [step_encPay_end hj hp ht h, encLoop, State.setJob_src, e]
      rfl

end EncPay

/-! `DECPAY`: code by code from the root -/

theorem step_decPay_singleton {sym : Symbol} {w : Nat} (hj : s.job = some .decPay) (hp : s.port = [])
    (ht : s.tree = some (.leaf sym w)) : step s = .next (s.setJob none) := by
  rw [step_inProgress hj hp]
  simp [fetchInProgress, fetchPayload, Fetched.answer, exec, execTerminatorCode, hj, readCode, ht]

section DecPay

variable {w : Nat} {l r : Tree} (hj : s.job = some .decPay) (hp : s.port = []) (ht : s.tree = some (.internal w l r))
include hj hp ht

/-- A step on a whole code: complete at the terminator's, else the leaf's byte is written (R193). -/
theorem step_decPay_code {p z : BitSeq} {sym : Symbol} {w' : Nat}
    (hn : (Tree.internal w l r).nodeAt p = some (.leaf sym w')) (h : s.src.rest = p ++ z) :
    step s = if sym = TERM then .next (((s.setSrc (s.src.skip p.length)).setCur []).setJob none)
      else .next ((s.setSrc (s.src.skip p.length)).emitted sym) := by
  have walk := decWalk_leaf (s := (s.setCur []).setSrc (s.src.skip p.length)) ht rfl rfl hn
  rw [step_inProgress hj hp]
  simp only [fetchInProgress, fetchPayload, ht, fetchToken, State.setCur_src, decode, decodePayload, h,
    decodeCode_leaf hn, List.nil_append]
  by_cases hT : sym = TERM
  · simp only [if_pos hT, Fetched.answer, exec, execTerminatorCode, encode, State.setSrc_job, State.setCur_job, hj,
      readCode, State.setSrc_tree, State.setCur_tree, ht, walk]
    rfl
  · simp only [if_neg hT, Fetched.answer, exec, execPayloadCode, encode, State.setSrc_job, State.setCur_job, hj,
      readCode, State.setSrc_tree, State.setCur_tree, ht, walk]
    rfl

/-- A step on a source that ends inside a code (R197). -/
theorem step_decPay_cut {w' : Nat} {l' r' : Tree}
    (hn : (Tree.internal w l r).nodeAt s.src.rest = some (.internal w' l' r')) :
    step s = .next ((s.setSrc (s.src.skip s.src.rest.length)).raise .truncatedInput) := by
  rw [step_inProgress hj hp]
  simp only [fetchInProgress, fetchPayload, ht, fetchToken, State.setCur_src, decode, decodePayload,
    decodeCode_cut hn]
  rfl

/-- The reader's steps on the rest of the source are the loop of `DECPAY` from the root (R194). -/
theorem answers_decPay (fuel : Nat) (hf : s.src.rest.length < fuel) :
    Answers s (decLoop fuel ((s.setCur []).setJob none)) := by
  induction fuel using Nat.strong_induction_on generalizing s with
  | _ fuel ih =>
    rcases Tree.walk_cases (.internal w l r) s.src.rest with ⟨p, z, sym, w', h, hn⟩ | ⟨w', l', r', hn⟩
    · have hpos : 0 < p.length := List.length_pos_iff.mpr (by rintro rfl; simp at hn)
      have hlen : s.src.rest.length = p.length + z.length := by rw [h, List.length_append]
      obtain ⟨f, rfl⟩ : ∃ k, fuel = k + p.length := ⟨fuel - p.length, by omega⟩
      rw [decLoop_leaf (s := (s.setCur []).setJob none) ht rfl rfl hn h]
      have hs := step_decPay_code hj hp ht hn h
      by_cases hT : sym = TERM
      · rw [if_pos hT] at hs ⊢
        exact .of_step hs
      · rw [if_neg hT] at hs ⊢
        refine .step hs (ih f (by omega) (s := (s.setSrc (s.src.skip p.length)).emitted sym) hj hp ht ?_)
        rw [show ((s.setSrc (s.src.skip p.length)).emitted sym).src.rest = z from Src.rest_skip_append h]
        omega
    · rw [decLoop_cut (s := (s.setCur []).setJob none) ht rfl hn rfl hf]
      exact .of_step (step_decPay_cut hj hp ht hn)

end DecPay

/-! `HDRRD`: the reader with explicit frames is the recursion `rd` -/

section HdrRd

variable {fuel : Nat} {ctx : HdrContext}

/-- `rd` at the end of the source (R157). -/
theorem rd_noFlag (h : ctx.src.rest = []) : rd (fuel + 1) ctx = .error ctx.src := by
  rw [rd, Src.readBits_one_nil h]

/-- `rd` on the 257th internal-node token (R156). -/
theorem rd_tooManyInternals {z : BitSeq} (h : ctx.src.rest = false :: z) (hn : ctx.nint = maxInternals) :
    rd (fuel + 1) ctx = .error (ctx.src.skip 1) := by
  rw [rd, Src.readBits_one_cons h]
  exact if_pos hn

/-- `rd` on a leaf flag and a cut symbol field (R157). -/
theorem rd_cutSymbol {z : BitSeq} (h : ctx.src.rest = true :: z) (hz : z.length < 9) :
    rd (fuel + 1) ctx = .error (ctx.src.skip 1) := by
  have h9 : (ctx.src.skip 1).readBits 9 = (none, ctx.src.skip 1) :=
    Src.readBits_of_lt (by simpa [Src.rest_skip, h] using hz)
  simp [rd, Src.readBits_one_cons h, h9]

/-- Nine bits or more begin with a symbol field (R83). -/
theorem exists_symbol_field {z : BitSeq} (hz : 9 ≤ z.length) : ∃ (sym : Symbol) (z' : BitSeq),
    z = be 9 sym.toNat ++ z' := by
  refine ⟨BitVec.ofNat 9 (val (z.take 9)), z.drop 9, ?_⟩
  rw [be_toNat_ofNat_val (n := 9) _ (by simp [hz]), List.take_append_drop]

variable {rdr : HdrReader} (hj : s.job = some (.hdrRd rdr)) (hp : s.port = [])
include hj hp

theorem step_hdrRd_noFlag (h : s.src.rest = []) : step s = .next (s.raise .invalidFormat) := by
  rw [step_inProgress hj hp]
  simp [fetchInProgress, fetchToken, decode, h, Fetched.answer, endInHeader]

theorem step_hdrRd_cutSymbol {z : BitSeq} (h : s.src.rest = true :: z) (hz : z.length < 9) :
    step s = .next ((s.setSrc (s.src.skip 1)).raise .invalidFormat) := by
  rw [step_inProgress hj hp]
  simp [fetchInProgress, fetchToken, decode, h, Nat.not_le.mpr hz, Fetched.answer, endInHeader]

theorem step_hdrRd_internal {z : BitSeq} (h : s.src.rest = false :: z) :
    step s = readInternal rdr (s.setSrc (s.src.skip 1)) := by
  rw [step_inProgress hj hp]
  simp [fetchInProgress, fetchToken, decode, h, Fetched.answer, exec, execHdrInternal, hj, encode]

theorem step_hdrRd_leaf {sym : Symbol} {z : BitSeq} (h : s.src.rest = true :: (be 9 sym.toNat ++ z)) :
    step s = readLeaf sym rdr (s.setSrc (s.src.skip 10)) := by
  rw [step_inProgress hj hp]
  simp [fetchInProgress, fetchToken, decode, h, List.take_left', ofNat_val_be, Fetched.answer, exec, execHdrLeaf, hj,
    encode]

end HdrRd

/-- The reader with the frames `frames` once a subtree is complete: it waits for the next token, or ends (R155). -/
def State.subtreeRead (t : Tree) (frames : List (Option Tree)) (ctx : HdrContext) (s : State) : Result :=
  match plug t frames with
  | .inl frames' => .next ((s.setSrc ctx.src).setJob (some (.hdrRd ⟨frames', ctx.seen, ctx.nint⟩)))
  | .inr t' => finishHeader t' ctx.seen ((s.setSrc ctx.src).setJob none)

/-- What the reader's steps answer where the recursion `rd` answers `res` for the subtree read next (R155, R156). -/
def State.rdAnswer (res : Except Src (Tree × HdrContext)) (frames : List (Option Tree)) (s : State) : Result :=
  match res with
  | .error r => .next ((s.setSrc r).raise .invalidFormat)
  | .ok (t, ctx) => s.subtreeRead t frames ctx

theorem readLeaf_eq (sym : Symbol) (rdr : HdrReader) (s : State) :
    readLeaf sym rdr s = if leafAccepted sym rdr.seen then
        s.subtreeRead (.leaf sym 0) rdr.frames ⟨s.src, sym :: rdr.seen, rdr.nint⟩
      else .next (s.raise .invalidFormat) := by
  rfl

theorem readInternal_open {rdr : HdrReader} (h : rdr.nint ≠ maxInternals) (s : State) :
    readInternal rdr s = .next (s.setJob (some (.hdrRd ⟨none :: rdr.frames, rdr.seen, rdr.nint + 1⟩))) := if_neg h

/-- The reader's steps on the next subtree answer what the recursion `rd` makes of it. The fuel never runs out, since
at most 256 internal nodes are opened (R155, R160). -/
theorem answers_hdrRd {fuel : Nat} {frames : List (Option Tree)} {seen : List Symbol} {nint : Nat}
    (hj : s.job = some (.hdrRd ⟨frames, seen, nint⟩)) (hp : s.port = []) (hn : nint ≤ maxInternals)
    (hf : maxInternals < nint + fuel) : Answers s (s.rdAnswer (rd fuel ⟨s.src, seen, nint⟩) frames) := by
  induction fuel generalizing s frames seen nint with
  | zero => omega
  | succ fuel ih =>
    rcases h : s.src.rest with _ | ⟨_ | _, z⟩
    · rw [rd_noFlag h]
      exact .of_step (step_hdrRd_noFlag hj hp h)
    · by_cases hm : nint = maxInternals
      · rw [rd_tooManyInternals h hm]
        exact .of_step ((step_hdrRd_internal hj hp h).trans (if_pos hm))
      · rw [rd_internal h hm]
        refine .step ((step_hdrRd_internal hj hp h).trans (readInternal_open hm _)) ?_
        have left := ih (s := (s.setSrc (s.src.skip 1)).setJob (some (.hdrRd ⟨none :: frames, seen, nint + 1⟩)))
          rfl hp (by omega) (by omega)
        simp only [State.setJob_src, State.setSrc_src] at left
        cases hl : rd fuel ⟨s.src.skip 1, seen, nint + 1⟩ with
        | error e => rw [hl] at left; exact left
        | ok x =>
          obtain ⟨lt, ctx⟩ := x
          obtain ⟨-, -, -, fits, hctx⟩ := rd_ok (by simp only; omega) hl
          have hle : ctx.nint ≤ maxInternals := by rw [hctx]; exact fits.internals
          have hge : nint + 1 ≤ ctx.nint := by rw [hctx]; exact Nat.le_add_right _ _
          rw [hl] at left
          refine left.trans ?_
          have right := ih
            (s := (s.setSrc ctx.src).setJob (some (.hdrRd ⟨some lt :: frames, ctx.seen, ctx.nint⟩))) rfl hp hle
            (by omega)
          simp only [State.setJob_src, State.setSrc_src] at right ⊢
          cases hr : rd fuel ctx with
          | error e => rw [hr] at right; exact right
          | ok y => rw [hr] at right; exact right
    · rcases Nat.lt_or_ge z.length 9 with hz | hz
      · rw [rd_cutSymbol h hz]
        exact .of_step (step_hdrRd_cutSymbol hj hp h hz)
      · obtain ⟨sym, z', rfl⟩ := exists_symbol_field hz
        rw [rd_leaf h]
        refine .of_step ((step_hdrRd_leaf hj hp h).trans ?_)
        rw [readLeaf_eq]
        split <;> rfl

/-! From the state in which the command has been accepted -/

theorem answers_accept_hdrwr {t : Tree} (hj : s.job = none) (hp : s.port = []) (ht : s.tree = some t) :
    Answers (s.accept .hdrwr) (performHdrwr s) := by
  have h := answers_hdrWr (s := s.accept .hdrwr) t (todo := []) (by simp [State.accept, ht]) hp
  rw [performHdrwr_some ht, ← State.setJob_self (s := s.writeSeq (headerBits t)) hj]
  exact h

theorem answers_accept_encpay {t : Tree} (hj : s.job = none) (hp : s.port = []) (he : s.err = none)
    (ht : s.tree = some t) : Answers (s.accept .encpay) (performEncpay s) := by
  cases t with
  | leaf sym w =>
    rw [performEncpay_leaf ht, ← State.setJob_self hj]
    exact .of_step (step_encPay_singleton rfl hp ht)
  | internal w l r =>
    have hf : s.src.rest.length < 8 * (s.src.bytesLeft + 1) := by
      rw [Src.rest_length, Src.bytesLeft]
      omega
    have h := answers_encPay (s := s.accept .encpay) rfl hp ht he hf
    rw [performEncpay_internal ht, ← State.setJob_self hj]
    exact h

theorem answers_accept_decpay {t : Tree} (hj : s.job = none) (hp : s.port = []) (ht : s.tree = some t) :
    Answers (s.accept .decpay) (performDecpay s) := by
  cases t with
  | leaf sym w =>
    rw [performDecpay_leaf ht, ← State.setJob_self hj]
    exact .of_step (step_decPay_singleton rfl hp ht)
  | internal w l r =>
    have h := answers_decPay (s := s.accept .decpay) rfl hp ht (s.src.rest.length + 1) (Nat.lt_succ_self _)
    rw [performDecpay_internal ht, ← State.setJob_self hj]
    exact h

/-- `HDRRD` is the reader with no frames from its entry on, which keeps all that its end does not overwrite (R155). -/
theorem performHdrrd_eq_rdAnswer (hj : s.job = none) :
    performHdrrd s = (s.accept .hdrrd).rdAnswer (rd maxRecursion ⟨s.src, [], 0⟩) [] := by
  rw [← State.setJob_self hj, performHdrrd]
  simp only [State.setJob_src]
  cases rd maxRecursion ⟨s.src, [], 0⟩ with
  | error e => rfl
  | ok x =>
    simp only [State.rdAnswer, State.subtreeRead, plug, finishHeader]
    split <;> rfl

theorem answers_accept_hdrrd (hj : s.job = none) (hp : s.port = []) :
    Answers (s.accept .hdrrd) (performHdrrd s) := by
  rw [performHdrrd_eq_rdAnswer hj]
  exact answers_hdrRd (s := s.accept .hdrrd) rfl hp (Nat.zero_le _) (by decide)

theorem answers_accept_rdmagic (hj : s.job = none) (hp : s.port = []) :
    Answers (s.accept .rdmagic) (performRdmagic s) := by
  rw [← State.setJob_self hj]
  exact .of_step (step_rdMagic rfl hp)

theorem answers_accept_wrmagic (hj : s.job = none) (hp : s.port = []) :
    Answers (s.accept .wrmagic) (performWrmagic s) := by
  rw [← State.setJob_self hj]
  exact .of_step (step_wrMagic rfl hp)

/-- Settles O59: the token steps of each command follow the recursion of its atomic operation. -/
theorem tokenStepsPerformOperation : Obligations.TokenStepsPerformOperation := by
  rintro s i hi ⟨hj, he⟩ hn hp
  have hr := State.ready_of_err_none he hn
  simp only [List.mem_cons, List.not_mem_nil, or_false] at hi
  rcases hi with rfl | rfl | rfl | rfl | rfl | rfl
  · exact (answers_accept_rdmagic hj hp).guarded hj hr
  · exact (answers_accept_hdrrd hj hp).guarded hj hr
  · obtain ⟨t, ht⟩ := Option.isSome_iff_exists.mp hn
    exact (answers_accept_decpay hj hp ht).guarded hj hr
  · exact (answers_accept_wrmagic hj hp).guarded hj hr
  · obtain ⟨t, ht⟩ := Option.isSome_iff_exists.mp hn
    exact (answers_accept_hdrwr hj hp ht).guarded hj hr
  · obtain ⟨t, ht⟩ := Option.isSome_iff_exists.mp (Bool.and_eq_true_iff.mp hn).1
    exact (answers_accept_encpay hj hp he ht).guarded hj hr

end Sys2Proof.Machine

/-!
PROOFS. The reset table and the invariant of the state (spec/10_state.md R24 to R37), and the tree of `BUILD`
(spec/41_tree_builder.md R121, R128). First one rule per state operation, saying when it keeps the invariant; then
each command and each token step, from what it can answer; then the steps.
-/

namespace Sys2Proof.Machine

variable {s s' : State}

/-! The state operations keep the invariant -/

/-- What an operation in progress needs rests on the tree and on `CODE_VALID` only. -/
theorem Job.Inv.congr {j : Job} (h : j.Inv s) (ht : s'.tree = s.tree) (hc : s'.codeValid = s.codeValid) :
    j.Inv s' := by
  unfold Job.Inv
  rw [ht, hc]
  exact h

/-- With nothing valid and nothing in progress, only the source position is left to the invariant (R37, R225). -/
theorem State.Inv.of_cleared (hp : s.src.pos ≤ s.src.bits.length) (hn : s.cntValid = false) (ht : s.tree = none)
    (hc : s.codeValid = false) (hr : s.cur = []) (hj : s.job = none) : s.Inv where
  position := hp
  counts h := by simp [hn] at h
  tree t h := by simp [ht] at h
  weights t h := by simp [ht] at h
  codes h := by simp [hc] at h
  cur := hr
  failed _ := ⟨hn, ht, hc, hj⟩
  job j h := by simp [hj] at h

namespace State.Inv

/-- The streams, the source position in range, and the command port are free. -/
theorem withStreams (h : s.Inv) {r : Src} (hr : r.pos ≤ r.bits.length) (x : BitSeq) (p : List OpCode) :
    ({ s with src := r, snk := x, port := p } : State).Inv :=
  { h with position := hr, job := fun j hj => (h.job j hj).congr rfl rfl }

theorem setSrc (h : s.Inv) {r : Src} (hr : r.pos ≤ r.bits.length) : (s.setSrc r).Inv := h.withStreams hr s.snk s.port

theorem skip (h : s.Inv) {n : Nat} (hn : n ≤ s.src.rest.length) : (s.setSrc (s.src.skip n)).Inv :=
  h.setSrc (Src.skip_inRange h.position hn)

theorem writeSeq (h : s.Inv) (x : BitSeq) : (s.writeSeq x).Inv := h.withStreams h.position (s.snk ++ x) s.port

theorem clearBlock (h : s.Inv) : s.clearBlock.Inv := .of_cleared h.position rfl rfl rfl rfl rfl

theorem raise (h : s.Inv) (k : ErrorKind) : (s.raise k).Inv := .of_cleared h.position rfl rfl rfl rfl rfl

/-- `CUR` stays at the root (R31). -/
theorem setCur (h : s.Inv) {p : Path} (hp : p = s.cur ∨ p = []) : (s.setCur p).Inv :=
  { h with cur := hp.elim (·.trans h.cur) id, job := fun j hj => (h.job j hj).congr rfl rfl }

/-- Completion asks for nothing (R92). -/
theorem setJob_none (h : s.Inv) : (s.setJob none).Inv :=
  { h with
    failed := fun he => by obtain ⟨hn, ht, hc, -⟩ := h.failed he; exact ⟨hn, ht, hc, rfl⟩
    job := fun j hj => by cases hj }

/-- A block that has not failed may go on with an operation that has what it needs. -/
theorem setJob_some (h : s.Inv) (he : s.err = none) {j : Job} (hj : j.Inv s) : (s.setJob (some j)).Inv :=
  { h with
    failed := fun hf => by simp [he] at hf
    job := fun i hi => by cases hi; exact hj.congr rfl rfl }

/-- A block with an operation in progress has not failed (R225). -/
theorem err_none (h : s.Inv) {j : Job} (hj : s.job = some j) : s.err = none := by
  rw [← Option.not_isSome_iff_eq_none]
  intro he
  obtain ⟨-, -, -, hn⟩ := h.failed he
  simp [hj] at hn

/-- New counts within the width (R110, R111). -/
theorem setCounts (h : s.Inv) (hi : s.idle) {c : CountTable} (hc : c.total ≤ Config.maxInput) :
    (s.setCounts c).Inv where
  position := h.position
  counts _ := hc
  tree _ ht := by cases ht
  weights _ ht := by cases ht
  codes hv := by cases hv
  cur := h.cur
  failed he := by simp [hi.2] at he
  job j hj := by simp [hi.1] at hj

/-- A new valid tree whose weights add up to no more than `W` bits hold, with no code table yet, is all that `TREE`
needs (R24, R126). -/
theorem setRead (h : s.Inv) (he : s.err = none) {t : Tree} (hv : t.Valid) (ha : t.weightsAdd = true)
    (hw : t.weight < 2 ^ Config.countWidth) : ((s.setRead t).setJob none).Inv where
  position := h.position
  counts := h.counts
  tree _ ht := by cases ht; exact hv
  weights _ ht := by cases ht; exact ⟨ha, Tree.weightsBelow_of_weightsAdd ha hw⟩
  codes hc := by cases hc
  cur := rfl
  failed hf := by simp [he] at hf
  job _ hj := by cases hj

/-- A tree with no weights, as a header gives it (R26). -/
theorem setRead_of_shape (h : s.Inv) (he : s.err = none) {t : Tree} (hv : t.Valid) (hs : t.shape = t) :
    ((s.setRead t).setJob none).Inv := by
  obtain ⟨hw, ha⟩ := Tree.weights_of_shape hs
  exact h.setRead he hv ha (hw ▸ Nat.two_pow_pos _)

/-- `BUILD` in an idle block sets what a header read sets (R120, R155). -/
theorem setBuilt_eq (h : s.Inv) (hj : s.job = none) (t : Tree) : s.setBuilt (some t) = (s.setRead t).setJob none :=
  calc s.setBuilt (some t) = ((s.setBuilt (some t)).setCur s.cur).setJob s.job := rfl
    _ = (s.setRead t).setJob none := by rw [h.cur, hj]; rfl

/-- The code table of the tree held (R30). -/
theorem setCodes (h : s.Inv) (hi : s.idle) {t : Tree} (ht : s.tree = some t) : (s.setCodes (codeTable t)).Inv :=
  { h with
    codes := fun _ => ⟨t, ht, rfl⟩
    failed := fun he => by simp [hi.2] at he
    job := fun j hj => by simp [hi.1] at hj }

end State.Inv

/-! The commands keep the invariant -/

/-- Over values that occur once each and include all of `l`, the numbers of occurrences sum to the length. -/
theorem sum_count_eq_length {α : Type} [DecidableEq α] {u l : List α} (hu : u.Nodup) (hl : ∀ a ∈ l, a ∈ u) :
    (u.map fun a => l.count a).sum = l.length := by
  rw [← List.sum_toFinset _ hu]
  simpa using Multiset.sum_count_eq_card (m := (l : Multiset α)) fun a ha => List.mem_toFinset.mpr (hl a ha)

/-- The counts of the bytes sum to how many there are (R112). -/
theorem countsOf_total (l : List Byte) : (countsOf l).total = l.length := by
  rw [CountTable.total, funext (countsOf_get l)]
  exact sum_count_eq_length byteValues_nodup fun v _ => mem_byteValues v

theorem execCount_keeps_inv (h : s.Inv) (he : execCount s = .next s') : s'.Inv := by
  obtain ⟨hi, l, hl, hm, rfl⟩ := execCount_next he
  exact (h.skip hl.le).setCounts hi ((countsOf_total l).le.trans hm)

theorem execBuild_keeps_inv (h : s.Inv) (he : execBuild s = .next s') : s'.Inv := by
  obtain ⟨⟨hj, herr⟩, hcv, t, ht, rfl⟩ := execBuild_next he
  obtain ⟨t', ht', -, ha, hw⟩ := buildTree_some s.cnt
  obtain rfl : t = t' := Option.some.inj (ht.symm.trans ht')
  rw [h.setBuilt_eq hj]
  refine h.setRead herr (buildTree_valid ht).1 ha ?_
  have hm := h.counts hcv
  have hW := Config.maxInput_add_two
  omega

theorem execGencode_keeps_inv (h : s.Inv) (he : execGencode s = .next s') : s'.Inv := by
  obtain ⟨hi, t, ht, rfl⟩ := execGencode_next he
  exact h.setCodes hi ht

theorem execWrmagic_keeps_inv (h : s.Inv) (he : execWrmagic s = .next s') : s'.Inv := by
  obtain ⟨-, rfl⟩ := execWrmagic_next he
  exact h.writeSeq _

theorem execHdrwr_keeps_inv (h : s.Inv) (he : execHdrwr s = .next s') : s'.Inv := by
  obtain ⟨-, t, -, rfl⟩ := execHdrwr_next he
  exact h.writeSeq _

theorem execEncpay_keeps_inv (h : s.Inv) (he : execEncpay s = .next s') : s'.Inv := by
  obtain ⟨-, -, -, l, x, hl, rfl⟩ := execEncpay_next he
  exact (h.skip hl.le).writeSeq x

theorem execRdmagic_keeps_inv (h : s.Inv) (he : execRdmagic s = .next s') : s'.Inv := by
  obtain ⟨-, ⟨hn, rfl⟩ | ⟨n, hn, rfl⟩⟩ := execRdmagic_next he
  · exact h.skip hn
  · exact (h.skip hn).raise _

theorem execHdrrd_keeps_inv (h : s.Inv) (he : execHdrrd s = .next s') : s'.Inv := by
  obtain ⟨⟨hj, herr⟩, ⟨t, z, hv, hs, hz, rfl⟩ | ⟨r, -, hr, rfl⟩⟩ := execHdrrd_next he
  · have hn : (headerBits t).length ≤ s.src.rest.length := by rw [hz]; simp
    have hread := (h.skip hn).setRead_of_shape herr hv hs
    rwa [State.setJob_self (s := (s.setSrc (s.src.skip (headerBits t).length)).setRead t) hj] at hread
  · exact (h.setSrc (hr h.position)).raise _

theorem execDecpay_keeps_inv (h : s.Inv) (he : execDecpay s = .next s') : s'.Inv := by
  obtain ⟨-, -, x, n, hn, ⟨p, hp, rfl⟩ | rfl⟩ := execDecpay_next he
  · exact ((h.skip hn).writeSeq x).setCur hp
  · exact ((h.skip hn).writeSeq x).raise _

theorem execEncode_keeps_inv (h : s.Inv) (he : execEncode s = .next s') : s'.Inv :=
  execEncode_keeps State.Inv he h (fun _ _ => execWrmagic_keeps_inv) (fun _ _ => execHdrwr_keeps_inv)
    fun _ _ => execEncpay_keeps_inv

theorem execClr_keeps_inv (h : s.Inv) (he : execClr s = .next s') : s'.Inv := by
  obtain ⟨-, rfl⟩ := execClr_next he
  exact h.clearBlock

theorem execRewind_keeps_inv (h : s.Inv) (he : execRewind s = .next s') : s'.Inv := by
  obtain ⟨-, rfl⟩ := execRewind_next he
  exact h.setSrc (Nat.zero_le _)

theorem execCompress_keeps_inv (h : s.Inv) (he : execCompress s = .next s') : s'.Inv :=
  execCompress_keeps State.Inv he h (fun _ _ => execClr_keeps_inv) (fun _ _ => execCount_keeps_inv)
    (fun _ _ => execRewind_keeps_inv) (fun _ _ => execBuild_keeps_inv) (fun _ _ => execGencode_keeps_inv)
    (fun _ _ => execEncode_keeps_inv) fun _ => State.Inv.clearBlock

theorem execDecompress_keeps_inv (h : s.Inv) (he : execDecompress s = .next s') : s'.Inv :=
  execDecompress_keeps State.Inv he h (fun _ _ => execClr_keeps_inv) (fun _ _ => execRdmagic_keeps_inv)
    (fun _ _ => execHdrrd_keeps_inv) (fun _ _ => execDecpay_keeps_inv) fun _ => State.Inv.clearBlock

/-- Every command that a code stands for (R90). -/
theorem command_keeps_inv (op : OpCode) (h : s.Inv) (he : exec (decodeCommand op) s = .next s') : s'.Inv := by
  unfold decodeCommand at he
  split at he
  · exact execClr_keeps_inv h he
  · exact execCount_keeps_inv h he
  · exact execBuild_keeps_inv h he
  · exact execGencode_keeps_inv h he
  · exact execWrmagic_keeps_inv h he
  · exact execHdrwr_keeps_inv h he
  · exact execEncpay_keeps_inv h he
  · exact execRdmagic_keeps_inv h he
  · exact execHdrrd_keeps_inv h he
  · exact execDecpay_keeps_inv h he
  · exact execEncode_keeps_inv h he
  · exact execCompress_keeps_inv h he
  · exact execDecompress_keeps_inv h he
  · exact execRewind_keeps_inv h he
  · cases he
  · cases he

/-! The token steps keep the invariant -/

/-- Whatever the operation in progress, its next token keeps the invariant. -/
theorem token_keeps_inv {j : Job} (h : s.Inv) (hj : s.job = some j)
    (he : (fetchInProgress j s).answer = .next s') : s'.Inv := by
  have herr := h.err_none hj
  have hneeds := h.job j hj
  cases j with
  | rdMagic =>
    obtain ⟨n, hn, e | ⟨-, e⟩⟩ := answer_rdMagic hj <;> rw [e] at he <;> cases he
    · exact (h.skip hn).raise _
    · exact (h.skip hn).setJob_none
  | hdrRd r =>
    obtain ⟨ht, hc, hr⟩ := hneeds
    have ha := answer_hdrRd hj
    rw [he] at ha
    cases ha with
    | failed n hn => exact (h.skip hn).raise _
    | taken n r' hn hr' => exact (h.skip hn).setJob_some herr ⟨ht, hc, hr' hr⟩
    | complete n t hn hread =>
      obtain ⟨hv, hs⟩ := hread hr
      exact (h.skip hn).setRead_of_shape herr hv hs
  | decPay =>
    obtain ⟨x, n, j', p, hn, hj', hp, e⟩ | ⟨n, hn, e⟩ | ⟨-, e⟩ := answer_decPay hj <;> rw [e] at he <;> cases he
    · have hcode := ((h.skip hn).writeSeq x).setCur hp.symm
      rcases hj' with rfl | rfl
      · exact hcode.setJob_none
      · exact hcode.setJob_some herr hneeds
    · exact (h.skip hn).raise _
  | wrMagic =>
    rw [answer_wrMagic hj] at he
    cases he
    exact (h.writeSeq _).setJob_none
  | hdrWr todo =>
    obtain ⟨x, j', hj', e⟩ := answer_hdrWr hj
    rw [e] at he
    cases he
    rcases hj' with rfl | ⟨todo', rfl⟩
    · exact (h.writeSeq x).setJob_none
    · exact (h.writeSeq x).setJob_some herr trivial
  | encPay =>
    obtain ⟨x, n, j', hn, hj', e⟩ | e | ⟨-, e⟩ := answer_encPay hj <;> rw [e] at he <;> cases he
    rcases hj' with rfl | rfl
    · exact ((h.skip hn).writeSeq x).setJob_none
    · exact ((h.skip hn).writeSeq x).setJob_some herr hneeds

/-! The steps -/

/-- Everything a step that answers a next state can be: nothing to do, a command accepted, or a token of the operation
in progress (R92, R97, R233, R253). -/
theorem step_next (h : step s = .next s') :
    (s.job = none ∧ s.port = [] ∧ s' = s) ∨
    (s.job = none ∧ ∃ op rest, s.port = op :: rest ∧ exec (decodeCommand op) { s with port := rest } = .next s') ∨
    ∃ j, s.job = some j ∧ s.port = [] ∧ (fetchInProgress j s).answer = .next s' := by
  cases hj : s.job with
  | none =>
    cases hp : s.port with
    | nil =>
      simp only [step_eq, fetch, hj, hp, Fetched.answer] at h
      cases h
      exact .inl ⟨rfl, rfl, rfl⟩
    | cons op rest =>
      simp only [step_eq, fetch, hj, hp, Fetched.answer] at h
      exact .inr (.inl ⟨rfl, op, rest, rfl, h⟩)
  | some j =>
    cases hp : s.port with
    | nil =>
      rw [step_inProgress hj hp] at h
      exact .inr (.inr ⟨j, rfl, rfl, h⟩)
    | cons op rest =>
      simp only [step_eq, fetch, hj, hp, Fetched.answer] at h
      cases h

/-- Settles O10: a step does nothing, accepts a command or takes a token, and each keeps the invariant. -/
theorem stepKeepsInvariant : Obligations.StepKeepsInvariant := by
  intro s s' h hstep
  rcases step_next hstep with ⟨-, -, rfl⟩ | ⟨-, op, rest, -, he⟩ | ⟨j, hj, -, he⟩
  · exact h
  · exact command_keeps_inv op (h.withStreams h.position s.snk rest) he
  · exact token_keeps_inv h hj he

/-- Settles O9: at reset nothing is valid and nothing is in progress. -/
theorem resetMeetsInvariant : Obligations.ResetMeetsInvariant :=
  State.Inv.of_cleared (Nat.le_refl 0) rfl rfl rfl rfl rfl

/-! `BUILD` and the reset table -/

/-- The leaves of the tree built, with their weights (R121). -/
theorem mem_weighted_buildTree {tab : CountTable} {t : Tree} (h : buildTree tab = some t) (sym : Symbol) (w : Nat) :
    (sym, w) ∈ t.weighted ↔ (sym = TERM ∧ w = 1) ∨ ∃ v : Byte, sym = byteSymbol v ∧ w = tab.get v ∧ w ≠ 0 := by
  obtain ⟨t', ht', hperm, -, -⟩ := buildTree_some tab
  obtain rfl : t = t' := Option.some.inj (h.symm.trans ht')
  rw [hperm.mem_iff, List.mem_append, or_comm]
  refine or_congr (by simp) ?_
  simp only [List.mem_map, List.mem_filter, mem_byteValues, true_and, decide_eq_true_eq, Prod.mk.injEq]
  constructor
  · rintro ⟨v, hv, rfl, rfl⟩
    exact ⟨v, rfl, rfl, hv⟩
  · rintro ⟨v, rfl, rfl, hv⟩
    exact ⟨v, hv, rfl, rfl⟩

/-- Settles O22: the tree of the counts exists, and its weighted leaves are those of the first queue. -/
theorem buildMakesWeightedTree : Obligations.BuildMakesWeightedTree := by
  rintro s ⟨hj, he⟩ hc
  obtain ⟨t, ht, -, ha, hw⟩ := buildTree_some s.cnt
  refine ⟨t, ?_, (buildTree_valid ht).1, ha, hw, fun sym w => ?_⟩
  · calc exec .build s = .next (s.setBuilt (buildTree s.cnt)) := guarded_ready hj (State.ready_of_err_none he hc)
      _ = .next { s with tree := some t, codeValid := false } := by rw [ht]; rfl
  · rw [← Tree.mem_weighted, mem_weighted_buildTree ht]

/-- Settles O8: reset and `CLR` are both the cleared block, which is the table but for the streams and the port. -/
theorem resetAndClrGiveTheTable : Obligations.ResetAndClrGiveTheTable := by
  refine ⟨CountTable.get_zero, rfl, rfl, CodeTable.get_absent, rfl, rfl, rfl, rfl, ?_, ?_, ?_⟩
  · exact fun s => ⟨s.src, s.snk, s.port, s.clearBlock_eq⟩
  · exact fun s _ => s.clearBlock_eq
  · intro s hj
    exact (guarded_ready hj rfl).trans (congrArg Host.Outcome.next s.clearBlock_eq)

end Sys2Proof.Machine

/-!
PROOFS. The streams (spec/20_memory.md R51 to R62) and the fields they are read in (spec/30_encoding.md R89): reading
mirrors writing, encoding gives back what was decoded, no step changes the source's bits or takes back what is in the
sink, and the bytes of the medium hold the flushed bits.
-/

namespace Sys2Proof.Machine

variable {s s' t : State}

/-! Reading mirrors writing -/

/-- `be_n` takes the low `n` bits only (R55). -/
theorem be_mod_two_pow (n v : Nat) : be n (v % 2 ^ n) = be n v := by
  simpa [val_be] using be_val (be n v)

/-- Settles O7: the sink gets the low `n` bits, and a read has exactly the two cases of R52 and R53. -/
theorem readsMirrorWrites : Obligations.ReadsMirrorWrites := by
  refine ⟨fun n v s => ?_, fun n v r z hv h => ?_, fun n r => ?_, fun n r h => ?_⟩
  · rw [be_mod_two_pow]
    rfl
  · rw [Src.readBits_be h, Nat.mod_eq_of_lt hv]
    rfl
  · rw [← Src.rest_length]
    rcases Src.readBits_cases n r with ⟨hn, e⟩ | ⟨hn, e⟩ <;> simp [e, hn]
  · exact Src.readBits_of_lt (by rwa [Src.rest_length])

/-! Encoding what was decoded -/

/-- A field of `n` bits read as a word and written again, before the bits that follow it (R57). -/
theorem be_field_append_drop {n : Nat} {x : BitSeq} (h : n ≤ x.length) :
    be n (BitVec.ofNat n (val (x.take n))).toNat ++ x.drop n = x := by
  rw [be_toNat_ofNat_val _ (List.length_take_of_le h), List.take_append_drop]

/-- A command is encoded in the code it was decoded from, a reserved code too (R90, R94). -/
theorem encode_decodeCommand (op : OpCode) : encode (decodeCommand op) = be 4 op.toNat := by
  revert op
  decide

/-- The token at a leaf is encoded in the path to it, whether it is a byte's or the terminator's (R86, R87). -/
theorem encode_codeToken (sym : Symbol) (p : Path) : encode (codeToken sym p) = p := by
  unfold codeToken
  split <;> rfl

/-- A payload token decoded is the path walked to its leaf (R89, R193). -/
theorem encode_of_decodeCode {u : Tree} {x z : BitSeq} {i : Instr} (h : decodeCode u [] x = .ok (i, z)) :
    encode i ++ z = x := by
  rcases Tree.walk_cases u x with ⟨p, y, sym, w, rfl, hp⟩ | ⟨w, l, r, hx⟩
  · rw [decodeCode_leaf hp] at h
    cases h
    exact congrArg (· ++ z) (encode_codeToken sym p)
  · rw [decodeCode_cut hx] at h
    cases h

/-- Settles O4: by the field, and in each by the bits that the decoder takes there. -/
theorem encodeInvertsDecode : Obligations.EncodeInvertsDecode := by
  intro f x z i h
  cases f with
  | command =>
    rw [decode] at h
    split at h <;> cases h
    rw [encode_decodeCommand]
    exact be_field_append_drop ‹_›
  | magic =>
    rw [decode] at h
    split at h <;> cases h
    exact be_field_append_drop ‹_›
  | header =>
    match x with
    | [] => cases h
    | false :: x => cases h; rfl
    | true :: x =>
      rw [decode] at h
      split at h <;> cases h
      exact congrArg (true :: ·) (be_field_append_drop ‹_›)
  | payload u =>
    cases u with
    | leaf sym w => cases h; rfl
    | internal w l r => exact encode_of_decodeCode h

/-! The source is fixed and the sink only grows -/

/-- From `s` to `s'` the source's bits are the same, whatever the position, and the sink was only appended to
(R51, R62). -/
def StreamsExtend (s s' : State) : Prop := s'.src.bits = s.src.bits ∧ s.snk <+: s'.snk

namespace StreamsExtend

theorem refl (s : State) : StreamsExtend s s := ⟨rfl, List.prefix_rfl⟩

theorem trans (h : StreamsExtend s t) (h' : StreamsExtend t s') : StreamsExtend s s' :=
  ⟨h'.1.trans h.1, h.2.trans h'.2⟩

/-- Nothing is written. -/
theorem unwritten (hr : s'.src.bits = s.src.bits) (hk : s'.snk = s.snk) : StreamsExtend s s' :=
  ⟨hr, [], by rw [hk, List.append_nil]⟩

/-- Bits are written behind those in the sink. -/
theorem written {x : BitSeq} (hr : s'.src.bits = s.src.bits) (hk : s'.snk = s.snk ++ x) : StreamsExtend s s' :=
  ⟨hr, x, hk.symm⟩

end StreamsExtend

theorem execClr_extends (h : execClr s = .next s') : StreamsExtend s s' := by
  obtain ⟨-, rfl⟩ := execClr_next h
  exact .unwritten rfl rfl

theorem execRewind_extends (h : execRewind s = .next s') : StreamsExtend s s' := by
  obtain ⟨-, rfl⟩ := execRewind_next h
  exact .unwritten rfl rfl

theorem execCount_extends (h : execCount s = .next s') : StreamsExtend s s' := by
  obtain ⟨-, l, -, -, rfl⟩ := execCount_next h
  exact .unwritten (by simp) (by simp)

theorem execBuild_extends (h : execBuild s = .next s') : StreamsExtend s s' := by
  obtain ⟨-, -, u, -, rfl⟩ := execBuild_next h
  exact .unwritten rfl rfl

theorem execGencode_extends (h : execGencode s = .next s') : StreamsExtend s s' := by
  obtain ⟨-, u, -, rfl⟩ := execGencode_next h
  exact .unwritten rfl rfl

theorem execWrmagic_extends (h : execWrmagic s = .next s') : StreamsExtend s s' := by
  obtain ⟨-, rfl⟩ := execWrmagic_next h
  exact .written rfl rfl

theorem execHdrwr_extends (h : execHdrwr s = .next s') : StreamsExtend s s' := by
  obtain ⟨-, u, -, rfl⟩ := execHdrwr_next h
  exact .written rfl rfl

theorem execEncpay_extends (h : execEncpay s = .next s') : StreamsExtend s s' := by
  obtain ⟨-, -, -, l, x, -, rfl⟩ := execEncpay_next h
  exact .written rfl rfl

theorem execRdmagic_extends (h : execRdmagic s = .next s') : StreamsExtend s s' := by
  obtain ⟨-, ⟨-, rfl⟩ | ⟨n, -, rfl⟩⟩ := execRdmagic_next h
  · exact .unwritten rfl rfl
  · exact .unwritten rfl rfl

theorem execHdrrd_extends (h : execHdrrd s = .next s') : StreamsExtend s s' := by
  obtain ⟨-, ⟨u, z, -, -, -, rfl⟩ | ⟨r, hr, -, rfl⟩⟩ := execHdrrd_next h
  · exact .unwritten rfl rfl
  · exact .unwritten hr rfl

theorem execDecpay_extends (h : execDecpay s = .next s') : StreamsExtend s s' := by
  obtain ⟨-, -, x, n, -, ⟨p, -, rfl⟩ | rfl⟩ := execDecpay_next h
  · exact .written rfl rfl
  · exact .written rfl rfl

/-- What follows in a sequence extends the streams further. -/
theorem StreamsExtend.andThen {f : State → Result} (hf : ∀ {u v}, f u = .next v → StreamsExtend u v) (u v : State)
    (h : StreamsExtend s u) (he : f u = .next v) : StreamsExtend s v :=
  h.trans (hf he)

theorem execEncode_extends (h : execEncode s = .next s') : StreamsExtend s s' :=
  execEncode_keeps (StreamsExtend s) h (.refl s) (.andThen execWrmagic_extends) (.andThen execHdrwr_extends)
    (.andThen execEncpay_extends)

theorem execCompress_extends (h : execCompress s = .next s') : StreamsExtend s s' :=
  execCompress_keeps (StreamsExtend s) h (.refl s) (.andThen execClr_extends) (.andThen execCount_extends)
    (.andThen execRewind_extends) (.andThen execBuild_extends) (.andThen execGencode_extends)
    (.andThen execEncode_extends) fun _ ht => ht.trans (.unwritten rfl rfl)

theorem execDecompress_extends (h : execDecompress s = .next s') : StreamsExtend s s' :=
  execDecompress_keeps (StreamsExtend s) h (.refl s) (.andThen execClr_extends) (.andThen execRdmagic_extends)
    (.andThen execHdrrd_extends) (.andThen execDecpay_extends) fun _ ht => ht.trans (.unwritten rfl rfl)

/-- Every command that a code stands for (R90). -/
theorem command_extends (op : OpCode) (h : exec (decodeCommand op) s = .next s') : StreamsExtend s s' := by
  unfold decodeCommand at h
  split at h
  · exact execClr_extends h
  · exact execCount_extends h
  · exact execBuild_extends h
  · exact execGencode_extends h
  · exact execWrmagic_extends h
  · exact execHdrwr_extends h
  · exact execEncpay_extends h
  · exact execRdmagic_extends h
  · exact execHdrrd_extends h
  · exact execDecpay_extends h
  · exact execEncode_extends h
  · exact execCompress_extends h
  · exact execDecompress_extends h
  · exact execRewind_extends h
  · cases h
  · cases h

/-- Every operation in progress, at its next token (R89). -/
theorem token_extends {j : Job} (hj : s.job = some j) (h : (fetchInProgress j s).answer = .next s') :
    StreamsExtend s s' := by
  cases j with
  | rdMagic =>
    obtain ⟨n, -, e | ⟨-, e⟩⟩ := answer_rdMagic hj <;> rw [e] at h <;> cases h
    · exact .unwritten rfl rfl
    · exact .unwritten rfl rfl
  | hdrRd r =>
    have ha := answer_hdrRd hj
    rw [h] at ha
    cases ha with
    | failed n => exact .unwritten rfl rfl
    | taken n r' => exact .unwritten rfl rfl
    | complete n u => exact .unwritten rfl rfl
  | decPay =>
    obtain ⟨x, n, j', p, -, -, -, e⟩ | ⟨n, -, e⟩ | ⟨-, e⟩ := answer_decPay hj <;> rw [e] at h <;> cases h
    · exact .written rfl rfl
    · exact .unwritten rfl rfl
  | wrMagic =>
    rw [answer_wrMagic hj] at h
    cases h
    exact .written rfl rfl
  | hdrWr todo =>
    obtain ⟨x, j', -, e⟩ := answer_hdrWr hj
    rw [e] at h
    cases h
    exact .written rfl rfl
  | encPay =>
    obtain ⟨x, n, j', -, -, e⟩ | e | ⟨-, e⟩ := answer_encPay hj <;> rw [e] at h <;> cases h
    exact .written rfl rfl

/-- Settles O12: a step does nothing, accepts a command or takes a token, and each only extends the streams. -/
theorem sourceUnchangedSinkGrows : Obligations.SourceUnchangedSinkGrows := by
  intro s s' h
  rcases step_next h with ⟨-, -, rfl⟩ | ⟨-, op, rest, -, he⟩ | ⟨j, hj, -, he⟩
  · exact StreamsExtend.refl s'
  · have hport : StreamsExtend s { s with port := rest } := .unwritten rfl rfl
    exact hport.trans (command_extends op he)
  · exact token_extends hj he

/-! The bytes of the medium -/

/-- The first byte of the medium holds the first 8 bits (R59). -/
theorem packBytes_cons (b : Byte) (x : BitSeq) : packBytes (be 8 b.toNat ++ x) = b :: packBytes x :=
  congrArg (· :: packBytes x) (ofNat_val_be b)

/-- Packing is the inverse of putting bytes on a stream (R50, R59). -/
theorem packBytes_bytesToBits (l : List Byte) : packBytes (bytesToBits l) = l := by
  induction l with
  | nil => rfl
  | cons b l ih => rw [bytesToBits_cons, packBytes_cons, ih]

/-- Packing whole bytes loses nothing: such a stream is some bytes and no further bit (R59). -/
theorem bytesToBits_packBytes {x : BitSeq} (h : x.length % 8 = 0) : bytesToBits (packBytes x) = x := by
  obtain ⟨l, tail, rfl, ht⟩ := exists_bytes x
  have hnil : tail = [] := by
    rw [List.length_append, bytesToBits_length] at h
    exact List.length_eq_zero_iff.mp (by omega)
  rw [hnil, List.append_nil, packBytes_bytesToBits]

/-- The flush ends at a whole byte (R61). -/
theorem flush_length_mod (x : BitSeq) : (flush x).length % 8 = 0 := by
  rw [flush, List.length_append, List.length_replicate]
  omega

/-- Settles O60: the padding is a remainder modulo 8, and what is flushed is whole bytes. -/
theorem flushPadsToWholeBytes : Obligations.FlushPadsToWholeBytes := fun x =>
  ⟨⟨_, Nat.mod_lt _ (by decide), rfl⟩, flush_length_mod x, bytesToBits_packBytes (flush_length_mod x)⟩

end Sys2Proof.Machine

/-!
PROOFS. The encoding of commands and stream tokens (spec/30_encoding.md R80 to R98): decoding gives back what was
encoded, a step runs what it decodes, each token is what the operation in progress reads or writes, and the length of
a compressed stream.
-/

namespace Sys2Proof.Machine

variable {s s' : State}

/-! Decoding what was encoded -/

/-- A field of `n` bits read as a word, before the bits that follow it (R57). -/
theorem ofNat_val_take_be {n : Nat} (v : BitVec n) (z : BitSeq) :
    BitVec.ofNat n (val ((be n v.toNat ++ z).take n)) = v := by
  rw [List.take_left' (be_length n v.toNat), ofNat_val_be]

theorem drop_be_append (n v : Nat) (z : BitSeq) : (be n v ++ z).drop n = z := List.drop_left' (be_length n v)

theorem decodeCommand_of_opcodeOf {i : Instr} {op : OpCode} (h : opcodeOf i = some op) : decodeCommand op = i := by
  cases i <;> cases h <;> rfl

/-- A command, a reserved code too (R90, R94). -/
theorem decode_encode_command {i : Instr} {op : OpCode} (h : opcodeOf i = some op) (z : BitSeq) :
    decode .command (encode i ++ z) = .ok (i, z) := by
  obtain rfl := decodeCommand_of_opcodeOf h
  rw [encode_decodeCommand, decode, if_pos (by simp), ofNat_val_take_be, drop_be_append]

theorem decode_encode_streamMagic (m : BitVec 32) (z : BitSeq) :
    decode .magic (encode (.streamMagic m) ++ z) = .ok (.streamMagic m, z) := by
  rw [encode, decode, if_pos (by simp), ofNat_val_take_be, drop_be_append]

theorem decode_encode_hdrLeaf (sym : Symbol) (z : BitSeq) :
    decode .header (encode (.hdrLeaf sym) ++ z) = .ok (.hdrLeaf sym, z) := by
  rw [encode, List.cons_append, decode, if_pos (by simp), ofNat_val_take_be, drop_be_append]

/-- The code of a leaf of a tree that is no singleton (R89). -/
theorem decode_encode_codeToken {w : Nat} {l r : Tree} {sym : Symbol} {p : Path}
    (h : (Tree.internal w l r).leafAt p sym) (z : BitSeq) :
    decode (.payload (.internal w l r)) (encode (codeToken sym p) ++ z) = .ok (codeToken sym p, z) := by
  obtain ⟨w', hn⟩ := h
  rw [encode_codeToken]
  exact decodeCode_leaf hn [] z

/-- Settles O3: by the instruction in a fixed field, and by the walk to the leaf in the payload. -/
theorem decodeInvertsEncode : Obligations.DecodeInvertsEncode := by
  refine ⟨fun i f z _ hf => ?_, fun w l r sym p z h => decode_encode_codeToken h z, fun sym w z => rfl⟩
  cases i with
  | streamMagic m => cases hf; exact decode_encode_streamMagic m z
  | hdrInternal => cases hf; rfl
  | hdrLeaf sym => cases hf; exact decode_encode_hdrLeaf sym z
  | payloadCode p => cases hf
  | terminatorCode p => cases hf
  | _ => cases hf; exact decode_encode_command rfl z

/-- Settles O2: each word is a row of the command table or a header token, and the decoder evaluates it. -/
theorem specWordsDecode : Obligations.SpecWordsDecode := ⟨rfl, rfl, rfl, rfl, rfl, rfl, rfl, rfl, rfl⟩

/-! What a step runs -/

/-- The token that a field decodes to is run with the source moved past its bits (R89). -/
theorem fetchToken_of_decode {f : Format} {i : Instr} {z : BitSeq} (h : decode f s.src.rest = .ok (i, z))
    (onEnd : DecodeError → Result) :
    fetchToken f s onEnd = .run i (s.setSrc (s.src.skip (encode i).length)) := by
  simp only [fetchToken, h]

/-- What stands in the field of the magic is 32 bits (R81). -/
theorem encode_length_of_decode_magic {x z : BitSeq} {i : Instr} (h : decode .magic x = .ok (i, z)) :
    (encode i).length = 32 := by
  rw [decode] at h
  split at h <;> cases h
  exact be_length _ _

theorem fetchPayload_internal {w : Nat} {l r : Tree} (ht : s.tree = some (.internal w l r)) :
    fetchPayload s = fetchToken (.payload (.internal w l r)) (s.setCur []) (endInPayload s) := by
  rw [fetchPayload, ht]

theorem fetchPayload_leaf {sym : Symbol} {w : Nat} (ht : s.tree = some (.leaf sym w)) :
    fetchPayload s = .run (.terminatorCode []) s := by
  rw [fetchPayload, ht]

theorem step_of_fetch {i : Instr} (h : fetch s = .run i s') : step s = exec i s' := by
  rw [step_eq, h]
  rfl

theorem fetch_inProgress {j : Job} (hj : s.job = some j) (hp : s.port = []) : fetch s = fetchInProgress j s := by
  simp only [fetch, hj, hp]

theorem step_command {op : OpCode} {rest : List OpCode} (hj : s.job = none) (hp : s.port = op :: rest) :
    step s = exec (decodeCommand op) { s with port := rest } :=
  step_of_fetch (by simp only [fetch, hj, hp])

theorem step_nothing (hj : s.job = none) (hp : s.port = []) : step s = .next s := by
  simp only [step, fetch, hj, hp]

theorem step_commandWhileBusy {j : Job} {op : OpCode} {rest : List OpCode} (hj : s.job = some j)
    (hp : s.port = op :: rest) : step s = .refused .badCommand := by
  simp only [step, fetch, hj, hp]

/-- Settles O1: by what the port and the operation in progress give to fetch. -/
theorem stepRunsDecodedInstruction : Obligations.StepRunsDecodedInstruction := by
  refine ⟨fun s op rest hj hp => step_command hj hp, fun s hj hp => step_nothing hj hp,
    fun s j op rest hj hp => step_commandWhileBusy hj hp, fun s i z hp hj h => ?magic, fun s r i z hp hj h => ?header,
    fun s w l r i z hp hj ht h => ?payload, fun s sym w hp hj ht => ?singleton⟩
  case magic =>
    rw [← encode_length_of_decode_magic h]
    exact step_of_fetch ((fetch_inProgress hj hp).trans (fetchToken_of_decode h _))
  case header => exact step_of_fetch ((fetch_inProgress hj hp).trans (fetchToken_of_decode h _))
  case payload =>
    exact step_of_fetch ((fetch_inProgress hj hp).trans
      ((fetchPayload_internal ht).trans (fetchToken_of_decode (s := s.setCur []) h _)))
  case singleton => exact step_of_fetch ((fetch_inProgress hj hp).trans (fetchPayload_leaf ht))

/-- Every code presented while `BUSY = 1`: a command is tested for it first, a reserved code is refused in any state
(R94, R233). -/
theorem command_busy {j : Job} (hj : s.job = some j) (op : OpCode) :
    exec (decodeCommand op) s = .refused .badCommand := by
  unfold decodeCommand
  split
  iterate 14 exact guarded_busy hj
  all_goals rfl

/-- Settles O18: a reserved code has no other meaning, and every command is tested for `BUSY` first. -/
theorem badCommandIsRefused : Obligations.BadCommandIsRefused :=
  ⟨fun _ => ⟨rfl, rfl⟩, fun _ _ op hj => command_busy hj op⟩

/-! The magic token -/

theorem streamMagic_read (hj : s.job = some .rdMagic) (m : BitVec 32) :
    exec (.streamMagic m) s = checkMagic m (s.setJob none) := by
  simp only [exec, execStreamMagic, hj]

theorem streamMagic_written (hj : s.job = some .wrMagic) :
    exec (.streamMagic Config.magicTree) s = .next ((s.writeSeq (be 32 Config.magicTree.toNat)).setJob none) := by
  simp only [exec, execStreamMagic, hj, encode, if_true]

/-- Settles O54: the value read is compared with the magic, and the value written is the magic. -/
theorem magicTokenIsReadAndWritten : Obligations.MagicTokenIsReadAndWritten := by
  refine ⟨fun s hj => ?_, fun s m hj hm => ?_, fun s hj => streamMagic_written hj⟩
  · rw [streamMagic_read hj, checkMagic, if_pos rfl]
    rfl
  · rw [streamMagic_read hj, checkMagic, if_neg hm]
    rfl

/-! The header tokens -/

theorem hdrInternal_read {r : HdrReader} (hj : s.job = some (.hdrRd r)) : exec .hdrInternal s = readInternal r s := by
  simp only [exec, execHdrInternal, hj]

theorem hdrInternal_written {w : Nat} {left right : Tree} {todo : List Tree}
    (hj : s.job = some (.hdrWr (.internal w left right :: todo))) :
    exec .hdrInternal s = .next ((s.writeSeq [false]).setJob (some (.hdrWr (left :: right :: todo)))) := by
  simp only [exec, execHdrInternal, hj, encode, writeNext]

/-- Settles O55: the reader counts the nodes it opens up to the bound, and the writer descends in pre-order. -/
theorem internalTokenIsReadAndWritten : Obligations.InternalTokenIsReadAndWritten :=
  ⟨fun s _ hj hn => (hdrInternal_read hj).trans (readInternal_open hn s),
    fun _ _ hj hn => (hdrInternal_read hj).trans (if_pos hn), fun _ _ _ _ _ hj => hdrInternal_written hj⟩

theorem hdrLeaf_read {r : HdrReader} (hj : s.job = some (.hdrRd r)) (sym : Symbol) :
    exec (.hdrLeaf sym) s = readLeaf sym r s := by
  simp only [exec, execHdrLeaf, hj]

theorem hdrLeaf_written {w : Nat} {sym : Symbol} {todo : List Tree} (hj : s.job = some (.hdrWr (.leaf sym w :: todo))) :
    exec (.hdrLeaf sym) s = .next ((s.writeSeq (true :: be 9 sym.toNat)).setJob (writeNext todo)) := by
  simp only [exec, execHdrLeaf, hj, encode, if_true]

theorem writeNext_eq (todo : List Tree) : writeNext todo = if todo = [] then none else some (.hdrWr todo) := by
  cases todo <;> rfl

/-- The subtree that is complete once `t` has completed the innermost nodes, whose left subtrees are `lefts` (R155). -/
def Tree.completing (lefts : List Tree) (t : Tree) : Tree := lefts.foldl (fun t left => .internal 0 left t) t

/-- A subtree completes the nodes whose left subtree is read, up to one that waits for its left subtree (R155). -/
theorem plug_left (lefts : List Tree) (t : Tree) (frames : List (Option Tree)) :
    plug t (lefts.map some ++ none :: frames) = .inl (some (t.completing lefts) :: frames) := by
  induction lefts generalizing t with
  | nil => rfl
  | cons left lefts ih => exact ih (.internal 0 left t)

/-- A subtree completes the tree where every open node has its left subtree (R155). -/
theorem plug_complete (lefts : List Tree) (t : Tree) : plug t (lefts.map some) = .inr (t.completing lefts) := by
  induction lefts generalizing t with
  | nil => rfl
  | cons left lefts ih => exact ih (.internal 0 left t)

theorem readLeaf_rejected {sym : Symbol} {r : HdrReader} (h : 256 < sym.toNat ∨ sym ∈ r.seen) (s : State) :
    readLeaf sym r s = .next (s.raise .invalidFormat) := by
  refine if_neg fun ha => ?_
  obtain ⟨hle, hnew⟩ := (leafAccepted_iff sym r.seen).mp ha
  exact h.elim (Nat.not_lt.mpr hle) hnew

/-- An accepted leaf whose completed nodes are the left subtree of the next open node (R155). -/
theorem readLeaf_left {sym : Symbol} {r : HdrReader} {lefts : List Tree} {frames : List (Option Tree)}
    (ha : leafAccepted sym r.seen = true) (hf : r.frames = lefts.map some ++ none :: frames) (s : State) :
    readLeaf sym r s = .next (s.setJob (some (.hdrRd
      ⟨some ((Tree.leaf sym 0).completing lefts) :: frames, sym :: r.seen, r.nint⟩))) := by
  simp only [readLeaf, ha, if_true, hf, plug_left]

/-- An accepted leaf that completes the tree (R155, R156). -/
theorem readLeaf_complete {sym : Symbol} {r : HdrReader} {lefts : List Tree}
    (ha : leafAccepted sym r.seen = true) (hf : r.frames = lefts.map some) (s : State) :
    readLeaf sym r s =
      finishHeader ((Tree.leaf sym 0).completing lefts) (sym :: r.seen) (s.setJob none) := by
  simp only [readLeaf, ha, if_true, hf, plug_complete]

theorem finishHeader_eq (t : Tree) (sym : Symbol) (seen : List Symbol) (s : State) :
    finishHeader t (sym :: seen) s =
      .next (if sym = TERM ∨ TERM ∈ seen then s.setRead t else s.raise .invalidFormat) := by
  simp only [finishHeader, List.contains_iff_mem, List.mem_cons, eq_comm (a := TERM)]
  exact (apply_ite _ _ _ _).symm

/-- Settles O56: by the checks on the symbol, then by the open nodes that the leaf completes. -/
theorem leafTokenIsReadAndWritten : Obligations.LeafTokenIsReadAndWritten := by
  refine ⟨fun s r sym hj h => ?rejected, fun s r sym lefts frames hj hle hnew hf => ?left,
    fun s r sym lefts hj hle hnew hf => ?complete, fun s w sym todo hj => ?written⟩
  case rejected => rw [hdrLeaf_read hj, readLeaf_rejected h]
  case left =>
    rw [hdrLeaf_read hj, readLeaf_left ((leafAccepted_iff _ _).mpr ⟨hle, hnew⟩) hf]
    rfl
  case complete =>
    rw [hdrLeaf_read hj, readLeaf_complete ((leafAccepted_iff _ _).mpr ⟨hle, hnew⟩) hf, finishHeader_eq]
    rfl
  case written =>
    rw [hdrLeaf_written hj, writeNext_eq]
    rfl

/-! The codes -/

theorem payloadCode_read (hj : s.job = some .decPay) (p : BitSeq) : exec (.payloadCode p) s = readCode p s := by
  simp only [exec, execPayloadCode, hj]

theorem terminatorCode_read (hj : s.job = some .decPay) (p : BitSeq) : exec (.terminatorCode p) s = readCode p s := by
  simp only [exec, execTerminatorCode, hj]

theorem State.setCur_self {p : Path} (h : s.cur = p) : s.setCur p = s := by subst h; rfl

/-- The code of a leaf of a tree that is no singleton, read from the root (R193). -/
theorem readCode_leafAt {t : Tree} {p : Path} {sym : Symbol} (ht : s.tree = some t) (hn : t.isLeaf = false)
    (hc : s.cur = []) (h : t.leafAt p sym) :
    readCode p s = .next (if sym = TERM then s.setJob none else s.writeBits 8 sym.toNat) := by
  obtain ⟨w', hp⟩ := h
  cases t with
  | leaf => cases hn
  | internal w l r =>
    simp only [readCode, ht, decWalk_leaf ht (by rw [hc]; rfl) rfl hp, State.emitted]
    by_cases hT : sym = TERM
    · simp only [if_pos hT, State.setCur_self hc]
    · simp only [if_neg hT, State.setCur_self (s := s.writeBits 8 sym.toNat) hc]

/-- The only code of a singleton tree is the empty one (R195). -/
theorem readCode_singleton {sym : Symbol} {w : Nat} (ht : s.tree = some (.leaf sym w)) :
    readCode [] s = .next (s.setJob none) := by
  simp only [readCode, ht, if_true]

theorem payloadCode_written {t : Tree} {b : Byte} {p z : BitSeq} (hj : s.job = some .encPay) (ht : s.tree = some t)
    (hn : t.isLeaf = false) (hz : s.src.rest = be 8 b.toNat ++ z) (hc : s.code.get (byteSymbol b) = some p) :
    exec (.payloadCode p) s = .next ((s.setSrc (s.src.skip 8)).writeSeq p) := by
  cases t with
  | leaf => cases hn
  | internal w l r => simp only [exec, execPayloadCode, hj, ht, readByte_cons hz, hc, if_true]

/-- Settles O57: the walk from the root ends at the byte's leaf, and the writer takes the byte that stands next. -/
theorem payloadTokenIsReadAndWritten : Obligations.PayloadTokenIsReadAndWritten := by
  refine ⟨fun s t b p hj ht hn hc h => ?_, fun s t b p z hj ht hn hz hc => payloadCode_written hj ht hn hz hc⟩
  rw [payloadCode_read hj, readCode_leafAt ht hn hc h, if_neg (byteSymbol_ne_term b), byteSymbol_toNat]
  rfl

theorem terminatorCode_written {p : BitSeq} (hj : s.job = some .encPay) (hd : terminatorDue p s = true) :
    exec (.terminatorCode p) s = .next ((s.writeSeq p).setJob none) := by
  simp only [exec, execTerminatorCode, hj, hd, if_true]

theorem terminatorDue_internal {t : Tree} {p : BitSeq} (ht : s.tree = some t) (hn : t.isLeaf = false)
    (he : s.src.rest.length < 8) (hc : s.code.get TERM = some p) : terminatorDue p s = true := by
  cases t with
  | leaf => cases hn
  | internal w l r => simp only [terminatorDue, ht, readByte_end he, hc, beq_self_eq_true]

theorem terminatorDue_singleton {sym : Symbol} {w : Nat} (ht : s.tree = some (.leaf sym w))
    (he : s.src.rest.length < 8) : terminatorDue [] s = true := by
  simp only [terminatorDue, ht, readByte_end he, beq_self_eq_true]

/-- Settles O58: by whether the tree is a singleton, in which the terminator has the empty code. -/
theorem terminatorTokenIsReadAndWritten : Obligations.TerminatorTokenIsReadAndWritten := by
  refine ⟨fun s t p hj ht hc h => ?_,
    fun s t p hj ht hn he hp => terminatorCode_written hj (terminatorDue_internal ht hn he hp),
    fun s sym w hj ht he => ?_⟩
  · rw [terminatorCode_read hj]
    cases t with
    | leaf sym w =>
      obtain ⟨rfl, -⟩ := (Tree.leafAt_leaf _ _ _ _).mp h
      exact readCode_singleton ht
    | internal w l r => exact readCode_leafAt ht rfl hc h
  · rw [terminatorCode_written hj (terminatorDue_singleton ht he), State.writeSeq_nil]
    rfl

/-! What `ENCODE` and `COMPRESS` write -/

/-- A byte or the terminator has a code exactly when it is a leaf of the tree (R141, R143). -/
theorem codeTable_isSome {t : Tree} (hv : t.Valid) (sym : Symbol) :
    ((codeTable t).get sym).isSome = true ↔ sym ∈ t.leaves := by
  simp only [Option.isSome_iff_exists, codeTable_get hv, Tree.mem_leaves]

/-- Under a singleton tree, whose leaf is the terminator's, no byte has a code (R174). -/
theorem eq_nil_of_allCoded_leaf {sym : Symbol} {w : Nat} {l : List Byte} (hv : (Tree.leaf sym w).Valid)
    (ha : allCoded (codeTable (.leaf sym w)) l) : l = [] := by
  refine List.eq_nil_iff_forall_not_mem.mpr fun b hb => byteSymbol_ne_term b ?_
  have hbyte := List.mem_singleton.mp ((codeTable_isSome hv _).mp (ha b hb))
  have hterm := List.mem_singleton.mp hv.term_mem
  rw [hbyte, hterm]

/-- The terminator's code under a singleton tree is empty (R142). -/
theorem terminatorBits_leaf {sym : Symbol} {w : Nat} (hv : (Tree.leaf sym w).Valid) :
    terminatorBits (codeTable (.leaf sym w)) = [] := by
  have hcode : (codeTable (.leaf sym w)).get TERM = some [] :=
    (codeTable_get hv TERM []).mpr ((Tree.leafAt_leaf _ _ _ _).mpr ⟨rfl, List.mem_singleton.mp hv.term_mem⟩)
  rw [terminatorBits, hcode, Option.getD_some]

/-! Each command in the block where it completes -/

theorem guarded_idle {i : Instr} {o : Result} (hi : s.idle) (hn : s.hasNeeds i = true) : guarded i s o = o :=
  guarded_ready hi.1 (State.ready_of_err_none hi.2 hn)

theorem execClr_eq (hj : s.job = none) : execClr s = .next s.clearBlock := guarded_ready hj rfl

theorem execRewind_eq (hj : s.job = none) : execRewind s = .next (s.setSrc s.src.rewind) := guarded_ready hj rfl

/-- `COUNT` in an idle block (R110, R111). -/
theorem execCount_eq {l : List Byte} (hi : s.idle) (hl : s.src.holdsBytes l) :
    execCount s =
      if l.length ≤ Config.maxInput then .next ((s.setSrc (s.src.skip (8 * l.length))).setCounts (countsOf l))
      else .refused .widthOverflow :=
  (guarded_idle (i := .count) hi rfl).trans (performCount_eq hl)

theorem execBuild_eq (hi : s.idle) (hn : s.cntValid = true) : execBuild s = .next (s.setBuilt (buildTree s.cnt)) :=
  guarded_idle hi hn

theorem execGencode_eq {t : Tree} (hi : s.idle) (ht : s.tree = some t) :
    execGencode s = .next (s.setCodes (codeTable t)) :=
  (guarded_idle (i := .gencode) hi (Option.isSome_of_eq_some ht)).trans (performGencode_some ht)

theorem execWrmagic_eq (hi : s.idle) : execWrmagic s = .next (s.writeSeq (be 32 Config.magicTree.toNat)) :=
  guarded_idle hi rfl

theorem execHdrwr_eq {t : Tree} (hi : s.idle) (ht : s.tree = some t) :
    execHdrwr s = .next (s.writeSeq (headerBits t)) :=
  (guarded_idle (i := .hdrwr) hi (Option.isSome_of_eq_some ht)).trans (performHdrwr_some ht)

/-- What `ENCPAY` and `ENCODE` need (R212). -/
theorem treeValid_and_codeValid {t : Tree} (ht : s.tree = some t) (hcv : s.codeValid = true) :
    (s.treeValid && s.codeValid) = true :=
  Bool.and_eq_true_iff.mpr ⟨Option.isSome_of_eq_some ht, hcv⟩

section Coded

variable {t : Tree} {l : List Byte} (hi : s.idle) (ht : s.tree = some t) (hv : t.Valid) (hc : s.code = codeTable t)
  (hl : s.src.holdsBytes l) (ha : allCoded (codeTable t) l)
include hi ht hv hc hl ha

/-- `ENCPAY` on coded bytes, with a singleton tree too (R172, R174). -/
theorem performEncpay_coded :
    performEncpay s = .next ((s.setSrc (s.src.skip (8 * l.length))).writeSeq
      (payloadBits (codeTable t) l ++ terminatorBits (codeTable t))) := by
  obtain ⟨tail, hr, htail⟩ := hl
  cases t with
  | leaf sym w =>
    obtain rfl := eq_nil_of_allCoded_leaf hv ha
    have hend : readByte s.src = (none, s.src) := readByte_end (by simpa [hr] using htail)
    simp only [performEncpay_leaf ht, encSingleton, hend, payloadBits_nil, terminatorBits_leaf hv, List.nil_append,
      State.writeSeq_nil, List.length_nil, Nat.mul_zero, Src.skip_zero]
  | internal w left right =>
    obtain ⟨e, he⟩ := Option.isSome_iff_exists.mp ((codeTable_isSome hv TERM).mpr hv.term_mem)
    rw [performEncpay_internal ht, Src.bytesLeft_eq hr htail,
      encLoop_coded l hi.2 hr htail (hc ▸ ha) (hc ▸ he) (Nat.lt_succ_self _), terminatorBits, he, hc,
      Option.getD_some]

variable (hcv : s.codeValid = true)
include hcv

theorem execEncpay_coded :
    execEncpay s = .next ((s.setSrc (s.src.skip (8 * l.length))).writeSeq
      (payloadBits (codeTable t) l ++ terminatorBits (codeTable t))) :=
  (guarded_idle (i := .encpay) hi (treeValid_and_codeValid ht hcv)).trans (performEncpay_coded hi ht hv hc hl ha)

/-- `ENCODE` on coded bytes: magic, header, payload, terminator (R175). -/
theorem execEncode_coded :
    execEncode s = .next ((s.setSrc (s.src.skip (8 * l.length))).writeSeq (streamBits t l)) := by
  have hn : s.hasNeeds .encode = true := treeValid_and_codeValid ht hcv
  rw [execEncode, guarded_idle hi hn, performEncode, execWrmagic_eq hi, thenDo_ok (s := s.writeSeq _) hi.2,
    execHdrwr_eq (s := s.writeSeq _) hi ht, thenDo_ok (s := (s.writeSeq _).writeSeq _) hi.2,
    execEncpay_coded (s := (s.writeSeq _).writeSeq _) hi ht hv hc hl ha hcv]
  simp only [State.writeSeq_src, State.writeSeq_setSrc, State.writeSeq_writeSeq, streamBits, List.append_assoc]

end Coded

/-- Every byte counted has a code under the tree built (R121, R141). -/
theorem allCoded_buildTree {l : List Byte} {t : Tree} (h : buildTree (countsOf l) = some t) :
    allCoded (codeTable t) l := by
  intro b hb
  obtain ⟨hv, hp⟩ := buildTree_valid h
  rw [codeTable_isSome hv, hp.mem_iff, List.mem_append]
  have hcount : (countsOf l).get b ≠ 0 := by rw [countsOf_get]; exact (List.count_pos_iff.mpr hb).ne'
  exact .inl (List.mem_map_of_mem (List.mem_filter.mpr ⟨mem_byteValues b, decide_eq_true hcount⟩))

/-- Of two blocks cleared, only the streams and the command port can differ (R37, R252). -/
theorem State.clearBlock_congr (hsrc : s.src = s'.src) (hsnk : s.snk = s'.snk) (hport : s.port = s'.port) :
    s.clearBlock = s'.clearBlock := by
  rw [s.clearBlock_eq, hsrc, hsnk, hport, ← s'.clearBlock_eq]

/-- The block once the first pass of `COMPRESS` has counted `tab` and built the tree `t`, the source at its start
(R213). -/
def State.afterFirstPass (tab : CountTable) (t : Tree) (s : State) : State :=
  (((s.clearBlock.setCounts tab).setBuilt (some t)).setCodes (codeTable t)).setSrc s.src.rewind

@[simp] theorem State.afterFirstPass_src (tab : CountTable) (t : Tree) (s : State) :
    (s.afterFirstPass tab t).src = s.src.rewind := rfl

@[simp] theorem State.afterFirstPass_snk (tab : CountTable) (t : Tree) (s : State) :
    (s.afterFirstPass tab t).snk = s.snk := rfl

@[simp] theorem State.afterFirstPass_port (tab : CountTable) (t : Tree) (s : State) :
    (s.afterFirstPass tab t).port = s.port := rfl

theorem State.afterFirstPass_idle (tab : CountTable) (t : Tree) (s : State) : (s.afterFirstPass tab t).idle :=
  ⟨rfl, rfl⟩

section Compress

variable {l : List Byte} (hj : s.job = none) (hl : s.src.holdsBytes l)
include hj hl

/-- The input is too long for the width (R213, R232). -/
theorem execCompress_tooLong (hm : ¬ l.length ≤ Config.maxInput) : execCompress s = .refused .widthOverflow := by
  rw [execCompress, guarded_ready hj rfl, performCompress, performFirstPass, execClr_eq hj, thenDo_ok rfl,
    execCount_eq (s := s.clearBlock) ⟨rfl, rfl⟩ hl, if_neg hm]
  rfl

variable {t : Tree} (hm : l.length ≤ Config.maxInput) (ht : buildTree (countsOf l) = some t)
include hm ht

theorem performFirstPass_eq : performFirstPass s = .next (s.afterFirstPass (countsOf l) t) := by
  rw [performFirstPass, execClr_eq hj, thenDo_ok rfl, execCount_eq (s := s.clearBlock) ⟨rfl, rfl⟩ hl, if_pos hm,
    thenDo_ok rfl, execRewind_eq rfl, thenDo_ok rfl, execBuild_eq ⟨rfl, rfl⟩ rfl, thenDo_ok rfl]
  simp only [State.setSrc_cnt, State.setCounts_cnt, ht]
  exact execGencode_eq ⟨rfl, rfl⟩ rfl

/-- `COMPRESS` from the start of its input: the whole stream is written and the block's state discarded (R213). -/
theorem execCompress_eq (hp : s.src.pos = 0) :
    execCompress s = .next ((s.setSrc (s.src.skip (8 * l.length))).writeSeq (streamBits t l)).clearBlock := by
  have hsrc : (s.afterFirstPass (countsOf l) t).src = s.src := by rw [State.afterFirstPass_src, Src.rewind, ← hp]
  have hbytes : (s.afterFirstPass (countsOf l) t).src.holdsBytes l := by rwa [hsrc]
  have hi := s.afterFirstPass_idle (countsOf l) t
  rw [execCompress, guarded_ready hj rfl, performCompress, performFirstPass_eq hj hl hm ht, thenDo_ok hi.2,
    execEncode_coded hi rfl (buildTree_valid ht).1 rfl hbytes (allCoded_buildTree ht) rfl,
    thenDo_ok (s := ((s.afterFirstPass (countsOf l) t).setSrc _).writeSeq _) rfl, hsrc]
  exact congrArg Host.Outcome.next (State.clearBlock_congr (by simp) (by simp) (by simp))

end Compress

/-! The length of a compressed stream -/

theorem headerBits_length (t : Tree) : (headerBits t).length = 11 * t.leaves.length - 1 := by
  have key : (headerBits t).length + 1 = 11 * t.leaves.length := by
    induction t with
    | leaf sym w => simp [headerBits_leaf, Tree.leaves]
    | internal w l r ihl ihr =>
      rw [headerBits_internal, Tree.leaves, List.length_cons, List.length_append, List.length_append]
      omega
  omega

/-- The bits of a payload, summed over the byte values and not over the bytes (R88). -/
theorem payloadBits_length (tab : CodeTable) (l : List Byte) :
    (payloadBits tab l).length =
      (byteValues.map fun v => (countsOf l).get v * ((tab.get (byteSymbol v)).getD []).length).sum := by
  rw [payloadBits, List.length_flatMap, Finset.sum_list_map_count, ← List.sum_toFinset _ byteValues_nodup]
  simp only [countsOf_get, smul_eq_mul]
  refine Finset.sum_subset (fun v _ => List.mem_toFinset.mpr (mem_byteValues v)) fun v _ hv => ?_
  rw [List.count_eq_zero_of_not_mem (fun h => hv (List.mem_toFinset.mpr h)), Nat.zero_mul]

theorem streamBits_length (t : Tree) (l : List Byte) :
    (streamBits t l).length = 32 + (11 * t.leaves.length - 1) +
      (byteValues.map fun v => (countsOf l).get v * (((codeTable t).get (byteSymbol v)).getD []).length).sum +
      (terminatorBits (codeTable t)).length := by
  simp only [streamBits, List.length_append, be_length, headerBits_length, payloadBits_length]

/-- Settles O48: a COMPRESS that completes was neither busy nor over the width, so it has appended the whole stream. -/
theorem compressLengthIsR88 : Obligations.CompressLengthIsR88 := by
  intro s s' l hp hl h
  obtain ⟨hj, -, -⟩ := guarded_next (show execCompress s = .next s' from h)
  obtain ⟨t, ht, -⟩ := buildTree_some (countsOf l)
  refine ⟨t, ht, ?_⟩
  have hm : l.length ≤ Config.maxInput := by
    by_contra hm
    cases (execCompress_tooLong hj hl hm).symm.trans h
  obtain rfl := Host.Outcome.next.inj ((execCompress_eq hj hl hm ht hp).symm.trans h)
  rw [State.clearBlock_snk, State.writeSeq_snk, State.setSrc_snk, List.length_append, streamBits_length]
  omega

end Sys2Proof.Machine

namespace Sys2Proof.Machine

/-! The counts and the input they describe -/

/-- Settles O19: the tally of `performCount_eq`, in a block that accepts `COUNT` and on an input within the width. -/
theorem countTalliesBytes : Obligations.CountTalliesBytes := by
  intro s l hi hl hm
  exact (execCount_eq hi hl).trans (if_pos hm)

/-- A `COUNT` that completes on the bytes `l` was not refused for the width, so it holds their counts (R110, R111). -/
theorem execCount_cnt {s s' : State} {l : List Byte} (hi : s.idle) (hl : s.src.holdsBytes l)
    (h : execCount s = .next s') : s'.cnt = countsOf l := by
  by_cases hm : l.length ≤ Config.maxInput
  · rw [execCount_eq hi hl, if_pos hm] at h
    rw [← Host.Outcome.next.inj h, State.setCounts_cnt]
  · rw [execCount_eq hi hl, if_neg hm] at h
    cases h

theorem countsOf_get_pos (l : List Byte) (v : Byte) : 0 < (countsOf l).get v ↔ v ∈ l := by
  rw [countsOf_get, List.count_pos_iff]

/-- Each value counted is one of the 256 byte values, and each occurs among the bytes of `l` (R112). -/
theorem countsOf_nonzero_length_le (l : List Byte) :
    (byteValues.filter fun v => (countsOf l).get v ≠ 0).length ≤ min l.length 256 := by
  refine le_min (((byteValues_nodup.filter _).subperm fun v hv => ?_).length_le) ?_
  · exact (countsOf_get_pos l v).mp (Nat.pos_of_ne_zero (of_decide_eq_true (List.mem_filter.mp hv).2))
  · calc _ ≤ byteValues.length := List.length_filter_le _ _
      _ = 256 := by rw [byteValues, List.length_map, List.length_range]

/-- Settles O21: the three facts about the counts of the bytes that `COUNT` tallied. -/
theorem countsDescribeInput : Obligations.CountsDescribeInput := by
  intro s s' l hi hl h
  rw [execCount_cnt hi hl h]
  exact ⟨countsOf_total l, countsOf_get_pos l, countsOf_nonzero_length_le l⟩

end Sys2Proof.Machine

/-!
PROOFS. The merges of `BUILD` and the shape of the tree they give (spec/41_tree_builder.md R120 to R128).
-/

namespace Sys2Proof.Machine

/-! The order of the keys and the entry `remove_min` takes -/

/-- The key of `a` is at most that of `b`, smaller weight first, then smaller `seq` (R122). -/
def PQEntry.NotAfter (a b : PQEntry) : Prop := a.weight < b.weight ∨ (a.weight = b.weight ∧ a.seq ≤ b.seq)

theorem PQEntry.NotAfter.refl (a : PQEntry) : a.NotAfter a := .inr ⟨rfl, le_rfl⟩

theorem PQEntry.NotAfter.trans {a b c : PQEntry} (hab : a.NotAfter b) (hbc : b.NotAfter c) : a.NotAfter c := by
  unfold PQEntry.NotAfter at *
  omega

theorem PQEntry.NotAfter.weight_le {a b : PQEntry} (h : a.NotAfter b) : a.weight ≤ b.weight :=
  h.elim Nat.le_of_lt fun h => h.1.le

/-- Two keys compare one way or the other, and `before` says which (R122). -/
theorem PQEntry.notAfter_of_before (a b : PQEntry) : if a.before b then a.NotAfter b else b.NotAfter a := by
  simp only [PQEntry.before, PQEntry.NotAfter, Bool.or_eq_true, Bool.and_eq_true, decide_eq_true_eq, beq_iff_eq]
  split <;> omega

theorem removeMin_some {q : List PQEntry} (h : q ≠ []) : ∃ a rest, removeMin q = some (a, rest) := by
  obtain ⟨⟨a, rest⟩, h⟩ := Option.ne_none_iff_exists'.mp (mt removeMin_eq_none.mp h)
  exact ⟨a, rest, h⟩

/-- `remove_min` takes an entry that comes after none of the others (R122). -/
theorem removeMin_notAfter {q rest : List PQEntry} {a : PQEntry} (h : removeMin q = some (a, rest)) :
    ∀ x ∈ q, a.NotAfter x := by
  induction q generalizing a rest with
  | nil => simp
  | cons e es ih =>
    rw [removeMin] at h
    cases hm : removeMin es with
    | none =>
      rw [hm] at h
      cases h
      simp [removeMin_eq_none.mp hm, PQEntry.NotAfter.refl]
    | some y =>
      obtain ⟨m, others⟩ := y
      have hem := e.notAfter_of_before m
      simp only [hm] at h
      split at h <;> rename_i hb
      · cases h
        rw [if_pos hb] at hem
        exact List.forall_mem_cons.mpr ⟨.refl e, fun x hx => hem.trans (ih hm x hx)⟩
      · cases h
        rw [if_neg hb] at hem
        exact List.forall_mem_cons.mpr ⟨hem, ih hm⟩

/-! One merge -/

/-- The queue after the merge of `a` and `b`, with `rest` left beside them: `a` is the left child (R123, R124). -/
def PQ.merged (q : PQ) (a b : PQEntry) (rest : List PQEntry) : PQ :=
  PQ.insert (.internal (a.tree.weight + b.tree.weight) a.tree b.tree) { entries := rest, seq := q.seq }

theorem mergeLoop_merge {q : PQ} {a b : PQEntry} {rest rest' : List PQEntry}
    (ha : removeMin q.entries = some (a, rest)) (hb : removeMin rest = some (b, rest')) (fuel : Nat) :
    mergeLoop (fuel + 1) q = mergeLoop fuel (q.merged a b rest') := by
  simp only [mergeLoop, ha, hb, PQ.merged]

theorem mergeLoop_root {q : PQ} {a : PQEntry} (ha : removeMin q.entries = some (a, [])) (fuel : Nat) :
    mergeLoop (fuel + 1) q = some a.tree := by
  simp only [mergeLoop, ha, removeMin]

/-- What every merge keeps holds of the queue whose only entry is the root (R123, R125). -/
theorem mergeLoop_invariant {P : PQ → Prop}
    (hmerge : ∀ {q : PQ} {a b : PQEntry} {rest rest' : List PQEntry}, P q → removeMin q.entries = some (a, rest) →
      removeMin rest = some (b, rest') → P (q.merged a b rest'))
    {fuel : Nat} {q : PQ} {t : Tree} (hq : P q) (h : mergeLoop fuel q = some t) :
    ∃ (q' : PQ) (a : PQEntry), P q' ∧ q'.entries = [a] ∧ a.tree = t := by
  induction fuel generalizing q with
  | zero => cases h
  | succ fuel ih =>
    cases ha : removeMin q.entries with
    | none => simp [mergeLoop, ha] at h
    | some x =>
      obtain ⟨a, rest⟩ := x
      cases hb : removeMin rest with
      | none =>
        obtain rfl := removeMin_eq_none.mp hb
        rw [mergeLoop_root ha] at h
        exact ⟨q, a, hq, (List.singleton_perm.mp (removeMin_perm ha)).symm, Option.some.inj h⟩
      | some y =>
        obtain ⟨b, rest'⟩ := y
        rw [mergeLoop_merge ha hb] at h
        exact ih (hmerge hq ha hb) h

/-! The queue before the first merge -/

/-- The queue that holds `ts`, inserted in this order from `SEQ = 0` (R120, R122). -/
def PQ.ofTrees (ts : List Tree) : PQ :=
  { entries := ts.mapIdx fun i t => { weight := t.weight, seq := i, tree := t }, seq := ts.length }

theorem PQ.insert_ofTrees (ts : List Tree) (t : Tree) : (PQ.ofTrees ts).insert t = PQ.ofTrees (ts ++ [t]) := by
  simp [PQ.insert, PQ.ofTrees, List.mapIdx_append]

theorem foldl_insertCount_ofTrees (tab : CountTable) (l : List Byte) (ts : List Tree) :
    l.foldl (PQ.insertCount tab) (PQ.ofTrees ts) =
      PQ.ofTrees (ts ++ (l.filter fun v => tab.get v ≠ 0).map (countLeaf tab)) := by
  induction l generalizing ts with
  | nil => simp
  | cons v l ih =>
    by_cases h : tab.get v = 0
    · simpa [PQ.insertCount, h] using ih ts
    · simpa [PQ.insertCount, h, PQ.insert_ofTrees, countLeaf] using ih (ts ++ [countLeaf tab v])

/-- The leaves in ascending byte value, the terminator last, are numbered from 0 (R121, R122). -/
theorem initialQueue_eq_ofTrees (tab : CountTable) :
    initialQueue tab =
      PQ.ofTrees ((byteValues.filter fun v => tab.get v ≠ 0).map (countLeaf tab) ++ [.leaf TERM 1]) := by
  calc initialQueue tab = (byteValues.foldl (PQ.insertCount tab) (PQ.ofTrees [])).insert (.leaf TERM 1) := rfl
    _ = _ := by rw [foldl_insertCount_ofTrees, PQ.insert_ofTrees, List.nil_append]

theorem byteSymbol_ofNat {v : Nat} (h : v < 256) : byteSymbol (BitVec.ofNat 8 v) = BitVec.ofNat 9 v := by
  refine BitVec.eq_of_toNat_eq ?_
  rw [byteSymbol_toNat, BitVec.toNat_ofNat, BitVec.toNat_ofNat]
  omega

/-- The counted leaves, listed by the numbers of their byte values. -/
theorem countLeaves_eq_range (tab : CountTable) :
    (byteValues.filter fun v => tab.get v ≠ 0).map (countLeaf tab) =
      ((List.range 256).filter fun v => tab.get (BitVec.ofNat 8 v) ≠ 0).map fun v =>
        .leaf (BitVec.ofNat 9 v) (tab.get (BitVec.ofNat 8 v)) := by
  rw [byteValues, List.filter_map, List.map_map]
  refine List.map_congr_left fun v hv => ?_
  rw [Function.comp_apply, countLeaf, byteSymbol_ofNat (List.mem_range.mp (List.mem_filter.mp hv).1)]

/-- `BUILD` puts the tree of the counts in `TREE` (R120). -/
theorem exec_build_of_buildTree {s : State} {t : Tree} (hi : s.idle) (hc : s.cntValid = true)
    (ht : buildTree s.cnt = some t) : exec .build s = .next { s with tree := some t, codeValid := false } :=
  calc exec .build s = .next (s.setBuilt (buildTree s.cnt)) := execBuild_eq hi hc
    _ = .next { s with tree := some t, codeValid := false } := by rw [ht]; rfl

/-- Settles O23: the minimum `remove_min` takes, the two cases of `mergeLoop`, the numbered leaves, and the tree of
the counts. -/
theorem mergeTakesTwoSmallest : Obligations.MergeTakesTwoSmallest := by
  refine ⟨fun q hq => ?_, fun fuel q a b rest rest' ha hb => mergeLoop_merge ha hb fuel,
    fun fuel q a ha => mergeLoop_root ha fuel, fun c => ⟨?_, rfl⟩, fun s hi hc => ?_⟩
  · obtain ⟨a, rest, h⟩ := removeMin_some hq
    have hperm := removeMin_perm h
    exact ⟨a, rest, h, hperm, fun x hx => removeMin_notAfter h x (hperm.subset (List.mem_cons_of_mem a hx))⟩
  · rw [initialQueue_eq_ofTrees, countLeaves_eq_range]
    rfl
  · obtain ⟨t, ht, -⟩ := buildTree_some s.cnt
    exact ⟨t, ht, exec_build_of_buildTree hi hc ht⟩

/-! At most one byte value counted -/

theorem buildTree_of_leaves {tab : CountTable} {ts : List Tree}
    (h : (byteValues.filter fun v => tab.get v ≠ 0).map (countLeaf tab) = ts) :
    buildTree tab = mergeLoop (ts.length + 1) (PQ.ofTrees (ts ++ [.leaf TERM 1])) := by
  rw [buildTree, initialQueue_eq_ofTrees, h]
  simp [PQ.ofTrees]

/-- Where `v` alone can be counted, the counted values are `v` or none (R121). -/
theorem counted_of_only {tab : CountTable} {v : Byte} (h : ∀ u : Byte, u ≠ v → tab.get u = 0) :
    (byteValues.filter fun u => tab.get u ≠ 0) = if tab.get v = 0 then [] else [v] := by
  by_cases hv : tab.get v = 0
  · rw [if_pos hv, List.filter_eq_nil_iff]
    intro u _
    by_cases hu : u = v <;> simp [hu, hv, h]
  · have hp : ∀ u ∈ byteValues, (decide (tab.get u ≠ 0)) = (u == v) := by
      intro u _
      by_cases hu : u = v <;> simp [hu, hv, h]
    rw [if_neg hv, List.filter_congr hp, List.filter_beq,
      List.count_eq_one_of_mem byteValues_nodup (mem_byteValues v), List.replicate_one]

/-- The one merge of a leaf and the terminator: the terminator goes right only when the leaf's weight is at most its
own (R122, R124). -/
theorem mergeLoop_leaf_terminator (sym : Symbol) (n : Nat) :
    mergeLoop 2 (PQ.ofTrees [.leaf sym n, .leaf TERM 1]) =
      some (if n ≤ 1 then .internal (n + 1) (.leaf sym n) (.leaf TERM 1)
        else .internal (1 + n) (.leaf TERM 1) (.leaf sym n)) := by
  by_cases hn : n ≤ 1
  · have hb : n = 0 ∨ n = 1 := Nat.le_one_iff_eq_zero_or_eq_one.mp hn
    simp [mergeLoop, removeMin, PQ.ofTrees, PQEntry.before, PQ.insert, hn, hb]
  · have hb : ¬ (n = 0 ∨ n = 1) := mt Nat.le_one_iff_eq_zero_or_eq_one.mpr hn
    simp [mergeLoop, removeMin, PQ.ofTrees, PQEntry.before, PQ.insert, hn, hb]

/-- Settles O24: the terminator alone is the root, and beside one leaf it takes part in one merge. -/
theorem buildOnAtMostOneByteValue : Obligations.BuildOnAtMostOneByteValue := by
  intro s v hi hc hv
  refine exec_build_of_buildTree hi hc ?_
  have hcounted := counted_of_only hv
  by_cases h0 : s.cnt.get v = 0
  · rw [if_pos h0] at hcounted ⊢
    rw [buildTree_of_leaves (by rw [hcounted, List.map_nil])]
    rfl
  · rw [if_neg h0] at hcounted ⊢
    rw [buildTree_of_leaves (by rw [hcounted, List.map_singleton])]
    refine (mergeLoop_leaf_terminator (byteSymbol v) (s.cnt.get v)).trans ?_
    by_cases h1 : s.cnt.get v = 1
    · simp [h1]
    · rw [if_neg h1, if_neg (by omega), Nat.add_comm]

/-! Heavier nodes are not deeper

A merge takes two weights that are at least every weight merged before and at most every weight left. So the pairs of
siblings in the tree do not overlap: of two pairs, one lies below the other. This is all that the depths need. -/

/-- The weights of the two children of each internal node, left first. -/
def Tree.siblings : Tree → List (Nat × Nat)
  | .leaf _ _ => []
  | .internal _ l r => (l.weight, r.weight) :: (l.siblings ++ r.siblings)

/-- Of two pairs of siblings, one lies wholly below the other. -/
def Apart (x y : Nat × Nat) : Prop := x.2 ≤ y.1 ∨ y.2 ≤ x.1

theorem Apart.symm {x y : Nat × Nat} (h : Apart x y) : Apart y x := Or.symm h

/-- The pairs of siblings are ordered and pairwise apart: what the merges make of the leaves (R123, R124). -/
structure Layered (pairs : List (Nat × Nat)) : Prop where
  ordered : ∀ x ∈ pairs, x.1 ≤ x.2
  apart : pairs.Pairwise Apart

theorem Layered.perm {l l' : List (Nat × Nat)} (h : Layered l) (hp : l.Perm l') : Layered l' :=
  ⟨fun x hx => h.ordered x (hp.mem_iff.mpr hx), (hp.pairwise_iff Apart.symm).mp h.apart⟩

/-- A pair may join those that lie below it. -/
theorem Layered.cons {l : List (Nat × Nat)} {x : Nat × Nat} (h : Layered l) (hx : x.1 ≤ x.2)
    (hl : ∀ y ∈ l, y.2 ≤ x.1) : Layered (x :: l) :=
  ⟨List.forall_mem_cons.mpr ⟨hx, h.ordered⟩, List.pairwise_cons.mpr ⟨fun y hy => .inr (hl y hy), h.apart⟩⟩

/-- All pairs of siblings in the trees of the queue. -/
def PQ.siblings (q : PQ) : List (Nat × Nat) := q.entries.flatMap fun e => e.tree.siblings

/-- What the merges keep: the pairs of siblings are layered, below everything that is left to merge. -/
structure PQ.Layered (q : PQ) : Prop where
  keyed : q.Keyed
  pairs : Machine.Layered q.siblings
  below : ∀ x ∈ q.siblings, ∀ e ∈ q.entries, x.2 ≤ e.weight

theorem PQ.merged_siblings_perm {q : PQ} {a b : PQEntry} {rest : List PQEntry} (h : (a :: b :: rest).Perm q.entries) :
    (q.merged a b rest).siblings.Perm ((a.tree.weight, b.tree.weight) :: q.siblings) := by
  have hs : (a.tree.siblings ++ (b.tree.siblings ++ rest.flatMap fun e => e.tree.siblings)).Perm q.siblings := by
    simpa [PQ.siblings] using h.flatMap_right fun e => e.tree.siblings
  refine List.Perm.trans ?_ (hs.cons _)
  simpa [PQ.merged, PQ.insert, PQ.siblings, Tree.siblings] using List.perm_append_comm
    (l₁ := rest.flatMap fun e => e.tree.siblings)
    (l₂ := (a.tree.weight, b.tree.weight) :: (a.tree.siblings ++ b.tree.siblings))

theorem PQ.Layered.merged {q : PQ} {a b : PQEntry} {rest rest' : List PQEntry} (h : q.Layered)
    (ha : removeMin q.entries = some (a, rest)) (hb : removeMin rest = some (b, rest')) :
    (q.merged a b rest').Layered := by
  have hperm : (a :: b :: rest').Perm q.entries := ((removeMin_perm hb).cons a).trans (removeMin_perm ha)
  have hmem : ∀ e ∈ a :: b :: rest', e ∈ q.entries := fun e he => hperm.subset he
  have haq : a ∈ q.entries := hmem a (by simp)
  have hbq : b ∈ q.entries := hmem b (by simp)
  have hka : a.weight = a.tree.weight := h.keyed a haq
  have hkb : b.weight = b.tree.weight := h.keyed b hbq
  have hab : a.weight ≤ b.weight := (removeMin_notAfter ha b hbq).weight_le
  have hbrest : ∀ e ∈ rest', b.weight ≤ e.weight := fun e he =>
    (removeMin_notAfter hb e ((removeMin_perm hb).subset (List.mem_cons_of_mem b he))).weight_le
  have hsib := PQ.merged_siblings_perm hperm
  refine ⟨?_, ?_, fun x hx e he => ?_⟩
  · exact PQ.insert_keyed (q := { entries := rest', seq := q.seq })
      (fun e he => h.keyed e (hmem e (by simp [he]))) _
  · refine (h.pairs.cons ?_ fun y hy => ?_).perm hsib.symm
    · exact hka ▸ hkb ▸ hab
    · exact hka ▸ h.below y hy a haq
  · have hxb : x.2 ≤ b.weight := by
      rcases List.mem_cons.mp (hsib.subset hx) with rfl | hx
      · exact hkb.ge
      · exact h.below x hx b hbq
    rcases List.mem_append.mp he with he | he
    · exact hxb.trans (hbrest e he)
    · rw [List.mem_singleton.mp he]
      exact hxb.trans (hkb ▸ Nat.le_add_left _ _)

/-- Before the first merge there are leaves only, hence no siblings (R121). -/
theorem initialQueue_layered (tab : CountTable) : (initialQueue tab).Layered := by
  obtain ⟨htrees, hkeyed⟩ := initialQueue_trees tab
  have hnone : (initialQueue tab).siblings = [] := by
    calc (initialQueue tab).siblings = ((initialQueue tab).entries.map PQEntry.tree).flatMap Tree.siblings := by
          rw [List.flatMap_map]; rfl
      _ = [] := by rw [htrees, List.flatMap_append, List.flatMap_map]; simp [countLeaf, Tree.siblings]
  refine ⟨hkeyed, ?_, ?_⟩
  · rw [hnone]
    exact ⟨by simp, .nil⟩
  · simp [hnone]

/-- The siblings in the tree of the counts are layered. -/
theorem buildTree_layered {tab : CountTable} {t : Tree} (h : buildTree tab = some t) : Layered t.siblings := by
  obtain ⟨q, e, hq, he, rfl⟩ := mergeLoop_invariant PQ.Layered.merged (initialQueue_layered tab) h
  simpa [PQ.siblings, he] using hq.pairs

theorem Tree.siblings_mem {t l r : Tree} {w : Nat} {p : Path} (h : t.nodeAt p = some (.internal w l r)) :
    (l.weight, r.weight) ∈ t.siblings := by
  induction t generalizing p with
  | leaf s w' => cases p <;> simp at h
  | internal w' l' r' ihl ihr =>
    rw [Tree.siblings, List.mem_cons, List.mem_append]
    match p with
    | [] => simp at h; simp [h]
    | false :: p => exact .inr (.inl (ihl h))
    | true :: p => exact .inr (.inr (ihr h))

/-- Two internal nodes at different paths are two entries of the list of siblings. -/
theorem Tree.apart_of_path_ne {t l r l' r' : Tree} {w w' : Nat} {p q : Path} (ht : t.siblings.Pairwise Apart)
    (hp : t.nodeAt p = some (.internal w l r)) (hq : t.nodeAt q = some (.internal w' l' r')) (hne : p ≠ q) :
    Apart (l.weight, r.weight) (l'.weight, r'.weight) := by
  induction t generalizing p q with
  | leaf s w => cases p <;> simp at hp
  | internal wt tl tr ihl ihr =>
    obtain ⟨hhead, htail⟩ := List.pairwise_cons.mp ht
    obtain ⟨hl, hr, hlr⟩ := List.pairwise_append.mp htail
    have hroot : ∀ {c : Bool} {p : Path} {u : Nat} {x y : Tree},
        (Tree.internal wt tl tr).nodeAt (c :: p) = some (.internal u x y) →
          Apart (tl.weight, tr.weight) (x.weight, y.weight) := by
      intro c p u x y h
      refine hhead _ (List.mem_append.mpr ?_)
      cases c
      · exact .inl (Tree.siblings_mem (p := p) h)
      · exact .inr (Tree.siblings_mem (p := p) h)
    match p, q with
    | [], [] => exact absurd rfl hne
    | [], c :: q => cases hp; exact hroot hq
    | c :: p, [] => cases hq; exact (hroot hp).symm
    | false :: p, false :: q => exact ihl hl hp hq (by simpa using hne)
    | true :: p, true :: q => exact ihr hr hp hq (by simpa using hne)
    | false :: p, true :: q => exact hlr _ (Tree.siblings_mem hp) _ (Tree.siblings_mem hq)
    | true :: p, false :: q => exact (hlr _ (Tree.siblings_mem hq) _ (Tree.siblings_mem hp)).symm

theorem Tree.weightsAdd_internal {w : Nat} {l r : Tree} :
    (Tree.internal w l r).weightsAdd = true ↔
      w = l.weight + r.weight ∧ l.weightsAdd = true ∧ r.weightsAdd = true := by
  simp [Tree.weightsAdd, and_assoc]

/-- Where weights add up, they do so below every node, and no node is heavier than the root. -/
theorem Tree.weightsAdd_nodeAt {t u : Tree} {p : Path} (ht : t.weightsAdd = true) (h : t.nodeAt p = some u) :
    u.weightsAdd = true ∧ u.weight ≤ t.weight := by
  induction p generalizing t with
  | nil =>
    obtain rfl : t = u := by simpa using h
    exact ⟨ht, le_rfl⟩
  | cons b p ih =>
    cases t with
    | leaf s w => simp at h
    | internal w l r =>
      obtain ⟨hw, hl, hr⟩ := Tree.weightsAdd_internal.mp ht
      rw [Tree.nodeAt_internal_cons] at h
      have hchild : (Tree.child b l r).weightsAdd = true ∧ (Tree.child b l r).weight ≤ w := by
        cases b
        · exact ⟨hl, hw ▸ Nat.le_add_right _ _⟩
        · exact ⟨hr, hw ▸ Nat.le_add_left _ _⟩
      obtain ⟨hu, hle⟩ := ih hchild.1 h
      exact ⟨hu, hle.trans hchild.2⟩

/-- A node other than the root is a child of the node one edge up. -/
theorem Tree.parent_of_nodeAt_snoc {t u : Tree} {p : Path} {b : Bool} (h : t.nodeAt (p ++ [b]) = some u) :
    ∃ w l r, t.nodeAt p = some (.internal w l r) ∧ u = Tree.child b l r := by
  rw [Tree.nodeAt_append] at h
  obtain ⟨v, hv, hu⟩ := Option.bind_eq_some_iff.mp h
  cases v with
  | leaf s w => simp at hu
  | internal w l r =>
    rw [Tree.nodeAt_internal_cons, Tree.nodeAt_nil] at hu
    exact ⟨w, l, r, hv, (Option.some.inj hu).symm⟩

/-- In ordered siblings, either child weighs between the two. -/
theorem Tree.child_weight_mem_Icc {l r : Tree} (h : l.weight ≤ r.weight) (b : Bool) :
    (Tree.child b l r).weight ∈ Set.Icc l.weight r.weight := by
  cases b
  · exact ⟨le_rfl, h⟩
  · exact ⟨h, le_rfl⟩

/-- Of two nodes of different weights under different parents, the heavier one has the strictly heavier parent: its
pair of siblings lies above the other pair. Going up edge by edge, the heavier node thus meets the root first. -/
theorem Tree.length_le_of_weight_lt {t x y : Tree} {p q : Path} (ha : t.weightsAdd = true)
    (hs : Layered t.siblings) (hp : t.nodeAt p = some x) (hq : t.nodeAt q = some y) (hw : y.weight < x.weight) :
    p.length ≤ q.length := by
  induction q using List.reverseRecOn generalizing p x y with
  | nil =>
    obtain rfl : t = y := by simpa using hq
    exact absurd (Tree.weightsAdd_nodeAt ha hp).2 (Nat.not_le.mpr hw)
  | append_singleton q c ih =>
    rcases List.eq_nil_or_concat' p with rfl | ⟨p, b, rfl⟩
    · exact Nat.zero_le _
    obtain ⟨wp, l, r, hp', rfl⟩ := Tree.parent_of_nodeAt_snoc hp
    obtain ⟨wq, l', r', hq', rfl⟩ := Tree.parent_of_nodeAt_snoc hq
    by_cases hpq : p = q
    · simp [hpq]
    have hx := Tree.child_weight_mem_Icc (hs.ordered _ (Tree.siblings_mem hp')) b
    have hy := Tree.child_weight_mem_Icc (hs.ordered _ (Tree.siblings_mem hq')) c
    have hapart := Tree.apart_of_path_ne hs.apart hp' hq' hpq
    obtain ⟨hwp, -⟩ := Tree.weightsAdd_internal.mp (Tree.weightsAdd_nodeAt ha hp').1
    obtain ⟨hwq, -⟩ := Tree.weightsAdd_internal.mp (Tree.weightsAdd_nodeAt ha hq').1
    have hparents : wq < wp := by
      simp only [Apart, Set.mem_Icc] at hapart hx hy
      omega
    simpa using ih hp' hq' hparents

/-- Settles O25: the tree of the counts has layered siblings and weights that add up. -/
theorem heavierLeafIsNotDeeper : Obligations.HeavierLeafIsNotDeeper := by
  intro c t p q a b wa wb ht hp hq hw
  obtain ⟨t', ht', -, ha, -⟩ := buildTree_some c
  obtain rfl : t = t' := Option.some.inj (ht.symm.trans ht')
  exact Tree.length_le_of_weight_lt ha (buildTree_layered ht) hp hq hw

end Sys2Proof.Machine

/-!
PROOFS. The code-table generator (spec/42_code_table_generator.md R141 to R144): the present codes are
the paths to the leaves, none a prefix of another, and they fill the code space.
-/

namespace Sys2Proof.Machine

/-! The table that `GENCODE` leaves -/

/-- Settles O26: `GENCODE` leaves the code table of the tree, whose entries are the paths to its leaves. -/
theorem gencodeRecordsPaths : Obligations.GencodeRecordsPaths := by
  intro s t hi ht hv
  exact ⟨codeTable t, execGencode_eq hi ht, codeTable_get hv⟩

theorem Tree.leaf_term_valid (w : Nat) : (Tree.leaf TERM w).Valid :=
  Tree.valid_of (List.nodup_singleton _) (fun _ h => by rw [List.mem_singleton.mp h]; decide) (List.mem_singleton_self _)

/-- Settles O27: in the singleton tree the empty path leads to the terminator, and no path to another symbol. -/
theorem singletonCodeIsEmpty : Obligations.SingletonCodeIsEmpty := by
  intro s w hi ht
  obtain ⟨c, hexec, hget⟩ := gencodeRecordsPaths s _ hi ht (Tree.leaf_term_valid w)
  have hcode (sym : Symbol) (p : Path) : c.get sym = some p ↔ p = [] ∧ sym = TERM :=
    (hget sym p).trans (Tree.leafAt_leaf _ _ _ _)
  refine ⟨c, hexec, (hcode _ _).mpr ⟨rfl, rfl⟩, fun sym hne => ?_⟩
  exact Option.eq_none_iff_forall_ne_some.mpr fun p hp => hne ((hcode sym p).mp hp).2

/-- Settles O28: codes are paths to leaves, and no leaf lies on the path to another. -/
theorem codesArePrefixFree : Obligations.CodesArePrefixFree := by
  intro t a b p q hv hp hq h
  exact (Tree.leafAt_prefix ((codeTable_get hv a p).mp hp) ((codeTable_get hv b q).mp hq) h).symm

/-! The paths to the leaves, and the present codes as an enumeration of them -/

/-- The paths to the leaves, in the order of `Tree.leaves`. -/
def Tree.leafPaths : Tree → List Path
  | .leaf _ _ => [[]]
  | .internal _ l r => l.leafPaths.map (false :: ·) ++ r.leafPaths.map (true :: ·)

theorem Tree.mem_leafPaths {t : Tree} {p : Path} : p ∈ t.leafPaths ↔ ∃ sym, t.leafAt p sym := by
  induction t generalizing p with
  | leaf s w => simp [Tree.leafPaths]
  | internal w l r ihl ihr =>
    rcases p with _ | ⟨_ | _, p⟩
    · simp [Tree.leafPaths, Tree.leafAt_internal]
    · simp [Tree.leafPaths, Tree.leafAt_internal, ihl]
    · simp [Tree.leafPaths, Tree.leafAt_internal, ihr]

theorem Tree.length_leafPaths (t : Tree) : t.leafPaths.length = t.leaves.length := by
  induction t with
  | leaf s w => rfl
  | internal w l r ihl ihr => simp [Tree.leafPaths, Tree.leaves, ihl, ihr]

theorem Tree.nodup_leafPaths (t : Tree) : t.leafPaths.Nodup := by
  induction t with
  | leaf s w => exact List.nodup_singleton _
  | internal w l r ihl ihr =>
    refine List.Nodup.append (ihl.map List.cons_injective) (ihr.map List.cons_injective) ?_
    simp [List.disjoint_left]

/-- The Kraft sum over the leaves of a full tree is 1, scaled by any power of 2 that makes each term whole: each
subtree takes one half. -/
theorem Tree.kraftSum_leafPaths {t : Tree} {n : Nat} (h : t.depth ≤ n) :
    (t.leafPaths.map fun p => 2 ^ (n - p.length)).sum = 2 ^ n := by
  induction t generalizing n with
  | leaf s w => simp [Tree.leafPaths]
  | internal w l r ihl ihr =>
    obtain ⟨m, rfl⟩ : ∃ m, n = m + 1 := Nat.exists_eq_add_one.mpr (Nat.lt_of_lt_of_le (Nat.succ_pos _) h)
    have hdepth : max l.depth r.depth ≤ m := Nat.le_of_succ_le_succ h
    obtain ⟨hl, hr⟩ := max_le_iff.mp hdepth
    simp only [Tree.leafPaths, List.map_append, List.map_map, Function.comp_def, List.length_cons, Nat.add_sub_add_right,
      List.sum_append, ihl hl, ihr hr]
    omega

/-- At least two leaves make the root an internal node, and no leaf is at the empty path (R144 (a)). -/
theorem Tree.leafAt_length_bounds {t : Tree} {p : Path} {sym : Symbol} (h : t.leafAt p sym) :
    p.length ≤ t.leaves.length - 1 ∧ (2 ≤ t.leaves.length → 1 ≤ p.length) := by
  constructor
  · obtain ⟨w, hw⟩ := h
    have hdepth : p.length ≤ t.depth := Nat.le_of_add_right_le (Tree.length_le_depth hw)
    rw [Tree.length_leaves, Nat.add_sub_cancel]
    exact hdepth.trans t.depth_le_internals
  · intro hk
    cases t with
    | leaf s w => simp [Tree.leaves] at hk
    | internal w l r =>
      obtain ⟨b, q, rfl, -⟩ := (Tree.leafAt_internal _ _ _ _ _).mp h
      simp

/-- The present codes, in the order of their symbols. -/
def CodeTable.present (c : CodeTable) : List BitSeq := (List.range 257).filterMap fun i => c.get (BitVec.ofNat 9 i)

theorem mem_present_codeTable {t : Tree} (hv : t.Valid) {p : BitSeq} :
    p ∈ (codeTable t).present ↔ ∃ sym, t.leafAt p sym := by
  simp only [CodeTable.present, List.mem_filterMap, List.mem_range, codeTable_get hv]
  constructor
  · rintro ⟨i, -, h⟩
    exact ⟨_, h⟩
  · rintro ⟨sym, h⟩
    have hsym : sym.toNat ≤ 256 := hv.2.2 sym ((t.mem_leaves sym).mpr ⟨p, h⟩)
    exact ⟨sym.toNat, Nat.lt_succ_of_le hsym, by rwa [BitVec.ofNat_toNat, BitVec.setWidth_eq]⟩

/-- Distinct symbols have distinct codes (R144 (c)). -/
theorem nodup_present_codeTable {t : Tree} (hv : t.Valid) : (codeTable t).present.Nodup := by
  refine List.pairwise_filterMap.mpr (List.nodup_range.imp_of_mem fun {i j} hi hj hij p hp q hq hpq => hij ?_)
  have hsym : BitVec.ofNat 9 i = BitVec.ofNat 9 j := (codesArePrefixFree t _ _ p q hv hp hq (hpq ▸ List.prefix_rfl)).1
  have hval : i % 2 ^ 9 = j % 2 ^ 9 := by simpa using congrArg BitVec.toNat hsym
  rw [List.mem_range] at hi hj
  omega

/-- `GENCODE` gives one code to each leaf. -/
theorem present_codeTable_perm {t : Tree} (hv : t.Valid) : (codeTable t).present.Perm t.leafPaths :=
  (List.perm_ext_iff_of_nodup (nodup_present_codeTable hv) t.nodup_leafPaths).mpr fun _ =>
    (mem_present_codeTable hv).trans Tree.mem_leafPaths.symm

/-- Settles O29: the present codes are the paths to the leaves, each once. -/
theorem codesFillTheCodeSpace : Obligations.CodesFillTheCodeSpace := by
  intro t hv
  have hperm : (codeTable t).present.Perm t.leafPaths := present_codeTable_perm hv
  refine ⟨hperm.length_eq.trans t.length_leafPaths, fun p hp => ?_, ?_⟩
  · obtain ⟨sym, h⟩ := (mem_present_codeTable hv).mp hp
    exact Tree.leafAt_length_bounds h
  · exact (hperm.map _).sum_eq.trans (Tree.kraftSum_leafPaths hv.depth_le)

end Sys2Proof.Machine

/-!
PROOFS. The header codec (spec/43_header_codec.md R150 to R159): a header determines its shape and its end, what the
writer appends the reader reads back, and every other source is malformed; then where a compressed stream can be cut
(spec/45_bitstream_decoder.md R191, R197).
-/

namespace Sys2Proof.Machine

variable {s s' : State}

/-! A header is parsed in one way -/

theorem be_toNat_injective {n : Nat} {u v : BitVec n} (h : be n u.toNat = be n v.toNat) : u = v :=
  BitVec.eq_of_toNat_eq (be_injective u.isLt v.isLt h)

/-- The first bit tells a leaf from an internal node, so both headers are parsed in the same way (R159). -/
theorem headerBits_append_inj {t t' : Tree} {z z' : BitSeq} (h : headerBits t ++ z = headerBits t' ++ z') :
    t.shape = t'.shape ∧ z = z' := by
  induction t generalizing t' z z' with
  | leaf sym w =>
    cases t' with
    | leaf sym' w' =>
      simp only [headerBits_leaf, List.cons_append, List.cons.injEq, true_and] at h
      obtain ⟨hsym, hz⟩ := List.append_inj h (by simp)
      exact ⟨by rw [Tree.shape, Tree.shape, be_toNat_injective hsym], hz⟩
    | internal w' l' r' => simp [headerBits_leaf, headerBits_internal] at h
  | internal w l r ihl ihr =>
    cases t' with
    | leaf sym' w' => simp [headerBits_leaf, headerBits_internal] at h
    | internal w' l' r' =>
      simp only [headerBits_internal, List.cons_append, List.cons.injEq, true_and, List.append_assoc] at h
      obtain ⟨hl, hrest⟩ := ihl h
      obtain ⟨hr, hz⟩ := ihr hrest
      exact ⟨by rw [Tree.shape, Tree.shape, hl, hr], hz⟩

/-- Settles O5: by induction on the shape, whose first token is the header's first bit. -/
theorem headerParseIsUnique : Obligations.HeaderParseIsUnique := fun _ _ _ _ => headerBits_append_inj

/-! `HDRWR` -/

/-- Settles O30: the writer's traversal appends the tree's tokens in pre-order. -/
theorem hdrwrAppendsHeader : Obligations.HdrwrAppendsHeader := fun _ _ hi ht => execHdrwr_eq hi ht

/-- Settles O6: the header has 10 bits for each of the k leaves and one for each of the k − 1 internal nodes. -/
theorem headerLengthIsElevenPerLeaf : Obligations.HeaderLengthIsElevenPerLeaf := by
  refine ⟨headerBits_length, fun s s' t ht h => ?_⟩
  obtain ⟨-, t', ht', rfl⟩ := execHdrwr_next h
  obtain rfl : t = t' := Option.some.inj (ht.symm.trans ht')
  rw [State.writeSeq_snk, List.length_append, headerBits_length]

/-! `HDRRD` -/

theorem Tree.Valid.readable {t : Tree} (hv : t.Valid) : Readable t [] 0 :=
  ⟨hv.2.1, hv.2.2, fun _ _ => List.not_mem_nil, (Nat.zero_add _).trans_le hv.internals_le⟩

theorem execHdrrd_idle (hi : s.idle) : execHdrrd s = performHdrrd s := guarded_idle hi rfl

/-- `HDRRD` on the header of a valid tree: the recursion reads it back within its depth, and the terminator is among
the symbols seen (R155, R158, R160). -/
theorem execHdrrd_headerBits {t : Tree} {z : BitSeq} (hi : s.idle) (hv : t.Valid)
    (h : s.src.rest = headerBits t ++ z) :
    execHdrrd s = .next ((s.setSrc (s.src.skip (headerBits t).length)).setRead t.shape) := by
  have hread := rd_headerBits t (ctx := ⟨s.src, [], 0⟩) hv.readable h (fuel := maxRecursion)
    (Nat.lt_succ_of_le hv.depth_le)
  have hterm : (t.leaves.reverse ++ []).contains TERM = true := by simpa using hv.term_mem
  rw [execHdrrd_idle hi, performHdrrd, hread]
  exact if_pos hterm

/-- Everything else makes `HDRRD` fail (R156, R157). -/
theorem execHdrrd_malformed (hi : s.idle) (h : ¬ ∃ (t : Tree) (z : BitSeq), t.Valid ∧ s.src.rest = headerBits t ++ z) :
    ∃ r : Src, r.bits = s.src.bits ∧ execHdrrd s = .next ((s.setSrc r).raise .invalidFormat) := by
  rw [execHdrrd_idle hi]
  rcases performHdrrd_cases s with ⟨t, z, hv, -, hz, -⟩ | ⟨r, hbits, -, he⟩
  · exact absurd ⟨t, z, hv, hz⟩ h
  · exact ⟨r, hbits, he⟩

/-- A `HDRRD` that leaves `ERR = 0` has read the header of a valid tree (R158). -/
theorem execHdrrd_succeeded (h : execHdrrd s = .next s') (he : s'.err = none) :
    ∃ t z, t.Valid ∧ t.shape = t ∧ s.src.rest = headerBits t ++ z ∧
      s' = (s.setSrc (s.src.skip (headerBits t).length)).setRead t := by
  obtain ⟨-, hread | ⟨r, -, -, rfl⟩⟩ := execHdrrd_next h
  · exact hread
  · cases he

/-- Settles O31: the recursion reads a valid tree's header back, and reads nothing else. -/
theorem hdrrdReadsHeader : Obligations.HdrrdReadsHeader := by
  refine ⟨fun s t z hi hv h => execHdrrd_headerBits hi hv h, fun s s' _ h he => ?_⟩
  obtain ⟨t, z, hv, hs, hz, rfl⟩ := execHdrrd_succeeded h he
  exact ⟨t, z, rfl, hv, hs, hz, rfl⟩

theorem State.raise_failed (k : ErrorKind) (s : State) : (s.raise k).Failed k := ⟨rfl, rfl, rfl, rfl, rfl, rfl⟩

/-- Settles O32: a reader that does not succeed raises `InvalidFormat` at the source that its last read left. -/
theorem hdrrdRejectsMalformedHeader : Obligations.HdrrdRejectsMalformedHeader := by
  intro s hi h
  obtain ⟨r, hbits, he⟩ := execHdrrd_malformed hi h
  exact ⟨_, he, State.raise_failed _ _, rfl, hbits, rfl, rfl⟩

/-- Settles O33: what was consumed is the header of the tree left in `TREE`, and the header is what is written. -/
theorem headerCopyIsExact : Obligations.HeaderCopyIsExact := by
  intro s s' hi h he
  obtain ⟨t, z, -, -, hz, rfl⟩ := execHdrrd_succeeded h he
  exact ⟨headerBits t, z, hz, Src.rest_skip_append hz, execHdrwr_eq hi rfl⟩

/-! Where a header or a payload can be cut -/

theorem take_append_of_length_le {a b : BitSeq} {n : Nat} (h : a.length ≤ n) :
    (a ++ b).take n = a ++ b.take (n - a.length) := by rw [List.take_append, List.take_of_length_le h]

/-- A header cut short begins with no header (R159). -/
theorem headerBits_append_ne_take {t t' : Tree} {z : BitSeq} {n : Nat} (hn : n < (headerBits t).length) :
    (headerBits t).take n ≠ headerBits t' ++ z := by
  intro h
  have hall : headerBits t ++ [] = headerBits t' ++ (z ++ (headerBits t).drop n) := by
    rw [← List.append_assoc, ← h, List.take_append_drop, List.append_nil]
  have hnil : (headerBits t).drop n = [] := (List.append_eq_nil_iff.mp (headerBits_append_inj hall).2.symm).2
  exact absurd (List.drop_eq_nil_iff.mp hnil) (Nat.not_le.mpr hn)

theorem walk_shape (t : Tree) (p : Path) (tab : CodeTable) : walk t.shape p tab = walk t p tab := by
  induction t generalizing p tab with
  | leaf sym w => rfl
  | internal w l r ihl ihr => rw [Tree.shape, walk, walk, ihl, ihr]

/-- The codes depend on the shape only (R141). -/
theorem codeTable_shape (t : Tree) : codeTable t.shape = codeTable t := walk_shape t [] _

/-- Every node on the way to another is internal (R14). -/
theorem Tree.nodeAt_take {t u : Tree} {p : Path} {n : Nat} (h : t.nodeAt p = some u) (hn : n < p.length) :
    ∃ w l r, t.nodeAt (p.take n) = some (.internal w l r) := by
  rw [← List.take_append_drop n p, Tree.nodeAt_append, List.drop_eq_getElem_cons hn] at h
  obtain ⟨v, hv, hu⟩ := Option.bind_eq_some_iff.mp h
  cases v with
  | leaf sym w => cases hu
  | internal w l r => exact ⟨w, l, r, hv⟩

/-- A symbol that has a code stands at the leaf to which its code leads (R141). -/
theorem exists_code_leaf {t : Tree} (hv : t.Valid) {sym : Symbol} (h : ((codeTable t).get sym).isSome = true) :
    ∃ c w, (codeTable t).get sym = some c ∧ t.nodeAt c = some (.leaf sym w) := by
  obtain ⟨c, hc⟩ := Option.isSome_iff_exists.mp h
  obtain ⟨w, hw⟩ := (codeTable_get hv sym c).mp hc
  exact ⟨c, w, hc, hw⟩

/-- A payload cut before the end of the terminator's code is the codes of some bytes, and then the way to an internal
node (R197). -/
theorem payload_take {t : Tree} (hv : t.Valid) {l : List Byte} (ha : allCoded (codeTable t) l) {n : Nat}
    (hn : n < (payloadBits (codeTable t) l ++ terminatorBits (codeTable t)).length) :
    ∃ (sent : List Byte) (p : Path), allCoded (codeTable t) sent ∧
      (payloadBits (codeTable t) l ++ terminatorBits (codeTable t)).take n = payloadBits (codeTable t) sent ++ p ∧
      ∃ w left right, t.nodeAt p = some (.internal w left right) := by
  induction l generalizing n with
  | nil =>
    obtain ⟨e, w, he, hw⟩ := exists_code_leaf hv ((codeTable_isSome hv TERM).mpr hv.term_mem)
    rw [payloadBits_nil, List.nil_append, terminatorBits, he, Option.getD_some] at hn ⊢
    exact ⟨[], _, ha, rfl, Tree.nodeAt_take hw hn⟩
  | cons b l ih =>
    obtain ⟨hb, hl⟩ := List.forall_mem_cons.mp ha
    obtain ⟨c, w, hc, hw⟩ := exists_code_leaf hv hb
    rw [payloadBits_cons, hc, Option.getD_some, List.append_assoc] at hn ⊢
    rcases Nat.lt_or_ge n c.length with hlt | hge
    · refine ⟨[], c.take n, by simp [allCoded], ?_, Tree.nodeAt_take hw hlt⟩
      rw [List.take_append_of_le_length hlt.le, payloadBits_nil, List.nil_append]
    · rw [List.length_append] at hn
      obtain ⟨sent, p, hsent, htake, hp⟩ := ih hl (n := n - c.length) (by omega)
      refine ⟨b :: sent, p, List.forall_mem_cons.mpr ⟨hb, hsent⟩, ?_, hp⟩
      rw [take_append_of_length_le hge, htake, payloadBits_cons, hc, Option.getD_some, List.append_assoc]

/-! `DECPAY` on a payload that is cut -/

theorem State.emitted_byteSymbol (hc : s.cur = []) (b : Byte) :
    s.emitted (byteSymbol b) = s.writeSeq (be 8 b.toNat) := by
  rw [State.emitted, State.setCur_self (s := s.writeBits 8 _) hc, State.writeBits, byteSymbol_toNat]

/-- The loop on the codes of some bytes writes those bytes and goes on from the root (R194). -/
theorem decLoop_payload {t : Tree} (hv : t.Valid) (hn : t.isLeaf = false) {l : List Byte}
    (ha : allCoded (codeTable t) l) {z : BitSeq} {fuel : Nat} (ht : s.tree = some t) (hc : s.cur = [])
    (h : s.src.rest = payloadBits (codeTable t) l ++ z) :
    decLoop (fuel + (payloadBits (codeTable t) l).length) s =
      decLoop fuel ((s.setSrc (s.src.skip (payloadBits (codeTable t) l).length)).writeSeq (bytesToBits l)) := by
  induction l generalizing s with
  | nil => simp
  | cons b l ih =>
    obtain ⟨hb, hl⟩ := List.forall_mem_cons.mp ha
    obtain ⟨c, w, hcode, hw⟩ := exists_code_leaf hv hb
    rw [payloadBits_cons, hcode, Option.getD_some] at h ⊢
    rw [List.append_assoc] at h
    have hbyte : ∀ k, decLoop (k + c.length) s =
        decLoop k ((s.setSrc (s.src.skip c.length)).writeSeq (be 8 b.toNat)) := fun k => by
      rw [decLoop_leaf ht (by rw [hc, Tree.nodeAt_nil]) hn hw h, if_neg (byteSymbol_ne_term b),
        State.emitted_byteSymbol (s := s.setSrc (s.src.skip c.length)) hc]
    have hbytes := ih (s := (s.setSrc (s.src.skip c.length)).writeSeq (be 8 b.toNat)) hl ht hc
      (Src.rest_skip_append h)
    rw [List.length_append, Nat.add_comm c.length, ← Nat.add_assoc, hbyte, hbytes, Nat.add_comm _ c.length,
      ← Src.skip_skip, bytesToBits_cons, ← State.writeSeq_writeSeq]
    rfl

theorem execDecpay_idle {t : Tree} (hi : s.idle) (ht : s.tree = some t) : execDecpay s = performDecpay s :=
  guarded_idle (i := .decpay) hi (Option.isSome_of_eq_some ht)

/-- `DECPAY` on a source that ends before the terminator's leaf (R197). -/
theorem execDecpay_cut {t : Tree} (hi : s.idle) (ht : s.tree = some t) (hv : t.Valid) {l : List Byte}
    (ha : allCoded (codeTable t) l) {p : Path} {w : Nat} {left right : Tree}
    (hp : t.nodeAt p = some (.internal w left right)) (h : s.src.rest = payloadBits (codeTable t) l ++ p) :
    execDecpay s = .next
      (((s.setSrc (s.src.skip s.src.rest.length)).writeSeq (bytesToBits l)).raise .truncatedInput) := by
  cases t with
  | leaf sym w' => cases p <;> simp at hp
  | internal w' lt rt =>
    have hfuel : s.src.rest.length + 1 = (p.length + 1) + (payloadBits (codeTable (.internal w' lt rt)) l).length := by
      rw [h, List.length_append]
      omega
    rw [execDecpay_idle hi ht, performDecpay_internal ht, hfuel,
      decLoop_payload (s := s.setCur []) hv rfl ha ht rfl h, h, List.length_append, ← Src.skip_skip]
    exact decLoop_cut ht rfl hp (Src.rest_skip_append h) (Nat.lt_succ_self _)

/-! `DECOMPRESS` up to the field in which it stops -/

theorem execRdmagic_idle (hi : s.idle) : execRdmagic s = performRdmagic s := guarded_idle hi rfl

theorem execRdmagic_magic {z : BitSeq} (hi : s.idle) (h : s.src.rest = be 32 Config.magicTree.toNat ++ z) :
    execRdmagic s = .next (s.setSrc (s.src.skip 32)) := by
  have hmagic : BitVec.ofNat 32 (Config.magicTree.toNat % 2 ^ 32) = Config.magicTree := by
    rw [Nat.mod_eq_of_lt Config.magicTree.isLt, BitVec.ofNat_toNat, BitVec.setWidth_eq]
  rw [execRdmagic_idle hi, performRdmagic, Src.readBits_be h]
  exact congrArg Host.Outcome.next (if_pos hmagic)

theorem execRdmagic_short (hi : s.idle) (h : s.src.rest.length < 32) :
    execRdmagic s = .next (s.raise .invalidFormat) := by
  rw [execRdmagic_idle hi, performRdmagic, Src.readBits_of_lt h]
  rfl

/-- The block once `DECOMPRESS` has read the magic (R215). -/
def State.afterMagic (s : State) : State := s.clearBlock.setSrc (s.src.skip 32)

/-- The block once `DECOMPRESS` has read the magic and the header of `t` (R215). -/
def State.afterHeader (t : Tree) (s : State) : State :=
  (s.afterMagic.setSrc (s.afterMagic.src.skip (headerBits t).length)).setRead t.shape

theorem State.afterMagic_idle (s : State) : s.afterMagic.idle := ⟨rfl, rfl⟩

theorem State.afterHeader_idle (t : Tree) (s : State) : (s.afterHeader t).idle := ⟨rfl, rfl⟩

theorem State.afterMagic_rest {x : BitSeq} (h : s.src.rest = be 32 Config.magicTree.toNat ++ x) :
    s.afterMagic.src.rest = x := by
  have := Src.rest_skip_append h
  rwa [be_length] at this

theorem State.afterHeader_rest {t : Tree} {x : BitSeq}
    (h : s.src.rest = be 32 Config.magicTree.toNat ++ (headerBits t ++ x)) : (s.afterHeader t).src.rest = x :=
  Src.rest_skip_append (State.afterMagic_rest h)

section Decompress

variable (hj : s.job = none)
include hj

theorem execDecompress_eq : execDecompress s =
    thenDo (thenDo (thenDo (execRdmagic s.clearBlock) execHdrrd) execDecpay) discardCall := by
  rw [execDecompress, guarded_ready hj rfl, performDecompress, execClr_eq hj, thenDo_ok rfl]

theorem execDecompress_afterMagic {x : BitSeq} (h : s.src.rest = be 32 Config.magicTree.toNat ++ x) :
    execDecompress s = thenDo (thenDo (execHdrrd s.afterMagic) execDecpay) discardCall := by
  rw [execDecompress_eq hj, execRdmagic_magic (s := s.clearBlock) ⟨rfl, rfl⟩ h, thenDo_ok rfl]
  rfl

theorem execDecompress_afterHeader {t : Tree} {x : BitSeq} (hv : t.Valid)
    (h : s.src.rest = be 32 Config.magicTree.toNat ++ (headerBits t ++ x)) :
    execDecompress s = thenDo (execDecpay (s.afterHeader t)) discardCall := by
  rw [execDecompress_afterMagic hj h, execHdrrd_headerBits s.afterMagic_idle hv (State.afterMagic_rest h),
    thenDo_ok rfl]
  rfl

theorem execDecompress_cutMagic (h : s.src.rest.length < 32) :
    ∃ s', execDecompress s = .next s' ∧ s'.Failed .invalidFormat := by
  rw [execDecompress_eq hj, execRdmagic_short (s := s.clearBlock) ⟨rfl, rfl⟩ h, thenDo_failed rfl, thenDo_failed rfl,
    thenDo_failed rfl]
  exact ⟨_, rfl, State.raise_failed _ _⟩

theorem execDecompress_cutHeader {t : Tree} {n : Nat} (hn : n < (headerBits t).length)
    (h : s.src.rest = be 32 Config.magicTree.toNat ++ (headerBits t).take n) :
    ∃ s', execDecompress s = .next s' ∧ s'.Failed .invalidFormat := by
  have hbad : ¬ ∃ (t' : Tree) (z : BitSeq), t'.Valid ∧ s.afterMagic.src.rest = headerBits t' ++ z := by
    rintro ⟨t', z, -, hz⟩
    exact headerBits_append_ne_take hn ((State.afterMagic_rest h).symm.trans hz)
  obtain ⟨r, -, hread⟩ := execHdrrd_malformed s.afterMagic_idle hbad
  rw [execDecompress_afterMagic hj h, hread, thenDo_failed rfl, thenDo_failed rfl]
  exact ⟨_, rfl, State.raise_failed _ _⟩

theorem execDecompress_cutPayload {t : Tree} {l : List Byte} {n : Nat} (hv : t.Valid) (ha : allCoded (codeTable t) l)
    (hn : n < (payloadBits (codeTable t) l ++ terminatorBits (codeTable t)).length)
    (h : s.src.rest = be 32 Config.magicTree.toNat ++
      (headerBits t ++ (payloadBits (codeTable t) l ++ terminatorBits (codeTable t)).take n)) :
    ∃ s', execDecompress s = .next s' ∧ s'.Failed .truncatedInput := by
  rw [← codeTable_shape t] at ha hn h
  obtain ⟨sent, p, hsent, htake, w, left, right, hp⟩ := payload_take (Tree.shape_valid.mpr hv) ha hn
  have hdec := execDecpay_cut (s.afterHeader_idle t) rfl (Tree.shape_valid.mpr hv) hsent hp
    ((State.afterHeader_rest h).trans htake)
  rw [execDecompress_afterHeader hj hv h, hdec, thenDo_failed rfl]
  exact ⟨_, rfl, State.raise_failed _ _⟩

end Decompress

theorem streamBits_eq (t : Tree) (l : List Byte) : streamBits t l = be 32 Config.magicTree.toNat ++
    (headerBits t ++ (payloadBits (codeTable t) l ++ terminatorBits (codeTable t))) := by
  simp only [streamBits, List.append_assoc]

/-- Settles O51: by the field in which the cut falls, the magic, the header, or the payload with the terminator. -/
theorem cutStreamIsReported : Obligations.CutStreamIsReported := by
  intro l t n u _ ht hn hj hu
  have hrest : u.src.rest = (streamBits t l).take n := by rw [hu]; rfl
  rw [streamBits_eq] at hrest hn
  simp only [List.length_append, be_length] at hn
  rcases Nat.lt_or_ge n 32 with hmagic | hmagic
  · rw [if_pos (by omega)]
    exact execDecompress_cutMagic hj (by simp [hrest, hmagic])
  rw [take_append_of_length_le (by rwa [be_length]), be_length] at hrest
  rcases Nat.lt_or_ge (n - 32) (headerBits t).length with hheader | hheader
  · rw [if_pos (by omega)]
    rw [List.take_append_of_le_length hheader.le] at hrest
    exact execDecompress_cutHeader hj hheader hrest
  · rw [if_neg (by omega)]
    rw [take_append_of_length_le hheader] at hrest
    exact execDecompress_cutPayload hj (buildTree_valid ht).1 (allCoded_buildTree ht)
      (by rw [List.length_append]; omega) hrest

end Sys2Proof.Machine

/-!
PROOFS. The bitstream encoder (spec/44_bitstream_encoder.md R170 to R178): what `WRMAGIC`, `ENCPAY` and `ENCODE` write
or refuse, and that `DECOMPRESS` gives back the bytes of every stream that they make.
-/

namespace Sys2Proof.Machine

variable {s : State}

/-! `WRMAGIC`, `ENCPAY` and `ENCODE` -/

/-- Settles O35: the command is accepted in every idle block, and its one write is the magic. -/
theorem wrmagicAppendsMagic : Obligations.WrmagicAppendsMagic := fun _ hi => execWrmagic_eq hi

theorem execEncpay_idle {t : Tree} (hi : s.idle) (ht : s.tree = some t) (hcv : s.codeValid = true) :
    execEncpay s = performEncpay s :=
  guarded_idle (i := .encpay) hi (treeValid_and_codeValid ht hcv)

/-- With a tree that is no singleton `ENCPAY` is the loop, with more turns than bytes (R172, R265). -/
theorem execEncpay_internal {w : Nat} {left right : Tree} {l : List Byte} {tail : BitSeq} (hi : s.idle)
    (ht : s.tree = some (.internal w left right)) (hcv : s.codeValid = true)
    (hr : s.src.rest = bytesToBits l ++ tail) (htail : tail.length < 8) :
    execEncpay s = encLoop (l.length + 1) s := by
  rw [execEncpay_idle hi ht hcv, performEncpay_internal ht, Src.bytesLeft_eq hr htail]

/-- Settles O36: the loop writes the code of each byte, and at the end of the bytes the terminator's. -/
theorem encpayWritesCodes : Obligations.EncpayWritesCodes := by
  intro s w l r bytes e hi hcv ht ⟨tail, hr, htail⟩ ha he
  rw [List.append_assoc]
  exact (execEncpay_internal hi ht hcv hr htail).trans
    (encLoop_coded bytes hi.2 hr htail ha he (Nat.lt_succ_self _))

/-- Settles O37: the one read of `ENCPAY` finds the end of the source, or a byte. -/
theorem encpayOnSingletonTree : Obligations.EncpayOnSingletonTree := by
  intro s sym w bytes hi hcv ht ⟨tail, hr, htail⟩
  have hsingle : exec .encpay s = encSingleton s := (execEncpay_idle hi ht hcv).trans (performEncpay_leaf ht)
  rw [hsingle, encSingleton]
  cases bytes with
  | nil =>
    rw [readByte_end (by rwa [hr])]
    rfl
  | cons b bytes =>
    rw [bytesToBits_cons, List.append_assoc] at hr
    rw [readByte_cons hr]
    rfl

/-- Settles O38: the loop refuses at the first byte that has no code. -/
theorem encpayRefusesByteWithoutCode : Obligations.EncpayRefusesByteWithoutCode := by
  intro s w l r bytes hi hcv ht ⟨tail, hr, htail⟩ ha
  exact (execEncpay_internal hi ht hcv hr htail).trans
    (encLoop_uncoded bytes hi.2 hr htail (.inl ha) (Nat.lt_succ_self _))

/-- Settles O39: `WRMAGIC`, `HDRWR` and `ENCPAY` write the four fields of the stream one after another. -/
theorem encodeWritesWholeStream : Obligations.EncodeWritesWholeStream :=
  fun _ _ _ hi hcv ht hv hc hl ha => execEncode_coded hi ht hv hc hl (hc ▸ ha) hcv

/-! The decoder on the stream of a tree and some bytes -/

theorem performDecpay_loop {t : Tree} (ht : s.tree = some t) (hn : t.isLeaf = false) :
    performDecpay s = decLoop (s.src.rest.length + 1) (s.setCur []) := by
  cases t with
  | leaf sym w => cases hn
  | internal w left right => exact performDecpay_internal ht

section Decoded

variable {t : Tree} {l : List Byte} {z : BitSeq} (hv : t.Valid) (ha : allCoded (codeTable t) l)
include hv ha

/-- `DECPAY` on a payload and its terminator, with a tree that is no singleton (R194). -/
theorem execDecpay_payload (hi : s.idle) (ht : s.tree = some t) (hn : t.isLeaf = false)
    (h : s.src.rest = payloadBits (codeTable t) l ++ terminatorBits (codeTable t) ++ z) :
    execDecpay s = .next
      (((s.setSrc (s.src.skip (payloadBits (codeTable t) l ++ terminatorBits (codeTable t)).length)).writeSeq
        (bytesToBits l)).setCur []) := by
  obtain ⟨e, w, he, hw⟩ := exists_code_leaf hv ((codeTable_isSome hv TERM).mpr hv.term_mem)
  rw [terminatorBits, he, Option.getD_some] at h ⊢
  have hfuel : s.src.rest.length + 1 = z.length + 1 + e.length + (payloadBits (codeTable t) l).length := by
    rw [h, List.length_append, List.length_append]
    omega
  rw [List.append_assoc] at h
  have hterm := decLoop_leaf (fuel := z.length + 1)
    (s := ((s.setCur []).setSrc (s.src.skip (payloadBits (codeTable t) l).length)).writeSeq (bytesToBits l))
    ht (Tree.nodeAt_nil t) hn hw (Src.rest_skip_append h)
  rw [execDecpay_idle hi ht, performDecpay_loop ht hn, hfuel,
    decLoop_payload (s := s.setCur []) hv hn ha ht rfl h, List.length_append, ← Src.skip_skip]
  exact hterm.trans (if_pos rfl)

/-- `DECPAY` from the root of any valid tree: with a singleton there is nothing to read (R194, R195). -/
theorem execDecpay_coded (hi : s.idle) (ht : s.tree = some t) (hc : s.cur = [])
    (h : s.src.rest = payloadBits (codeTable t) l ++ terminatorBits (codeTable t) ++ z) :
    execDecpay s = .next
      ((s.setSrc (s.src.skip (payloadBits (codeTable t) l ++ terminatorBits (codeTable t)).length)).writeSeq
        (bytesToBits l)) := by
  cases t with
  | leaf sym w =>
    obtain rfl := eq_nil_of_allCoded_leaf hv ha
    simp [execDecpay_idle hi ht, performDecpay_leaf ht, terminatorBits_leaf hv]
  | internal w left right =>
    rw [execDecpay_payload hv ha hi ht rfl h]
    exact congrArg Host.Outcome.next (State.setCur_self hc)

/-- `DECOMPRESS` on the stream of any valid tree, whatever follows it: the bytes are written, the source is just past
the terminator's code and the block's state is discarded (R178, R215). -/
theorem execDecompress_streamBits (hj : s.job = none) (h : s.src.rest = streamBits t l ++ z) :
    execDecompress s =
      .next ((s.setSrc (s.src.skip (streamBits t l).length)).writeSeq (bytesToBits l)).clearBlock := by
  rw [streamBits_eq, List.append_assoc, List.append_assoc, ← codeTable_shape t] at h
  rw [← codeTable_shape t] at ha
  have hdec := execDecpay_coded (Tree.shape_valid.mpr hv) ha (s.afterHeader_idle t) rfl rfl (State.afterHeader_rest h)
  have hsrc : s.src.skip (streamBits t l).length = (s.afterHeader t).src.skip
      (payloadBits (codeTable t.shape) l ++ terminatorBits (codeTable t.shape)).length := by
    rw [streamBits_eq, codeTable_shape, List.length_append, be_length, List.length_append, ← Src.skip_skip,
      ← Src.skip_skip]
    rfl
  rw [execDecompress_afterHeader hj hv h, hdec, thenDo_ok (s := State.writeSeq _ _) rfl, hsrc]
  rfl

end Decoded

/-- Settles O50: `COMPRESS` writes the stream of the tree it builds, and `DECOMPRESS` reads the stream of any valid
tree. -/
theorem compressThenDecompress : Obligations.CompressThenDecompress := by
  refine ⟨fun s l hj hsrc hsnk hm => ?_, fun u t l z hj hv ha h => execDecompress_streamBits hv ha hj (z := z) h⟩
  obtain ⟨t, ht, -⟩ := buildTree_some (countsOf l)
  have hpos : s.src.pos = 0 := by rw [hsrc]
  have hbytes : s.src.holdsBytes l := ⟨[], by rw [hsrc, List.append_nil]; rfl, by decide⟩
  refine ⟨_, execCompress_eq hj hbytes hm ht hpos, fun u z hu husrc husnk => ?_⟩
  rw [State.clearBlock_snk, State.writeSeq_snk, State.setSrc_snk, hsnk, List.nil_append] at husrc ⊢
  have hrest : u.src.rest = streamBits t l ++ z := by rw [husrc]; rfl
  refine (execDecompress_streamBits (buildTree_valid ht).1 (allCoded_buildTree ht) hu hrest).trans ?_
  rw [State.clearBlock_eq]
  simp [husrc, husnk, Src.skip]

end Sys2Proof.Machine

/-!
PROOFS. The bitstream decoder (spec/45_bitstream_decoder.md R190 to R197): what `RDMAGIC`, one decode step and `DECPAY`
do, and that `DECOMPRESS` reports a source that does not begin with the magic.
-/

namespace Sys2Proof.Machine

variable {s s' : State}

/-! `RDMAGIC`, and `DECOMPRESS` of a source without the magic -/

/-- `RDMAGIC` on 32 bits that are not the magic: they are consumed (R190, R191). -/
theorem execRdmagic_other {m : BitVec 32} {z : BitSeq} (hi : s.idle) (h : s.src.rest = be 32 m.toNat ++ z)
    (hm : m ≠ Config.magicTree) : execRdmagic s = .next ((s.setSrc (s.src.skip 32)).raise .invalidFormat) := by
  have hread : BitVec.ofNat 32 (m.toNat % 2 ^ 32) = m := by
    rw [Nat.mod_eq_of_lt m.isLt, BitVec.ofNat_toNat, BitVec.setWidth_eq]
  rw [execRdmagic_idle hi, performRdmagic, Src.readBits_be h]
  exact congrArg Host.Outcome.next (if_neg (hread.symm ▸ hm))

/-- Settles O40: the read gives the magic, another value, or the end of the source. -/
theorem rdmagicChecksLeadingBits : Obligations.RdmagicChecksLeadingBits := fun _ hi =>
  ⟨fun _ h => execRdmagic_magic hi h, fun _ _ h hm => execRdmagic_other hi h hm, fun h => execRdmagic_short hi h⟩

/-- `RDMAGIC` fails on every source that does not begin with the magic (R190, R191). -/
theorem execRdmagic_corrupt (hi : s.idle) (h : s.src.rest.take 32 ≠ be 32 Config.magicTree.toNat) :
    ∃ n, execRdmagic s = .next ((s.setSrc (s.src.skip n)).raise .invalidFormat) := by
  rcases Nat.lt_or_ge s.src.rest.length 32 with hshort | hlong
  · exact ⟨0, execRdmagic_short hi hshort⟩
  · have hm : BitVec.ofNat 32 (val (s.src.rest.take 32)) ≠ Config.magicTree := fun hm =>
      h (by rw [← hm, be_toNat_ofNat_val _ (List.length_take_of_le hlong)])
    exact ⟨32, execRdmagic_other hi (be_field_append_drop hlong).symm hm⟩

/-- The failure of `RDMAGIC` ends the sequence (R216). -/
theorem execDecompress_corrupt (hj : s.job = none) (h : s.src.rest.take 32 ≠ be 32 Config.magicTree.toNat) :
    ∃ n, execDecompress s = .next ((s.clearBlock.setSrc (s.src.skip n)).raise .invalidFormat) := by
  obtain ⟨n, hread⟩ := execRdmagic_corrupt (s := s.clearBlock) ⟨rfl, rfl⟩ h
  rw [execDecompress_eq hj, hread, thenDo_failed rfl, thenDo_failed rfl, thenDo_failed rfl]
  exact ⟨n, rfl⟩

/-- Settles O52: the sequence ends in the failure of `RDMAGIC`, before anything is written. -/
theorem corruptMagicIsReported : Obligations.CorruptMagicIsReported := by
  intro s hj h
  obtain ⟨n, hfail⟩ := execDecompress_corrupt hj h
  exact ⟨_, hfail, State.raise_failed _ _, rfl, rfl, rfl⟩

/-! One decode step -/

/-- Settles O41: a step with a bit left arrives at the child that the bit chooses. -/
theorem decstepWalksOneBit : Obligations.DecstepWalksOneBit := by
  intro s t l r w ht hc
  refine ⟨fun b z sym w' hr hchild => ?_, fun b z w' l' r' hr hchild => ?_, decStep_nil⟩
  · rw [decStep_cons ht hc hr, Tree.child_eq_ite, hchild]
    rfl
  · rw [decStep_cons ht hc hr, Tree.child_eq_ite, hchild]
    rfl

/-! `DECPAY` -/

/-- Settles O42: the loop writes the byte of each code, and the terminator's code ends it. -/
theorem decpayDecodesBytes : Obligations.DecpayDecodesBytes := by
  intro s w l r bytes e z hi ht hv ha he h
  have hterm : terminatorBits (codeTable (.internal w l r)) = e := by rw [terminatorBits, he, Option.getD_some]
  subst hterm
  exact execDecpay_payload hv ha hi ht rfl h

/-- Settles O44: the loop writes the byte of each code, and reads the rest of the bits without reaching a leaf. -/
theorem decpayReportsTruncation : Obligations.DecpayReportsTruncation :=
  fun _ _ _ _ _ _ hi ht hv ha ⟨_, _, _, hp⟩ h => execDecpay_cut hi ht hv ha hp h

/-- Settles O43: a singleton tree is tested before anything is read. -/
theorem decpayOnSingletonTree : Obligations.DecpayOnSingletonTree :=
  fun _ _ _ hi ht => (execDecpay_idle hi ht).trans (performDecpay_leaf ht)

/-! `DECPAY` with more bits at the end of the source -/

/-- The state with the bits `z` after those of the source. -/
def State.withTrailing (z : BitSeq) (s : State) : State := s.setSrc { s.src with bits := s.src.bits ++ z }

theorem State.withTrailing_rest (h : s.src.rest ≠ []) (z : BitSeq) :
    (s.withTrailing z).src.rest = s.src.rest ++ z :=
  List.drop_append_of_le_length (Nat.le_of_not_le fun hle => h (List.drop_of_length_le hle))

/-- A loop that reaches the terminator from the root takes the same codes when more bits follow (R196). -/
theorem decLoop_withTrailing {fuel fuel' w : Nat} {l r : Tree} (z : BitSeq) (ht : s.tree = some (.internal w l r))
    (hc : s.cur = []) (hf : s.src.rest.length < fuel) (hle : fuel ≤ fuel') (h : decLoop fuel s = .next s')
    (he : s'.err = none) : decLoop fuel' (s.withTrailing z) = .next (s'.withTrailing z) := by
  induction fuel using Nat.strong_induction_on generalizing s fuel' with
  | _ fuel ih =>
    have hroot : (Tree.internal w l r).nodeAt s.cur = some (.internal w l r) := by rw [hc, Tree.nodeAt_nil]
    rcases Tree.walk_cases (.internal w l r) s.src.rest with ⟨p, x, sym, w', hrest, hp⟩ | ⟨w', l', r', hx⟩
    · have hpos : 0 < p.length := List.length_pos_iff.mpr (by rintro rfl; simp at hp)
      have hlen : s.src.rest.length = p.length + x.length := by rw [hrest, List.length_append]
      obtain ⟨f, rfl⟩ := Nat.exists_eq_add_of_le' (show p.length ≤ fuel by omega)
      obtain ⟨f', rfl⟩ := Nat.exists_eq_add_of_le' (show p.length ≤ fuel' by omega)
      have hrest' : (s.withTrailing z).src.rest = p ++ (x ++ z) := by
        rw [State.withTrailing_rest (List.length_pos_iff.mp (by omega)), hrest, List.append_assoc]
      rw [decLoop_leaf ht hroot rfl hp hrest] at h
      rw [decLoop_leaf (s := s.withTrailing z) ht hroot rfl hp hrest']
      split_ifs at h ⊢ with hsym
      · cases h
        rfl
      · have hx : ((s.setSrc (s.src.skip p.length)).emitted sym).src.rest = x := Src.rest_skip_append hrest
        exact ih f (by omega) (s := (s.setSrc (s.src.skip p.length)).emitted sym) ht rfl (by rw [hx]; omega) (by omega) h
    · rw [decLoop_cut ht hroot hx rfl hf] at h
      cases h
      cases he

theorem execDecpay_withTrailing (z : BitSeq) (h : execDecpay s = .next s') (he : s'.err = none) :
    execDecpay (s.withTrailing z) = .next (s'.withTrailing z) := by
  obtain ⟨hi, hn, -⟩ := execDecpay_next h
  obtain ⟨t, ht⟩ := Option.isSome_iff_exists.mp hn
  rw [execDecpay_idle hi ht] at h
  rw [execDecpay_idle (s := s.withTrailing z) hi ht]
  cases t with
  | leaf sym w =>
    rw [performDecpay_leaf ht] at h
    rw [performDecpay_leaf (s := s.withTrailing z) ht]
    cases h
    rfl
  | internal w l r =>
    rw [performDecpay_internal ht] at h
    rw [performDecpay_internal (s := s.withTrailing z) ht]
    have hle : s.src.rest.length ≤ (s.withTrailing z).src.rest.length := by
      rw [Src.rest_length, Src.rest_length]
      exact Nat.sub_le_sub_right (List.length_append ▸ Nat.le_add_right _ _) _
    exact decLoop_withTrailing z (s := s.setCur []) ht rfl (Nat.lt_succ_self _) (Nat.succ_le_succ hle) h he

/-- Settles O45: `DECPAY` takes the same codes up to the terminator's, and leaves the source's bits as they are. -/
theorem decpayIgnoresTrailingBits : Obligations.DecpayIgnoresTrailingBits := by
  intro s s' z h he
  have hbits : s'.src.bits = s.src.bits := (execDecpay_extends h).1
  refine (execDecpay_withTrailing z h he).trans ?_
  rw [State.withTrailing, hbits]
  rfl

end Sys2Proof.Machine

/-!
PROOFS. The sequencing operations (spec/46_sequencing_ops.md R210 to R217): `REWIND`, the commutation of `HDRWR` and
`GENCODE`, what `COMPRESS` writes and what that depends on, and the ways in which `DECOMPRESS` can end.
-/

namespace Sys2Proof.Machine

variable {s s' : State}

/-! `REWIND`, and `HDRWR` with `GENCODE` -/

/-- Settles O46: `REWIND` is accepted whatever `ERR` holds, and moves the position only. -/
theorem rewindReturnsToStart : Obligations.RewindReturnsToStart := fun _ hj => execRewind_eq hj

/-- `HDRWR` and `GENCODE` have the same preconditions (R212), so neither is accepted where the other is not. Both read
the tree; the one writes the sink only, the other the code table only (R217). -/
theorem hdrwr_gencode_comm (s : State) :
    thenDo (execHdrwr s) execGencode = thenDo (execGencode s) execHdrwr := by
  cases hj : s.job with
  | some j => rw [execHdrwr, execGencode, guarded_busy hj, guarded_busy hj, thenDo_refused, thenDo_refused]
  | none =>
    cases hr : s.ready .hdrwr with
    | false =>
      rw [execHdrwr, execGencode, guarded_notReady hj hr, guarded_notReady (i := .gencode) hj hr, thenDo_refused,
        thenDo_refused]
    | true =>
      have hi : s.idle := ⟨hj, State.ready_err hr rfl⟩
      obtain ⟨t, ht⟩ := Option.isSome_iff_exists.mp (show s.tree.isSome = true from State.ready_needs hr)
      rw [execHdrwr_eq hi ht, execGencode_eq hi ht, thenDo_ok (s := s.writeSeq _) hi.2,
        thenDo_ok (s := s.setCodes _) hi.2, execGencode_eq (s := s.writeSeq _) hi ht,
        execHdrwr_eq (s := s.setCodes _) hi ht]
      rfl

/-- Settles O34: by the preconditions that the two commands share. -/
theorem hdrwrAndGencodeCommute : Obligations.HdrwrAndGencodeCommute := hdrwr_gencode_comm

/-! What `COMPRESS` writes -/

/-- Settles O47: both passes start at position 0, so the bytes counted are the bytes encoded. -/
theorem compressWritesStream : Obligations.CompressWritesStream := by
  intro s l hj hp hl hm
  obtain ⟨t, ht, -⟩ := buildTree_some (countsOf l)
  refine ⟨t, ht, (execCompress_eq hj hl hm ht hp).trans ?_⟩
  rw [State.clearBlock_eq, State.writeSeq_src, State.setSrc_src, Src.skip, hp, Nat.zero_add]
  rfl

/-! `COMPRESS` from any position -/

theorem execEncode_eq {t : Tree} (hi : s.idle) (ht : s.tree = some t) (hcv : s.codeValid = true) :
    execEncode s = execEncpay ((s.writeSeq (be 32 Config.magicTree.toNat)).writeSeq (headerBits t)) := by
  rw [execEncode, guarded_idle (i := .encode) hi (treeValid_and_codeValid ht hcv), performEncode, execWrmagic_eq hi,
    thenDo_ok (s := s.writeSeq _) hi.2, execHdrwr_eq (s := s.writeSeq _) hi ht,
    thenDo_ok (s := (s.writeSeq _).writeSeq _) hi.2]

/-- `ENCPAY` refuses a byte without a code, with a singleton tree too (R173, R174). -/
theorem execEncpay_uncoded {t : Tree} {l : List Byte} (hi : s.idle) (ht : s.tree = some t) (hc : s.code = codeTable t)
    (hcv : s.codeValid = true) (hl : s.src.holdsBytes l) (ha : ¬ allCoded (codeTable t) l) :
    execEncpay s = .refused .noCode := by
  cases t with
  | leaf sym w =>
    have hne : l ≠ [] := by
      rintro rfl
      exact ha fun _ hb => absurd hb List.not_mem_nil
    exact (encpayOnSingletonTree s sym w l hi hcv ht hl).trans (if_neg hne)
  | internal w left right => exact encpayRefusesByteWithoutCode s w left right l hi hcv ht hl (hc ▸ ha)

/-- `ENCODE` refuses it too, once magic and header are written (R175, R234). -/
theorem execEncode_uncoded {t : Tree} {l : List Byte} (hi : s.idle) (ht : s.tree = some t) (hc : s.code = codeTable t)
    (hcv : s.codeValid = true) (hl : s.src.holdsBytes l) (ha : ¬ allCoded (codeTable t) l) :
    execEncode s = .refused .noCode :=
  (execEncode_eq hi ht hcv).trans (execEncpay_uncoded (s := (s.writeSeq _).writeSeq _) hi ht hc hcv hl ha)

/-- What a completing `COMPRESS` finds in its source: `counted` on the first pass, from the present position, whose
counts give `t`; `encoded` on the second, from the start, all coded in `t` (R213). -/
structure Src.TwoPasses (r : Src) (counted : List Byte) (t : Tree) (encoded : List Byte) : Prop where
  first : r.holdsBytes counted
  width : counted.length ≤ Config.maxInput
  built : buildTree (countsOf counted) = some t
  second : r.rewind.holdsBytes encoded
  coded : allCoded (codeTable t) encoded

/-- The block after a `COMPRESS` that has encoded the bytes `l` under the tree `t` (R213). -/
def State.afterCompress (t : Tree) (l : List Byte) (s : State) : State :=
  ((s.setSrc (s.src.rewind.skip (8 * l.length))).writeSeq (streamBits t l)).clearBlock

theorem execCompress_secondPass {l : List Byte} {t : Tree} (hj : s.job = none) (hl : s.src.holdsBytes l)
    (hm : l.length ≤ Config.maxInput) (ht : buildTree (countsOf l) = some t) :
    execCompress s = thenDo (execEncode (s.afterFirstPass (countsOf l) t)) discardCall := by
  rw [execCompress, guarded_ready hj rfl, performCompress, performFirstPass_eq hj hl hm ht,
    thenDo_ok (s.afterFirstPass_idle _ t).2]

theorem execCompress_twoPasses {counted encoded : List Byte} {t : Tree} (hj : s.job = none)
    (h : s.src.TwoPasses counted t encoded) : execCompress s = .next (s.afterCompress t encoded) := by
  rw [execCompress_secondPass hj h.first h.width h.built,
    execEncode_coded (s.afterFirstPass_idle _ t) rfl (buildTree_valid h.built).1 rfl h.second h.coded rfl,
    thenDo_ok (s := State.writeSeq _ _) rfl]
  exact congrArg Host.Outcome.next (State.clearBlock_congr (by simp) (by simp) (by simp))

/-- A `COMPRESS` that completes was neither over the width nor met a byte without a code on its second pass (R232,
R234). -/
theorem execCompress_next (h : execCompress s = .next s') :
    ∃ counted t encoded, s.src.TwoPasses counted t encoded ∧ s' = s.afterCompress t encoded := by
  obtain ⟨hj, -, -⟩ := guarded_next h
  obtain ⟨counted, hfirst⟩ := s.src.exists_holdsBytes
  obtain ⟨encoded, hsecond⟩ := s.src.rewind.exists_holdsBytes
  obtain ⟨t, ht, -⟩ := buildTree_some (countsOf counted)
  have hm : counted.length ≤ Config.maxInput := by
    by_contra hm
    cases (execCompress_tooLong hj hfirst hm).symm.trans h
  have ha : allCoded (codeTable t) encoded := by
    by_contra ha
    rw [execCompress_secondPass hj hfirst hm ht,
      execEncode_uncoded (s.afterFirstPass_idle _ t) rfl rfl rfl hsecond ha] at h
    cases h
  have hpasses : s.src.TwoPasses counted t encoded := ⟨hfirst, hm, ht, hsecond, ha⟩
  exact ⟨counted, t, encoded, hpasses, (Host.Outcome.next.inj ((execCompress_twoPasses hj hpasses).symm.trans h)).symm⟩

/-- Settles O49: what the two passes find is a matter of the source alone. -/
theorem compressIgnoresBlockState : Obligations.CompressIgnoresBlockState := by
  intro s u s' _ hu hsrc hsnk h
  obtain ⟨counted, t, encoded, hpasses, rfl⟩ := execCompress_next h
  rw [hsrc] at hpasses
  refine (execCompress_twoPasses hu hpasses).trans ?_
  simp only [State.afterCompress, State.clearBlock_eq, State.writeSeq_src, State.writeSeq_snk, State.writeSeq_port,
    State.setSrc_src, State.setSrc_snk, State.setSrc_port, hsrc, hsnk]

/-! How `DECOMPRESS` can end -/

/-- `DECOMPRESS` completes with the block cleared, or fails in `RDMAGIC` or `HDRRD` before anything is written, or fails
in `DECPAY` (R215, R216, R225). -/
theorem execDecompress_cases (hj : s.job = none) : ∃ (r : Src) (x : BitSeq),
    execDecompress s = .next ((s.setSrc r).writeSeq x).clearBlock ∨
    execDecompress s = .next ((s.clearBlock.setSrc r).raise .invalidFormat) ∨
    execDecompress s = .next (((s.clearBlock.setSrc r).writeSeq x).raise .truncatedInput) := by
  rw [execDecompress_eq hj, execRdmagic_idle ⟨rfl, rfl⟩]
  rcases performRdmagic_cases s.clearBlock with ⟨-, hmagic⟩ | ⟨n, -, hmagic⟩
  · rw [hmagic, thenDo_ok rfl, execHdrrd_idle ⟨rfl, rfl⟩]
    rcases performHdrrd_cases (s.clearBlock.setSrc (s.src.skip 32)) with ⟨t, z, -, -, -, hheader⟩ | ⟨r, -, -, hheader⟩
    · rw [State.clearBlock_src, hheader, thenDo_ok rfl, execDecpay_idle ⟨rfl, rfl⟩ rfl]
      obtain ⟨x, n, -, ⟨p, -, hpayload⟩ | hpayload⟩ := performDecpay_cases (s := State.setRead t _) rfl
      · rw [hpayload, thenDo_ok rfl]
        exact ⟨_, x, .inl rfl⟩
      · rw [hpayload, thenDo_failed rfl]
        exact ⟨_, x, .inr (.inr rfl)⟩
    · rw [State.clearBlock_src, hheader, thenDo_failed rfl, thenDo_failed rfl]
      exact ⟨r, [], .inr (.inl rfl)⟩
  · rw [hmagic, thenDo_failed rfl, thenDo_failed rfl, thenDo_failed rfl]
    exact ⟨_, [], .inr (.inl rfl)⟩

/-- Settles O53: `CLR` has set the counts to 0 before anything can fail, and no other operation sets them. -/
theorem decompressEndsClearOrFailed : Obligations.DecompressEndsClearOrFailed := by
  intro s hj
  obtain ⟨r, x, h | h | h⟩ := execDecompress_cases hj
  all_goals
    obtain ⟨hbits, hsnk⟩ := execDecompress_extends h
    refine ⟨_, h, hbits, hsnk, rfl, ?_⟩
  · exact .inl (State.clearBlock_eq _)
  · exact .inr ⟨.inl ⟨State.raise_failed _ _, rfl⟩, rfl⟩
  · exact .inr ⟨.inr (State.raise_failed _ _), rfl⟩

end Sys2Proof.Machine

/-!
PROOFS. The exceptions (spec/60_exceptions.md R220 to R233) and the source position (spec/70_reset_and_hazards.md R252):
which commands are refused and why, which operations can fail and what a failure leaves, and which move the source back.
-/

namespace Sys2Proof.Machine

variable {s s' t : State} {i : Instr} {op : OpCode}

/-! The commands and their preconditions -/

theorem opcodeOf_decodeCommand (op : OpCode) : opcodeOf (decodeCommand op) = some op := by
  revert op
  decide

/-- The fourteen commands, without the two reserved codes (R90, R94). -/
def isOperation (i : Instr) : Bool := (opcodeOf i).any (· < 0b1110#4)

/-- Every command tests its preconditions before it does anything (R231, R233). -/
theorem exec_eq_guarded (h : isOperation i = true) (s : State) : ∃ o, exec i s = guarded i s o := by
  cases i with
  | reserved1110 | reserved1111 | streamMagic | hdrInternal | hdrLeaf | payloadCode | terminatorCode => cases h
  | _ => exact ⟨_, rfl⟩

theorem exec_notReady (h : isOperation i = true) (hj : s.job = none) (hr : s.ready i = false) :
    exec i s = .refused .needsState := by
  obtain ⟨o, ho⟩ := exec_eq_guarded h s
  rw [ho, guarded_notReady hj hr]

theorem State.notReady_of_failed (he : s.err ≠ none) (ha : acceptsError i = false) : s.ready i = false := by
  simp [State.ready, ha, he]

theorem State.notReady_of_unmet (hn : s.hasNeeds i = false) : s.ready i = false := by
  rw [State.ready, hn, Bool.and_false]

/-- Settles O17: each of the commands tests `ERR` and the bits it needs. -/
theorem needsStateIsRefused : Obligations.NeedsStateIsRefused := by
  intro s hj
  refine ⟨fun he i hi => ?_, fun hc => ?_, fun ht i hi => ?_, fun hc => ?_⟩
  · have hop : isOperation i = true ∧ acceptsError i = false := by
      revert i
      decide
    exact exec_notReady hop.1 hj (State.notReady_of_failed he hop.2)
  · exact exec_notReady rfl hj (State.notReady_of_unmet hc)
  · have hop : isOperation i = true ∧ s.hasNeeds i = false := by
      revert i
      simp [isOperation, opcodeOf, State.hasNeeds, State.treeValid, ht]
    exact exec_notReady hop.1 hj (State.notReady_of_unmet hop.2)
  · have hn : (s.treeValid && s.codeValid) = false := by rw [hc, Bool.and_false]
    exact ⟨exec_notReady rfl hj (State.notReady_of_unmet hn), exec_notReady rfl hj (State.notReady_of_unmet hn)⟩

/-- A command that answers a next state was ready; a reserved code never does (R231, R233). -/
theorem command_ready (hop : opcodeOf i = some op) (h : exec i s = .next s') : s.ready i = true := by
  by_cases hi : isOperation i = true
  · obtain ⟨o, ho⟩ := exec_eq_guarded hi s
    exact (guarded_next (ho.symm.trans h)).2.1
  · cases i with
    | reserved1110 | reserved1111 => cases h
    | streamMagic | hdrInternal | hdrLeaf | payloadCode | terminatorCode => cases hop
    | _ => exact absurd rfl hi

theorem acceptsError_iff : acceptsError i = true ↔ i = .clr ∨ i = .rewind ∨ i = .compress ∨ i = .decompress := by
  cases i <;> simp [acceptsError]

/-- What a failed block performs (R227, R231). -/
theorem command_of_failed {k : ErrorKind} (hop : opcodeOf i = some op) (he : s.err = some k)
    (h : exec i s = .next s') : i = .clr ∨ i = .rewind ∨ i = .compress ∨ i = .decompress := by
  rw [← acceptsError_iff]
  by_contra ha
  cases he.symm.trans (State.ready_err (command_ready hop h) (Bool.eq_false_iff.mpr ha))

/-- Settles O16: in a failed block nothing is in progress, and of the commands it performs `REWIND` keeps `ERR`. -/
theorem errorIsSticky : Obligations.ErrorIsSticky := by
  intro s s' k hinv hk hstep
  rcases step_next hstep with ⟨-, -, rfl⟩ | ⟨-, op, rest, hport, h⟩ | ⟨j, hj, -, -⟩
  · exact .inl hk
  · rcases command_of_failed (s := { s with port := rest }) (opcodeOf_decodeCommand op) hk h with hi | hi | hi | hi
    · exact .inr ⟨op, rest, hport, .inl hi⟩
    · rw [hi] at h
      obtain ⟨-, rfl⟩ := execRewind_next h
      exact .inl hk
    · exact .inr ⟨op, rest, hport, .inr (.inl hi)⟩
    · exact .inr ⟨op, rest, hport, .inr (.inr hi)⟩
  · cases hk.symm.trans (hinv.err_none hj)

/-! The input too long for the width -/

/-- No count exceeds the number of bytes, which is within the width (R111). -/
theorem execCount_get_lt (h : execCount s = .next s') (v : Byte) : s'.cnt.get v < 2 ^ Config.countWidth := by
  obtain ⟨-, l, -, hm, rfl⟩ := execCount_next h
  calc (countsOf l).get v = l.count v := countsOf_get l v
    _ ≤ l.length := List.count_le_length
    _ ≤ Config.maxInput := hm
    _ < 2 ^ Config.countWidth := by have := Config.maxInput_add_two; omega

/-- Settles O20: the bytes left are compared with the bound before anything is read, and are counted once each. -/
theorem countRefusesLongInput : Obligations.CountRefusesLongInput := by
  refine ⟨fun s l hl hlong => ?_, fun s s' v h => execCount_get_lt h v⟩
  have hm : ¬ l.length ≤ Config.maxInput := Nat.not_le.mpr hlong
  exact ⟨fun hi => (execCount_eq hi hl).trans (if_neg hm), fun hj => execCompress_tooLong hj hl hm⟩

/-! How a step can stop -/

/-- The answer is a next state, or a refusal for one of the reasons of R230. -/
inductive StopsAsListed : Result → Prop
  | next (s : State) : StopsAsListed (.next s)
  | needsState : StopsAsListed (.refused .needsState)
  | widthOverflow : StopsAsListed (.refused .widthOverflow)
  | badCommand : StopsAsListed (.refused .badCommand)
  | noCode : StopsAsListed (.refused .noCode)

namespace StopsAsListed

theorem guarded {o : Result} (h : s.ready i = true → StopsAsListed o) : StopsAsListed (guarded i s o) := by
  cases hj : s.job with
  | some j => rw [guarded_busy hj]; exact .badCommand
  | none =>
    cases hr : s.ready i with
    | true => rw [guarded_ready hj hr]; exact h hr
    | false => rw [guarded_notReady hj hr]; exact .needsState

theorem thenDo {o : Result} {f : State → Result} (ho : StopsAsListed o) (hf : ∀ s, StopsAsListed (f s)) :
    StopsAsListed (thenDo o f) := by
  cases ho with
  | next s =>
    cases he : s.err with
    | none => rw [thenDo_ok he]; exact hf s
    | some k => rw [thenDo_failed he]; exact .next s
  | needsState => exact .needsState
  | widthOverflow => exact .widthOverflow
  | badCommand => exact .badCommand
  | noCode => exact .noCode

end StopsAsListed

theorem execClr_stops (s : State) : StopsAsListed (execClr s) := .guarded fun _ => .next _

theorem execRewind_stops (s : State) : StopsAsListed (execRewind s) := .guarded fun _ => .next _

theorem execCount_stops (s : State) : StopsAsListed (execCount s) := .guarded fun _ => by
  obtain ⟨l, hl⟩ := s.src.exists_holdsBytes
  rw [performCount_eq hl]
  split
  · exact .next _
  · exact .widthOverflow

theorem execBuild_stops (s : State) : StopsAsListed (execBuild s) := .guarded fun _ => .next _

theorem execGencode_stops (s : State) : StopsAsListed (execGencode s) := .guarded fun hr => by
  obtain ⟨t, ht⟩ := Option.isSome_iff_exists.mp (show s.tree.isSome = true from State.ready_needs hr)
  exact performGencode_some ht ▸ .next _

theorem execWrmagic_stops (s : State) : StopsAsListed (execWrmagic s) := .guarded fun _ => .next _

theorem execHdrwr_stops (s : State) : StopsAsListed (execHdrwr s) := .guarded fun hr => by
  obtain ⟨t, ht⟩ := Option.isSome_iff_exists.mp (show s.tree.isSome = true from State.ready_needs hr)
  exact performHdrwr_some ht ▸ .next _

theorem execEncpay_stops (s : State) : StopsAsListed (execEncpay s) := .guarded fun hr => by
  have ht : s.tree.isSome = true := (Bool.and_eq_true_iff.mp (State.ready_needs hr)).1
  obtain ⟨l, x, -, e⟩ | e := performEncpay_cases (State.ready_err hr rfl) ht
  · exact e ▸ .next _
  · exact e ▸ .noCode

theorem execRdmagic_stops (s : State) : StopsAsListed (execRdmagic s) := .guarded fun _ => by
  obtain ⟨-, e⟩ | ⟨n, -, e⟩ := performRdmagic_cases s <;> exact e ▸ .next _

theorem execHdrrd_stops (s : State) : StopsAsListed (execHdrrd s) := .guarded fun _ => by
  obtain ⟨t, z, -, -, -, e⟩ | ⟨r, -, -, e⟩ := performHdrrd_cases s <;> exact e ▸ .next _

theorem execDecpay_stops (s : State) : StopsAsListed (execDecpay s) := .guarded fun hr => by
  obtain ⟨x, n, -, ⟨p, -, e⟩ | e⟩ := performDecpay_cases (State.ready_needs hr) <;> exact e ▸ .next _

theorem execEncode_stops (s : State) : StopsAsListed (execEncode s) :=
  .guarded fun _ => execWrmagic_stops s |>.thenDo execHdrwr_stops |>.thenDo execEncpay_stops

theorem discardCall_stops (s : State) : StopsAsListed (discardCall s) := .next _

theorem execCompress_stops (s : State) : StopsAsListed (execCompress s) :=
  .guarded fun _ => execClr_stops s |>.thenDo execCount_stops |>.thenDo execRewind_stops |>.thenDo execBuild_stops
    |>.thenDo execGencode_stops |>.thenDo execEncode_stops |>.thenDo discardCall_stops

theorem execDecompress_stops (s : State) : StopsAsListed (execDecompress s) :=
  .guarded fun _ => execClr_stops s |>.thenDo execRdmagic_stops |>.thenDo execHdrrd_stops |>.thenDo execDecpay_stops
    |>.thenDo discardCall_stops

theorem command_stops (hop : opcodeOf i = some op) (s : State) : StopsAsListed (exec i s) := by
  cases i with
  | clr => exact execClr_stops s
  | count => exact execCount_stops s
  | build => exact execBuild_stops s
  | gencode => exact execGencode_stops s
  | wrmagic => exact execWrmagic_stops s
  | hdrwr => exact execHdrwr_stops s
  | encpay => exact execEncpay_stops s
  | rdmagic => exact execRdmagic_stops s
  | hdrrd => exact execHdrrd_stops s
  | decpay => exact execDecpay_stops s
  | encode => exact execEncode_stops s
  | compress => exact execCompress_stops s
  | decompress => exact execDecompress_stops s
  | rewind => exact execRewind_stops s
  | reserved1110 | reserved1111 => exact .badCommand
  | streamMagic | hdrInternal | hdrLeaf | payloadCode | terminatorCode => cases hop

/-- Every operation in progress, at its next token (R89). -/
theorem token_stops {j : Job} (hj : s.job = some j) : StopsAsListed (fetchInProgress j s).answer := by
  cases j with
  | rdMagic =>
    obtain ⟨n, -, e | ⟨-, e⟩⟩ := answer_rdMagic hj <;> exact e ▸ .next _
  | hdrRd r =>
    have ha := answer_hdrRd hj
    generalize (fetchInProgress (.hdrRd r) s).answer = o at ha
    cases ha with
    | failed n => exact .next _
    | taken n r' => exact .next _
    | complete n t => exact .next _
  | decPay =>
    obtain ⟨x, n, j', p, -, -, -, e⟩ | ⟨n, -, e⟩ | ⟨-, e⟩ := answer_decPay hj
    · exact e ▸ .next _
    · exact e ▸ .next _
    · exact e ▸ .needsState
  | wrMagic => exact answer_wrMagic hj ▸ .next _
  | hdrWr todo =>
    obtain ⟨x, j', -, e⟩ := answer_hdrWr hj
    exact e ▸ .next _
  | encPay =>
    obtain ⟨x, n, j', -, -, e⟩ | e | ⟨-, e⟩ := answer_encPay hj
    · exact e ▸ .next _
    · exact e ▸ .noCode
    · exact e ▸ .needsState

theorem step_stops (s : State) : StopsAsListed (step s) := by
  cases hj : s.job with
  | none =>
    cases hp : s.port with
    | nil => exact step_nothing hj hp ▸ .next s
    | cons op rest => exact step_command hj hp ▸ command_stops (opcodeOf_decodeCommand op) _
  | some j =>
    cases hp : s.port with
    | nil => exact step_inProgress hj hp ▸ token_stops hj
    | cons op rest => exact step_commandWhileBusy hj hp ▸ .badCommand

/-- Settles O11: by what a step does, each command and each token being answered as R230 lists. -/
theorem stepsStopOnlyForListedReasons : Obligations.StepsStopOnlyForListedReasons := by
  intro s
  have h := step_stops s
  refine ⟨fun r hr => ?_, fun r hr => ?_⟩
  · cases hr ▸ h
  · cases hr ▸ h with
    | needsState => exact .inl rfl
    | widthOverflow => exact .inr (.inl rfl)
    | badCommand => exact .inr (.inr (.inl rfl))
    | noCode => exact .inr (.inr (.inr rfl))

/-! How an operation can fail -/

/-- The operation completes, or fails with a kind of which `raises` holds and leaves the failed state of R225, the
counts as they were or at 0. -/
def CompletesOrFails (raises : ErrorKind → Prop) (s s' : State) : Prop :=
  s'.err = none ∨ ∃ k, raises k ∧ s'.Failed k ∧ (s'.cnt = s.cnt ∨ s'.cnt = CountTable.zero)

/-- The kinds that a command can raise (R221, R222). -/
def commandRaises (i : Instr) (k : ErrorKind) : Prop :=
  (k = .invalidFormat ∧ i ∈ [Instr.rdmagic, .hdrrd, .decompress]) ∨
    (k = .truncatedInput ∧ i ∈ [Instr.decpay, .decompress])

/-- The kinds that an operation in progress can raise at a token (R221, R222). -/
def jobRaises (j : Job) (k : ErrorKind) : Prop :=
  (k = .invalidFormat ∧ (j = .rdMagic ∨ ∃ r : HdrReader, j = .hdrRd r)) ∨ (k = .truncatedInput ∧ j = .decPay)

theorem CompletesOrFails.failed {raises : ErrorKind → Prop} {k : ErrorKind} (hk : raises k)
    (hc : t.cnt = s.cnt ∨ t.cnt = CountTable.zero) : CompletesOrFails raises s (t.raise k) :=
  .inr ⟨k, hk, t.raise_failed k, hc⟩

/-- No operation of `ENCODE` raises an error. -/
theorem execEncode_err (h : execEncode s = .next s') (he : s.err = none) : s'.err = none := by
  refine execEncode_keeps (fun u => u.err = none) h he (fun u v hu h => ?_) (fun u v hu h => ?_) fun u v hu h => ?_
  · obtain ⟨-, rfl⟩ := execWrmagic_next h
    exact hu
  · obtain ⟨-, t, -, rfl⟩ := execHdrwr_next h
    exact hu
  · obtain ⟨-, -, -, l, x, -, rfl⟩ := execEncpay_next h
    exact hu

theorem execRdmagic_completesOrFails (h : execRdmagic s = .next s') :
    CompletesOrFails (commandRaises .rdmagic) s s' := by
  obtain ⟨hi, ⟨-, rfl⟩ | ⟨n, -, rfl⟩⟩ := execRdmagic_next h
  · exact .inl hi.2
  · exact .failed (.inl ⟨rfl, by decide⟩) (.inl rfl)

theorem execHdrrd_completesOrFails (h : execHdrrd s = .next s') : CompletesOrFails (commandRaises .hdrrd) s s' := by
  obtain ⟨hi, ⟨t, z, -, -, -, rfl⟩ | ⟨r, -, -, rfl⟩⟩ := execHdrrd_next h
  · exact .inl hi.2
  · exact .failed (.inl ⟨rfl, by decide⟩) (.inl rfl)

theorem execDecpay_completesOrFails (h : execDecpay s = .next s') : CompletesOrFails (commandRaises .decpay) s s' := by
  obtain ⟨hi, -, x, n, -, ⟨p, -, rfl⟩ | rfl⟩ := execDecpay_next h
  · exact .inl hi.2
  · exact .failed (.inr ⟨rfl, by decide⟩) (.inl rfl)

/-- `CLR`, with which `DECOMPRESS` begins, sets the counts to 0 (R215). -/
theorem execDecompress_completesOrFails (h : execDecompress s = .next s') :
    CompletesOrFails (commandRaises .decompress) s s' := by
  obtain ⟨hj, -, -⟩ := guarded_next h
  obtain ⟨r, x, e | e | e⟩ := execDecompress_cases hj <;> obtain rfl := Host.Outcome.next.inj (e.symm.trans h)
  · exact .inl rfl
  · exact .failed (.inl ⟨rfl, by decide⟩) (.inr rfl)
  · exact .failed (.inr ⟨rfl, by decide⟩) (.inr rfl)

theorem command_completesOrFails (hop : opcodeOf i = some op) (he : s.err = none) (h : exec i s = .next s') :
    CompletesOrFails (commandRaises i) s s' := by
  cases i with
  | clr => obtain ⟨-, rfl⟩ := execClr_next h; exact .inl rfl
  | count => obtain ⟨-, l, -, -, rfl⟩ := execCount_next h; exact .inl ((State.setCounts_err _ _).trans he)
  | build => obtain ⟨-, -, t, -, rfl⟩ := execBuild_next h; exact .inl he
  | gencode => obtain ⟨-, t, -, rfl⟩ := execGencode_next h; exact .inl he
  | wrmagic => obtain ⟨-, rfl⟩ := execWrmagic_next h; exact .inl he
  | hdrwr => obtain ⟨-, t, -, rfl⟩ := execHdrwr_next h; exact .inl he
  | encpay => obtain ⟨-, -, -, l, x, -, rfl⟩ := execEncpay_next h; exact .inl he
  | rdmagic => exact execRdmagic_completesOrFails h
  | hdrrd => exact execHdrrd_completesOrFails h
  | decpay => exact execDecpay_completesOrFails h
  | encode => exact .inl (execEncode_err h he)
  | compress => obtain ⟨l, t, l', -, rfl⟩ := execCompress_next h; exact .inl rfl
  | decompress => exact execDecompress_completesOrFails h
  | rewind => obtain ⟨-, rfl⟩ := execRewind_next h; exact .inl he
  | reserved1110 | reserved1111 => cases h
  | streamMagic | hdrInternal | hdrLeaf | payloadCode | terminatorCode => cases hop

theorem token_completesOrFails {j : Job} (hj : s.job = some j) (he : s.err = none)
    (h : (fetchInProgress j s).answer = .next s') : CompletesOrFails (jobRaises j) s s' := by
  cases j with
  | rdMagic =>
    obtain ⟨n, -, e | ⟨-, e⟩⟩ := answer_rdMagic hj <;> rw [e] at h <;> cases h
    · exact .failed (.inl ⟨rfl, .inl rfl⟩) (.inl rfl)
    · exact .inl he
  | hdrRd r =>
    have ha := answer_hdrRd hj
    rw [h] at ha
    cases ha with
    | failed n => exact .failed (.inl ⟨rfl, .inr ⟨r, rfl⟩⟩) (.inl rfl)
    | taken n r' => exact .inl he
    | complete n t => exact .inl he
  | decPay =>
    obtain ⟨x, n, j', p, -, -, -, e⟩ | ⟨n, -, e⟩ | ⟨-, e⟩ := answer_decPay hj <;> rw [e] at h <;> cases h
    · exact .inl he
    · exact .failed (.inr ⟨rfl, rfl⟩) (.inl rfl)
  | wrMagic =>
    rw [answer_wrMagic hj] at h
    cases h
    exact .inl he
  | hdrWr todo =>
    obtain ⟨x, j', -, e⟩ := answer_hdrWr hj
    rw [e] at h
    cases h
    exact .inl he
  | encPay =>
    obtain ⟨x, n, j', -, -, e⟩ | e | ⟨-, e⟩ := answer_encPay hj <;> rw [e] at h <;> cases h
    exact .inl he

/-- Every step that ends with `ERR` set is a command or a token that failed (R224, R225). -/
theorem step_failed (he : s.err = none) (h : step s = .next s') (he' : s'.err ≠ none) :
    ∃ k, ((∃ op rest, s.port = op :: rest ∧ commandRaises (decodeCommand op) k) ∨
        ∃ j, s.job = some j ∧ jobRaises j k) ∧
      s'.Failed k ∧ (s'.cnt = s.cnt ∨ s'.cnt = CountTable.zero) := by
  rcases step_next h with ⟨-, -, rfl⟩ | ⟨-, op, rest, hport, h⟩ | ⟨j, hj, -, h⟩
  · exact absurd he he'
  · have hc := command_completesOrFails (s := { s with port := rest }) (opcodeOf_decodeCommand op) he h
    obtain ⟨k, hk, hend⟩ := hc.resolve_left he'
    exact ⟨k, .inl ⟨op, rest, hport, hk⟩, hend⟩
  · obtain ⟨k, hk, hend⟩ := (token_completesOrFails hj he h).resolve_left he'
    exact ⟨k, .inr ⟨j, hj, hk⟩, hend⟩

/-- Settles O13: every failing command and token ends in `State.raise`, and `DECOMPRESS` in that of its parts. -/
theorem failureStateIsR225 : Obligations.FailureStateIsR225 := by
  intro s s' he h he'
  obtain ⟨k, -, hend⟩ := step_failed he h he'
  exact ⟨k, hend⟩

/-- Settles O14: by the kinds that the failing command or the failing operation in progress can raise. -/
theorem onlyReadersRaiseErrors : Obligations.OnlyReadersRaiseErrors := by
  intro s s' k he h hk
  obtain ⟨k', hraises, ⟨hk', -⟩, -⟩ := step_failed he h (by simp [hk])
  obtain rfl : k = k' := Option.some.inj (hk.symm.trans hk')
  rcases hraises with hcommand | ⟨j, hj, ⟨rfl, rfl | ⟨r, rfl⟩⟩ | ⟨rfl, rfl⟩⟩
  · exact .inl hcommand
  · exact .inr (.inl ⟨rfl, .inl hj⟩)
  · exact .inr (.inl ⟨rfl, .inr ⟨r, hj⟩⟩)
  · exact .inr (.inr ⟨rfl, hj⟩)

/-! The source position -/

/-- From `s` to `s'` the source was read on, by some number of bits or none. -/
def ReadsOn (s s' : State) : Prop := ∃ n, s'.src = s.src.skip n

namespace ReadsOn

theorem refl (s : State) : ReadsOn s s := ⟨0, rfl⟩

theorem trans (h : ReadsOn s t) (h' : ReadsOn t s') : ReadsOn s s' := by
  obtain ⟨m, hm⟩ := h
  obtain ⟨n, hn⟩ := h'
  exact ⟨m + n, by rw [hn, hm, Src.skip_skip]⟩

theorem pos_le (h : ReadsOn s s') : s.src.pos ≤ s'.src.pos := by
  obtain ⟨n, hn⟩ := h
  rw [hn]
  exact Nat.le_add_right _ n

/-- What follows in a sequence reads on from there. -/
theorem andThen {f : State → Result} (hf : ∀ {u v}, f u = .next v → ReadsOn u v) (u v : State)
    (h : ReadsOn s u) (he : f u = .next v) : ReadsOn s v :=
  h.trans (hf he)

end ReadsOn

/-- A failing `rd` leaves the source where its last complete read ended (R157, R225). -/
theorem rd_error_skip {fuel : Nat} {ctx : HdrContext} {r : Src} (hi : ctx.nint ≤ maxInternals)
    (h : rd fuel ctx = .error r) : ∃ n, r = ctx.src.skip n := by
  induction fuel generalizing ctx r with
  | zero => cases h; exact ⟨0, rfl⟩
  | succ fuel ih =>
    rcases hrest : ctx.src.rest with _ | ⟨_ | _, z⟩
    · cases (rd_noFlag hrest).symm.trans h
      exact ⟨0, rfl⟩
    · by_cases hn : ctx.nint = maxInternals
      · cases (rd_tooManyInternals hrest hn).symm.trans h
        exact ⟨1, rfl⟩
      · have hi' : ctx.nint + 1 ≤ maxInternals := by omega
        rw [rd_internal hrest hn] at h
        split at h
        case h_1 hleft =>
          cases h
          obtain ⟨n, rfl⟩ := ih hi' hleft
          exact ⟨1 + n, Src.skip_skip _ _ _⟩
        case h_2 left c' hleft =>
          obtain ⟨-, -, -, hread, rfl⟩ := rd_ok hi' hleft
          split at h <;> cases h
          rename_i hright
          obtain ⟨n, rfl⟩ := ih hread.internals hright
          exact ⟨1 + (headerBits left).length + n, by rw [Src.skip_skip, Src.skip_skip, Nat.add_assoc]⟩
    · rcases Nat.lt_or_ge z.length 9 with hz | hz
      · cases (rd_cutSymbol hrest hz).symm.trans h
        exact ⟨1, rfl⟩
      · obtain ⟨sym, z', rfl⟩ := exists_symbol_field hz
        rw [rd_leaf hrest] at h
        split at h <;> cases h
        exact ⟨10, rfl⟩

/-- The end of `HDRRD` leaves the streams as the reads left them (R155). -/
theorem finishHeader_src {u : Tree} {seen : List Symbol} (h : finishHeader u seen s = .next s') : s'.src = s.src := by
  rw [finishHeader] at h
  split at h <;> cases h <;> rfl

theorem execHdrrd_readsOn (h : execHdrrd s = .next s') : ReadsOn s s' := by
  obtain ⟨-, -, h⟩ := guarded_next h
  rw [performHdrrd] at h
  split at h
  · rename_i r hr
    cases h
    exact rd_error_skip (Nat.zero_le _) hr
  · rename_i u ctx hr
    obtain ⟨-, -, -, -, rfl⟩ := rd_ok (Nat.zero_le _) hr
    exact ⟨_, finishHeader_src h⟩

theorem execClr_readsOn (h : execClr s = .next s') : ReadsOn s s' := by
  obtain ⟨-, rfl⟩ := execClr_next h
  exact .refl s

theorem execRdmagic_readsOn (h : execRdmagic s = .next s') : ReadsOn s s' := by
  obtain ⟨-, ⟨-, rfl⟩ | ⟨n, -, rfl⟩⟩ := execRdmagic_next h
  · exact ⟨32, rfl⟩
  · exact ⟨n, rfl⟩

theorem execDecpay_readsOn (h : execDecpay s = .next s') : ReadsOn s s' := by
  obtain ⟨-, -, x, n, -, ⟨p, -, rfl⟩ | rfl⟩ := execDecpay_next h
  · exact ⟨n, rfl⟩
  · exact ⟨n, rfl⟩

theorem execWrmagic_readsOn (h : execWrmagic s = .next s') : ReadsOn s s' := by
  obtain ⟨-, rfl⟩ := execWrmagic_next h
  exact .refl s

theorem execHdrwr_readsOn (h : execHdrwr s = .next s') : ReadsOn s s' := by
  obtain ⟨-, u, -, rfl⟩ := execHdrwr_next h
  exact .refl s

theorem execEncpay_readsOn (h : execEncpay s = .next s') : ReadsOn s s' := by
  obtain ⟨-, -, -, l, x, -, rfl⟩ := execEncpay_next h
  exact ⟨8 * l.length, rfl⟩

theorem execEncode_readsOn (h : execEncode s = .next s') : ReadsOn s s' :=
  execEncode_keeps (ReadsOn s) h (.refl s) (.andThen execWrmagic_readsOn) (.andThen execHdrwr_readsOn)
    (.andThen execEncpay_readsOn)

theorem execDecompress_readsOn (h : execDecompress s = .next s') : ReadsOn s s' :=
  execDecompress_keeps (ReadsOn s) h (.refl s) (.andThen execClr_readsOn) (.andThen execRdmagic_readsOn)
    (.andThen execHdrrd_readsOn) (.andThen execDecpay_readsOn) fun u h => h.trans (.refl u)

theorem command_readsOn (hop : opcodeOf i = some op) (h : exec i s = .next s') :
    ReadsOn s s' ∨ i = .rewind ∨ i = .compress := by
  cases i with
  | clr => exact .inl (execClr_readsOn h)
  | count => obtain ⟨-, l, -, -, rfl⟩ := execCount_next h; exact .inl ⟨8 * l.length, rfl⟩
  | build => obtain ⟨-, -, u, -, rfl⟩ := execBuild_next h; exact .inl (.refl s)
  | gencode => obtain ⟨-, u, -, rfl⟩ := execGencode_next h; exact .inl (.refl s)
  | wrmagic => exact .inl (execWrmagic_readsOn h)
  | hdrwr => exact .inl (execHdrwr_readsOn h)
  | encpay => exact .inl (execEncpay_readsOn h)
  | rdmagic => exact .inl (execRdmagic_readsOn h)
  | hdrrd => exact .inl (execHdrrd_readsOn h)
  | decpay => exact .inl (execDecpay_readsOn h)
  | encode => exact .inl (execEncode_readsOn h)
  | decompress => exact .inl (execDecompress_readsOn h)
  | rewind => exact .inr (.inl rfl)
  | compress => exact .inr (.inr rfl)
  | reserved1110 | reserved1111 => cases h
  | streamMagic | hdrInternal | hdrLeaf | payloadCode | terminatorCode => cases hop

theorem token_readsOn {j : Job} (hj : s.job = some j) (h : (fetchInProgress j s).answer = .next s') :
    ReadsOn s s' := by
  cases j with
  | rdMagic =>
    obtain ⟨n, -, e | ⟨-, e⟩⟩ := answer_rdMagic hj <;> rw [e] at h <;> cases h
    · exact ⟨n, rfl⟩
    · exact ⟨n, rfl⟩
  | hdrRd r =>
    have ha := answer_hdrRd hj
    rw [h] at ha
    cases ha with
    | failed n => exact ⟨n, rfl⟩
    | taken n r' => exact ⟨n, rfl⟩
    | complete n u => exact ⟨n, rfl⟩
  | decPay =>
    obtain ⟨x, n, j', p, -, -, -, e⟩ | ⟨n, -, e⟩ | ⟨-, e⟩ := answer_decPay hj <;> rw [e] at h <;> cases h
    · exact ⟨n, rfl⟩
    · exact ⟨n, rfl⟩
  | wrMagic =>
    rw [answer_wrMagic hj] at h
    cases h
    exact .refl s
  | hdrWr todo =>
    obtain ⟨x, j', -, e⟩ := answer_hdrWr hj
    rw [e] at h
    cases h
    exact .refl s
  | encPay =>
    obtain ⟨x, n, j', -, -, e⟩ | e | ⟨-, e⟩ := answer_encPay hj <;> rw [e] at h <;> cases h
    exact ⟨n, rfl⟩

/-- Settles O15: every other command, and every token, reads on or leaves the source alone. -/
theorem onlyRewindMovesSourceBack : Obligations.OnlyRewindMovesSourceBack := by
  intro s s' hstep hback
  have hnot : ¬ ReadsOn s s' := fun h => Nat.not_le.mpr hback h.pos_le
  rcases step_next hstep with ⟨-, -, rfl⟩ | ⟨-, op, rest, hport, h⟩ | ⟨j, hj, -, h⟩
  · exact absurd (.refl _) hnot
  · exact ⟨op, rest, hport, (command_readsOn (opcodeOf_decodeCommand op) h).resolve_left hnot⟩
  · exact absurd (token_readsOn hj h) hnot

end Sys2Proof.Machine
